-- ==== Sys2Proof/Word.lean ====
section
/-! DEFINITION. The word types of the DCLE: the bus word, the buffer entries, the field GF(113), and the names of the
four buffer memories. -/

namespace Sys2Proof

/-- A bus word and a command word: 32 bits (R60, R80). -/
abbrev Word := BitVec 32

/-- A byte address of the host bus: 21 bits (R60). -/
abbrev BusAddr := BitVec 21

/-- An entry of SRC or WORK: 9 bits (R63, R64). -/
abbrev Codeword := BitVec 9

/-- An entry of GRID: a 2-bit cell code (R66). -/
abbrev CellCode := BitVec 2

/-- GF(113): the integers 0..112, with addition, subtraction, negation and multiplication modulo 113 (R130). -/
abbrev GF := Fin 113

/-- The four buffer memories (R62). -/
inductive Buffer where
  /-- SRC, the input data codewords (R63). -/
  | src
  /-- WORK, one candidate's codewords (R64). -/
  | work
  /-- STREAM, the dot stream (R65). -/
  | stream
  /-- GRID, the dot grid (R66). -/
  | grid
  deriving DecidableEq, Repr

/-- The DCLE's answer to one host transaction (R61): whether it is the bus error response, and the word a read returns
(zero for a write and for a refused read, R257). -/
structure Response where
  /-- The bus error response. -/
  error : Bool
  /-- The word read. -/
  data : Word
  deriving DecidableEq, Repr

end Sys2Proof
end

