-- ==== Sys2Proof/Syntax.lean ====
section
/-! DEFINITION. The command set, version 1: one constructor per row of spec/opcode_table.json (R83); the register names of
R23; and the host statements of R88 and R89. -/

namespace Sys2Proof

/-- The seventeen commands (R83). An operand has exactly the width its format gives it (R81), so every term is a command
that can be encoded; each operand is an unsigned integer (R82). -/
inductive Instr where
  /-- NOP (R231). -/
  | nop
  /-- SRESET, software reset (R232). -/
  | sreset
  /-- PK_PUSH v: push one value into the packer (R111). -/
  | pkPush (v : BitVec 9)
  /-- PK_FLUSH: flush the packer (R113). -/
  | pkFlush
  /-- DOT_LOOKUP idx: read one dot pattern (R103). -/
  | dotLookup (idx : BitVec 8)
  /-- RS_ENCODE nd, nc: check codewords into WORK (R136). -/
  | rsEncode (nd nc : BitVec 12)
  /-- MASK_APPLY m: SRC to WORK under mask m (R150). -/
  | maskApply (m : BitVec 2)
  /-- CANDIDATE m: build and score the candidate of mask m (R153). -/
  | candidate (m : BitVec 3)
  /-- SCORE: score GRID (R169). -/
  | score
  /-- SELECT: choose the mask and leave its grid (R175). -/
  | select
  /-- ECCLEN: ECC_LEN from DATA_LEN (R194). -/
  | eccLen
  /-- SIZE: height and width from the lengths (R190). -/
  | size
  /-- PAD: append pad codewords (R196). -/
  | pad
  /-- DOTSTREAM: WORK to dot stream (R200). -/
  | dotStream
  /-- FOLD: dot stream to grid (R209). -/
  | fold
  /-- FORCE_CORNERS: set the six corner dots (R210). -/
  | forceCorners
  /-- RUN: ECCLEN, SIZE, PAD, SELECT (R233). -/
  | run
  deriving DecidableEq, Repr

/-- The registers of the register map (R23). -/
inductive Reg where
  /-- ID (R21). -/
  | id
  /-- CTRL (R24). -/
  | ctrl
  /-- STATUS (R25). -/
  | status
  /-- CMD (R27). -/
  | cmd
  /-- DATA_LEN (R28). -/
  | dataLen
  /-- ECC_LEN (R29). -/
  | eccLen
  /-- GRID_H (R30). -/
  | gridH
  /-- GRID_W (R31). -/
  | gridW
  /-- WIDTH_REQ (R32). -/
  | widthReq
  /-- MASK_CFG (R33). -/
  | maskCfg
  /-- PAD_CFG (R44). -/
  | padCfg
  /-- NDOTS (R34). -/
  | ndots
  /-- MIN_DOTS (R35). -/
  | minDots
  /-- BEST_MASK (R36). -/
  | bestMask
  /-- SCORE_LO (R37). -/
  | scoreLo
  /-- SCORE_HI (R37). -/
  | scoreHi
  /-- SCORE_FLAGS (R37). -/
  | scoreFlags
  /-- STREAM_LEN (R43). -/
  | streamLen
  /-- RS_STEP (R45). -/
  | rsStep
  /-- DOT_RESULT (R42). -/
  | dotResult
  /-- PK_ACC_LO (R39). -/
  | pkAccLo
  /-- PK_ACC_HI (R39). -/
  | pkAccHi
  /-- PK_CNT (R40). -/
  | pkCnt
  /-- PK_OUTN (R41). -/
  | pkOutN
  /-- PK_OUT0..PK_OUT5 (R41). -/
  | pkOut (k : Fin 6)
  /-- MSCORE_LO0..MSCORE_LO7 (R38). -/
  | mscoreLo (m : Fin 8)
  /-- MSCORE_HI0..MSCORE_HI7 (R38). -/
  | mscoreHi (m : Fin 8)
  /-- MS_VALID (R38). -/
  | msValid
  deriving DecidableEq, Repr

/-- What a host statement reads or writes (R88): a register by name, a buffer entry, or a numeric byte address. -/
inductive Target where
  /-- A register name of R23. -/
  | reg (r : Reg)
  /-- `SRC[i]`, `WORK[i]`, `STREAM[i]`, `GRID[i]`. -/
  | entry (b : Buffer) (i : Nat)
  /-- A byte address. -/
  | addr (a : Nat)
  deriving DecidableEq, Repr

/-- A statement of a DCLE program (R88) or a pseudo-instruction (R89). -/
inductive Stmt where
  /-- A command statement. -/
  | cmd (i : Instr)
  /-- `WR target, value`. -/
  | wr (t : Target) (v : Nat)
  /-- `RD target`. -/
  | rd (t : Target)
  /-- `WAIT`. -/
  | wait
  /-- `EXEC cmd`. -/
  | exec (i : Instr)
  /-- `LDSRC c0, c1, …`. -/
  | ldsrc (cs : List Nat)
  /-- `CLRST`. -/
  | clrst
  /-- `PIN m`. -/
  | pin (m : Nat)
  /-- `UNPIN`. -/
  | unpin
  /-- `AUTOW`. -/
  | autow
  /-- `GEOM h, w`. -/
  | geom (h w : Nat)
  deriving DecidableEq, Repr

end Sys2Proof
end

