-- ==== Sys2Proof/Decode.lean ====
section
/-! DEFINITION. The command decoder, total on 32-bit words, and the encoder (R80–R87, R90). -/

namespace Sys2Proof

/-- Why a command word is illegal. Both end the command with ILLEGAL_CMD (R84, R85). -/
inductive Illegal where
  /-- The opcode is not in the map of R83 (R85). -/
  | unassignedOpcode
  /-- The opcode is assigned and a Z bit of its format is 1 (R84). -/
  | mustBeZero
  deriving DecidableEq, Repr

/-- `w[31:24]`, the opcode (R80). -/
def opcodeField (w : Word) : BitVec 8 := w.extractLsb' 24 8

/-- Format N: all of `w[23:0]` is Z (R81). -/
def formatN (w : Word) (i : Instr) : Except Illegal Instr :=
  if w.extractLsb' 0 24 = 0 then .ok i else .error .mustBeZero

/-- Format V9: `w[23:9]` is Z, `v = w[8:0]` (R81). -/
def formatV9 (w : Word) (f : BitVec 9 → Instr) : Except Illegal Instr :=
  if w.extractLsb' 9 15 = 0 then .ok (f (w.extractLsb' 0 9)) else .error .mustBeZero

/-- Format I8: `w[23:8]` is Z, `idx = w[7:0]` (R81). -/
def formatI8 (w : Word) (f : BitVec 8 → Instr) : Except Illegal Instr :=
  if w.extractLsb' 8 16 = 0 then .ok (f (w.extractLsb' 0 8)) else .error .mustBeZero

/-- Format M2: `w[23:2]` is Z, `m = w[1:0]` (R81). -/
def formatM2 (w : Word) (f : BitVec 2 → Instr) : Except Illegal Instr :=
  if w.extractLsb' 2 22 = 0 then .ok (f (w.extractLsb' 0 2)) else .error .mustBeZero

/-- Format M3: `w[23:3]` is Z, `m = w[2:0]` (R81). -/
def formatM3 (w : Word) (f : BitVec 3 → Instr) : Except Illegal Instr :=
  if w.extractLsb' 3 21 = 0 then .ok (f (w.extractLsb' 0 3)) else .error .mustBeZero

/-- Format RS: `nc = w[23:12]`, `nd = w[11:0]`, no Z bit (R81). -/
def formatRS (w : Word) (f : BitVec 12 → BitVec 12 → Instr) : Except Illegal Instr :=
  .ok (f (w.extractLsb' 0 12) (w.extractLsb' 12 12))

/-- The command a word stands for, or why it is illegal (R83, R84, R85, R90). The word alone decides (R87). -/
def decode (w : Word) : Except Illegal Instr :=
  match opcodeField w with
  | 0x00#8 => formatN w .nop
  | 0x01#8 => formatN w .sreset
  | 0x10#8 => formatV9 w .pkPush
  | 0x11#8 => formatN w .pkFlush
  | 0x20#8 => formatI8 w .dotLookup
  | 0x30#8 => formatRS w .rsEncode
  | 0x40#8 => formatM2 w .maskApply
  | 0x41#8 => formatM3 w .candidate
  | 0x42#8 => formatN w .score
  | 0x43#8 => formatN w .select
  | 0x50#8 => formatN w .eccLen
  | 0x51#8 => formatN w .size
  | 0x52#8 => formatN w .pad
  | 0x53#8 => formatN w .dotStream
  | 0x54#8 => formatN w .fold
  | 0x55#8 => formatN w .forceCorners
  | 0x60#8 => formatN w .run
  | _ => .error .unassignedOpcode

/-- The word of a command (R81, R83). -/
def encode : Instr → Word
  | .nop => 0x00#8 ++ 0#24
  | .sreset => 0x01#8 ++ 0#24
  | .pkPush v => 0x10#8 ++ 0#15 ++ v
  | .pkFlush => 0x11#8 ++ 0#24
  | .dotLookup idx => 0x20#8 ++ 0#16 ++ idx
  | .rsEncode nd nc => 0x30#8 ++ nc ++ nd
  | .maskApply m => 0x40#8 ++ 0#22 ++ m
  | .candidate m => 0x41#8 ++ 0#21 ++ m
  | .score => 0x42#8 ++ 0#24
  | .select => 0x43#8 ++ 0#24
  | .eccLen => 0x50#8 ++ 0#24
  | .size => 0x51#8 ++ 0#24
  | .pad => 0x52#8 ++ 0#24
  | .dotStream => 0x53#8 ++ 0#24
  | .fold => 0x54#8 ++ 0#24
  | .forceCorners => 0x55#8 ++ 0#24
  | .run => 0x60#8 ++ 0#24

/-- The host's view of the decoder: the instruction read from an instruction whose bits are `w`, `nbits` of them, every
higher bit 0. A command is one 32-bit word (R80), so the low 32 bits are the word. -/
def decodeTableWord (nbits w : Nat) : Option Instr :=
  match decode (BitVec.ofNat 32 (w % 2 ^ nbits)) with
  | .ok i => some i
  | .error _ => none

end Sys2Proof
end

