-- ==== Sys2Proof/Config.lean ====
section
/-! DEFINITION. What an instance of the DCLE fixes and the spec leaves open: the TYPE of the named parameters of R8, and
the free values, which are opaque constants with no body. The values of the fixed parameters (R7) and the defaults (R8)
are in Machine/Parameters.lean. -/

namespace Sys2Proof.Config

/-- TIE_RULE (R8, R176): which of two equal scores wins. -/
inductive TieRule where
  /-- A later mask wins a tie. -/
  | later
  /-- An earlier mask wins a tie. -/
  | earlier
  deriving DecidableEq, Repr

/-- LINE_BASE (R8, R165, R166): what a run of clear lines is scaled by. -/
inductive LineBase where
  /-- Rows scale by W, columns by H. -/
  | ortho
  /-- Rows scale by H, columns by W. -/
  | same
  deriving DecidableEq, Repr

/-- ISO_SCAN (R8, R167): the positions the isolation count scans. -/
inductive IsoScan where
  /-- The interior data cells. -/
  | interior
  /-- All data cells. -/
  | all
  deriving DecidableEq, Repr

/-- ECC_FN (R8, R194), the check length of a data length, as plain data: the affine form of the default, or any function
of 0..4095 as the list of its values (log 14). -/
inductive EccFn where
  /-- `base + d div divisor`. -/
  | affine (base divisor : Nat)
  /-- The values at 0, 1, 2, … . -/
  | table (values : List Nat)
  deriving DecidableEq, Repr

/-- The named parameters of R8. They are the same for the whole life of an instance; State carries them so that a
statement over every state is a statement over every instance (log 3). -/
structure Params where
  /-- DOT_ROM: 113 dot patterns of 9 bits (R100). -/
  dotRom : Vector (BitVec 9) 113
  /-- PRIM: the primitive element (R131, R132). -/
  prim : GF
  /-- ROOT_START: the exponent of the first generator root (R133). -/
  rootStart : Fin 112
  /-- ECC_FN: the check length (R194). -/
  eccFn : EccFn
  /-- PAD_CW: the pad codeword (R196). -/
  padCw : GF
  /-- PAD_CW_BIN: the first pad codeword after binary mode (R196). -/
  padCwBin : GF
  /-- SENTINEL: the score of a rejected grid, a signed 64-bit integer (R163). -/
  sentinel : BitVec 64
  /-- TIE_RULE (R176). -/
  tieRule : TieRule
  /-- LINE_BASE (R165, R166). -/
  lineBase : LineBase
  /-- ISO_SCAN (R167). -/
  isoScan : IsoScan
  /-- PEN_SAT: the bound of the penalty (R165, R166). -/
  penSat : Nat
  /-- SIZE_TIE: the changes of (h, w) to try, in order, upwards or downwards (R191). -/
  sizeTie : List (Int × Int)
  deriving DecidableEq, Repr

/-- FREE VALUE (R72, R282, U20): what entry `i` of a buffer holds after the hardware reset number `epoch` until it is
written. A narrower buffer takes its low bits (log 4). -/
opaque powerOnEntry (epoch : Nat) (b : Buffer) (i : Nat) : BitVec 9

/-- FREE VALUE (R74, U22): what the `n`-th host read made while BUSY returns (log 5). -/
opaque busyRead (n : Nat) : Word

/-- FREE VALUE (R280, U30): what a host sees of the transaction number `n` that it makes while reset is asserted: no
answer, or any answer (log 8). -/
opaque inResetAnswer (n : Nat) : Option Response

end Sys2Proof.Config
end

