-- ==== Sys2Proof/Machine/Parameters.lean ====
section
/-! DEFINITION. The fixed parameters of R7, and the default values of the named parameters of R8 with which State.reset
is stated (log 3). -/

namespace Sys2Proof.Machine

/-- CW_MAX: the largest field element and dot-pattern index (R7). -/
def cwMax : Nat := 112

/-- BLK_MAX: the largest Reed–Solomon block length (R7). -/
def blkMax : Nat := 112

/-- PK_IN_RADIX: the packer's input radix (R7). -/
def pkInRadix : Nat := 259

/-- PK_OUT_RADIX: the packer's output radix (R7). -/
def pkOutRadix : Nat := 103

/-- PK_GROUP: packer values per automatic flush (R7). -/
def pkGroup : Nat := 5

/-- MIN_DIM: the smallest grid height and width (R7). -/
def minDim : Nat := 5

/-- MAX_DIM: the largest grid height and width (R7). -/
def maxDim : Nat := 200

/-- MASK_STEP: the weight step of the plain masks 0..3 (R7). -/
def maskStep (m : Nat) : Nat := [0, 3, 7, 17].getD m 0

/-- The number of entries of each buffer: CW_DEPTH, STREAM_DEPTH, GRID_DEPTH (R7, R62). -/
def depth : Buffer → Nat
  | .src => 4096
  | .work => 4096
  | .stream => 20000
  | .grid => 40000

/-- The default DOT_ROM (R102), entry 0 first. UNVERIFIED: the spec marks the table as recalled and not checked. -/
def defaultDotRomEntries : List (BitVec 9) :=
  [0x155#9, 0x0AB#9, 0x0AD#9, 0x0B5#9, 0x0D5#9, 0x156#9, 0x15A#9, 0x16A#9, 0x1AA#9, 0x0AE#9, 0x0B6#9, 0x0BA#9, 0x0D6#9, 0x0DA#9, 0x0EA#9, 0x12B#9] ++
  [0x12D#9, 0x135#9, 0x14B#9, 0x14D#9, 0x153#9, 0x159#9, 0x165#9, 0x169#9, 0x195#9, 0x1A5#9, 0x1A9#9, 0x057#9, 0x05B#9, 0x05D#9, 0x06B#9, 0x06D#9] ++
  [0x075#9, 0x097#9, 0x09B#9, 0x09D#9, 0x0A7#9, 0x0B3#9, 0x0B9#9, 0x0CB#9, 0x0CD#9, 0x0D3#9, 0x0D9#9, 0x0E5#9, 0x0E9#9, 0x12E#9, 0x136#9, 0x13A#9] ++
  [0x14E#9, 0x15C#9, 0x166#9, 0x16C#9, 0x172#9, 0x174#9, 0x196#9, 0x19A#9, 0x1A6#9, 0x1AC#9, 0x1B2#9, 0x1B4#9, 0x1CA#9, 0x1D2#9, 0x1D4#9, 0x05E#9] ++
  [0x06E#9, 0x076#9, 0x07A#9, 0x09E#9, 0x0BC#9, 0x0CE#9, 0x0DC#9, 0x0E6#9, 0x0EC#9, 0x0F2#9, 0x0F4#9, 0x117#9, 0x11B#9, 0x11D#9, 0x127#9, 0x133#9] ++
  [0x139#9, 0x147#9, 0x163#9, 0x171#9, 0x18B#9, 0x18D#9, 0x193#9, 0x199#9, 0x1A3#9, 0x1B1#9, 0x1C5#9, 0x1C9#9, 0x1D1#9, 0x02F#9, 0x037#9, 0x03B#9] ++
  [0x03D#9, 0x04F#9, 0x067#9, 0x073#9, 0x079#9, 0x08F#9, 0x0C7#9, 0x0E3#9, 0x0F1#9, 0x11E#9, 0x13C#9, 0x178#9, 0x18E#9, 0x19C#9, 0x1B8#9, 0x1C6#9] ++
  [0x1CC#9]

/-- The default DOT_ROM as the 113-entry array of R8. -/
def defaultDotRom : Vector (BitVec 9) 113 := ⟨⟨defaultDotRomEntries⟩, rfl⟩

/-- The default values of the named parameters (R8). DESIGN CHOICE (log 3): unsafe, an instance may have others. -/
def defaultParams : Config.Params where
  dotRom := defaultDotRom
  prim := 3
  rootStart := 1
  eccFn := .affine 3 2
  padCw := 106
  padCwBin := 109
  sentinel := BitVec.ofInt 64 (-99999)
  tieRule := .later
  lineBase := .ortho
  isoScan := .interior
  penSat := 2147483647
  sizeTie := [(0, 1), (1, 0), (1, 2)]

end Sys2Proof.Machine
end

