-- ==== Sys2Proof/Machine/State.lean ====
section
/-! DEFINITION. The state of the DCLE as plain data, the reasons a step can stop, and the state right after reset. -/

namespace Sys2Proof.Machine

/-- A buffer memory: the entries written since the last hardware reset, as (index, value), indices strictly rising. An
index that is not listed has not been written (R72; log 4). -/
abbrev Mem (w : Nat) := List (Nat × BitVec w)

/-- The error codes that STATUS.ERRCODE can hold (R252); no other code is ever recorded. -/
inductive ErrCode where
  /-- 0x00: no error since ERR was last cleared. -/
  | none
  /-- 0x01: an unassigned opcode, or a 1 in a must-be-zero bit. -/
  | illegalCmd
  /-- 0x02: WIDTH_REQ not 0 and outside 5..200. -/
  | cfgWidth
  /-- 0x03: GRID_H, GRID_W break geom_ok. -/
  | cfgGeom
  /-- 0x04: computed height above 200, width not. -/
  | capHLarge
  /-- 0x05: computed width above 200, height not. -/
  | capWLarge
  /-- 0x06: computed height and width above 200. -/
  | capBothLarge
  /-- 0x07: computed height or width below 5. -/
  | capSmall
  /-- 0x08: a codeword operand outside 0..112, or a mask codeword outside 0..3. -/
  | rangeCw
  /-- 0x09: a packer value outside 0..258. -/
  | rangePk
  /-- 0x0A: a dot-pattern index outside 0..112. -/
  | rangeIdx
  /-- 0x0B: an array does not fit its buffer or the grid. -/
  | len
  deriving DecidableEq, Repr

/-- What a host transaction does (R61). -/
inductive Access where
  /-- `MemRead(addr, 4)`. -/
  | read
  /-- `MemWrite(addr, 4, v)`. -/
  | write (v : Word)
  deriving DecidableEq, Repr

/-- One host bus transaction (R61): its byte address, the byte lanes it enables (R69), and what it does. -/
structure Txn where
  /-- The byte address. -/
  addr : BusAddr
  /-- The byte lanes enabled, lane k in bit k (R67). -/
  lanes : BitVec 4
  /-- A read, or a write of a word. -/
  access : Access
  deriving DecidableEq, Repr

/-- Who moves next, and how (log 1). -/
inductive Turn where
  /-- The host makes one bus transaction. -/
  | host (t : Txn)
  /-- The engine executes the pending command, if there is one (R230). -/
  | engine
  /-- A host transaction and the engine's completion fall in the same instant (R26, R291; log 10). -/
  | together (t : Txn)
  /-- The host polls STATUS until BUSY reads 0 (WAIT of R89; log 11, log 21). -/
  | wait
  /-- The reset input is asserted (R280). -/
  | resetAssert
  /-- The reset input is deasserted (R280). -/
  | resetRelease
  deriving DecidableEq, Repr

/-- Why a step faults: never. Every error the spec gives the DCLE is reported in STATUS and the machine goes on (R250,
R256, R257, R258), so the type has no constructor. Safe: no step is stopped. -/
inductive Fault where
  deriving DecidableEq, Repr

/-- Why a step is refused. -/
inductive Refusal where
  /-- Raised by an arm of exec for an instruction that has no meaning yet; no arm raises it. Safe: the machine stops
  where the hardware goes on. -/
  | notModelled (mnemonic : String)
  deriving DecidableEq, Repr

/-- The state of the DCLE. The registers are those of R23, each under its own name; a register whose value is computed
from others (ID, STATUS.BUSY, NDOTS, MIN_DOTS) has no field. -/
structure State where
  /-- The instance's named parameters (R8); no step changes them (log 3). -/
  params : Config.Params
  /-- CTRL.IRQ_EN (R24). -/
  irqEn : Bool
  /-- STATUS.DONE (R25). -/
  done : Bool
  /-- STATUS.ERR (R25). -/
  err : Bool
  /-- STATUS.OVR (R25). -/
  ovr : Bool
  /-- STATUS.BERR (R25). -/
  berr : Bool
  /-- STATUS.ERRCODE (R25, R252). -/
  errCode : ErrCode
  /-- The command word latched by the CMD write, until it completes (R27, R49); STATUS.BUSY is whether there is one. -/
  pending : Option Word
  /-- DATA_LEN (R28). -/
  dataLen : BitVec 12
  /-- ECC_LEN (R29). -/
  eccLen : BitVec 12
  /-- GRID_H (R30). -/
  gridH : BitVec 8
  /-- GRID_W (R31). -/
  gridW : BitVec 8
  /-- WIDTH_REQ (R32). -/
  widthReq : BitVec 8
  /-- MASK_CFG.PIN_MASK (R33). -/
  pinMask : BitVec 3
  /-- MASK_CFG.PIN_EN (R33). -/
  pinEn : Bool
  /-- PAD_CFG.BIN_FINISH (R44). -/
  binFinish : Bool
  /-- BEST_MASK[2:0] (R36). -/
  bestMask : BitVec 3
  /-- BEST_MASK.BM_VALID (R36). -/
  bmValid : Bool
  /-- SCORE, two's complement (R37). -/
  score : BitVec 64
  /-- SCORE_FLAGS.REJECT (R37). -/
  reject : Bool
  /-- SCORE_FLAGS.SC_VALID (R37). -/
  scValid : Bool
  /-- MASK_SCORE[0..7], two's complement (R38). -/
  maskScore : Vector (BitVec 64) 8
  /-- MS_VALID.VALID, bit m for mask m (R38). -/
  msValid : BitVec 8
  /-- MS_VALID.REJ, bit m for mask m (R38). -/
  msRej : BitVec 8
  /-- STREAM_LEN (R43). -/
  streamLen : BitVec 15
  /-- RS_STEP (R45). -/
  rsStep : BitVec 6
  /-- DOT_RESULT (R42). -/
  dotResult : BitVec 9
  /-- ACC, the packer's accumulator (R39). -/
  acc : BitVec 41
  /-- CNT, the packer's pending count (R40). -/
  cnt : BitVec 3
  /-- PK_OUTN (R41). -/
  pkOutN : BitVec 3
  /-- PK_OUT0..PK_OUT5 (R41). -/
  pkOut : Vector (BitVec 7) 6
  /-- SRC (R63). -/
  src : Mem 9
  /-- WORK (R64). -/
  work : Mem 9
  /-- STREAM (R65). -/
  stream : Mem 1
  /-- GRID (R66). -/
  grid : Mem 2
  /-- The reset input is asserted (R280). -/
  inReset : Bool
  /-- MODEL: how many hardware resets there have been; it selects the free contents of the buffers (log 4). -/
  epoch : Nat
  /-- MODEL: how many free answers the host has been given (log 5, log 8). -/
  draws : Nat
  /-- MODEL: the DCLE's answer to the last host transaction (log 17). -/
  response : Option Response
  /-- MODEL: the moves still to come (log 1). -/
  turns : List Turn
  deriving DecidableEq, Repr

/-- The machine right after reset (R281, R282): every register at the reset column of R23, no command pending, every
buffer entry not written. -/
def State.reset : State where
  params := defaultParams
  irqEn := false
  done := false
  err := false
  ovr := false
  berr := false
  errCode := .none
  pending := none
  dataLen := 0
  eccLen := 0
  gridH := 0
  gridW := 0
  widthReq := 0
  pinMask := 0
  pinEn := false
  binFinish := false
  bestMask := 0
  bmValid := false
  score := 0
  reject := false
  scValid := false
  maskScore := Vector.replicate 8 0
  msValid := 0
  msRej := 0
  streamLen := 0
  rsStep := 0
  dotResult := 0
  acc := 0
  cnt := 0
  pkOutN := 0
  pkOut := Vector.replicate 6 0
  src := []
  work := []
  stream := []
  grid := []
  inReset := false
  epoch := 0
  draws := 0
  response := none
  turns := []

end Sys2Proof.Machine
end

