-- ==== Sys2Proof/Machine/Ops.lean ====
section
/-! DEFINITION. The named operations over the buffer memories and the registers: reading and writing buffer entries, the
completion of a command, taking an error (the DCLE's exception entry, R256) and acknowledging it (its return, R260). -/

namespace Sys2Proof.Machine

variable {w : Nat}

/-- The value of an entry of a buffer, or none where it has not been written since reset (R72). -/
def memRead : Mem w → Nat → Option (BitVec w)
  | [], _ => none
  | (a, v) :: m, i => if a = i then some v else memRead m i

/-- The cells at indices below `n`. -/
def memBelow (m : Mem w) (n : Nat) : Mem w := m.filter (fun c => decide (c.1 < n))

/-- The cells at indices from `n` up. -/
def memFrom (m : Mem w) (n : Nat) : Mem w := m.filter (fun c => decide (n ≤ c.1))

/-- The values of a list as cells at rising indices from `i`. -/
def memCells : Nat → List (BitVec w) → Mem w
  | _, [] => []
  | i, v :: vs => (i, v) :: memCells (i + 1) vs

/-- Store the values of a list at rising indices from `base`; every other entry keeps its cell (R79). -/
def memWrite (m : Mem w) (base : Nat) (vs : List (BitVec w)) : Mem w :=
  memBelow m base ++ (memCells base vs ++ memFrom m (base + vs.length))

/-- The canonical form of a buffer of a given depth: indices strictly rising and below the depth. A listed entry never
equals an unlisted one: unlisted means not written (log 4). -/
abbrev memWf (depth : Nat) (m : Mem w) : Prop :=
  m.Pairwise (fun a b => a.1 < b.1) ∧ ∀ c ∈ m, c.1 < depth

/-- The four buffers are in canonical form. -/
abbrev Memory.wf (s : State) : Prop :=
  memWf (depth .src) s.src ∧ memWf (depth .work) s.work ∧
    memWf (depth .stream) s.stream ∧ memWf (depth .grid) s.grid

/-- `SRC[i]` (R63); an entry not written since reset holds a free value (R72). -/
def srcAt (s : State) (i : Nat) : Codeword := (memRead s.src i).getD (Config.powerOnEntry s.epoch .src i)

/-- `WORK[i]` (R64). -/
def workAt (s : State) (i : Nat) : Codeword := (memRead s.work i).getD (Config.powerOnEntry s.epoch .work i)

/-- `STREAM[i]` (R65). -/
def streamAt (s : State) (i : Nat) : BitVec 1 :=
  (memRead s.stream i).getD ((Config.powerOnEntry s.epoch .stream i).setWidth 1)

/-- `GRID[i]` (R66). -/
def gridAt (s : State) (i : Nat) : CellCode :=
  (memRead s.grid i).getD ((Config.powerOnEntry s.epoch .grid i).setWidth 2)

/-- An entry of a buffer as a bus word (R63–R66: `zext_32`). -/
def entryWord (s : State) : Buffer → Nat → Word
  | .src, i => (srcAt s i).setWidth 32
  | .work, i => (workAt s i).setWidth 32
  | .stream, i => (streamAt s i).setWidth 32
  | .grid, i => (gridAt s i).setWidth 32

/-- The width of a buffer's entries (R62). -/
def entryWidth : Buffer → Nat
  | .src => 9
  | .work => 9
  | .stream => 1
  | .grid => 2

/-- The values that fit a buffer from an index on. Every command's indices lie below the depth (R79), so nothing is
dropped for parameters that meet R8 (log 19). -/
def clip (b : Buffer) (base : Nat) (vs : List (BitVec w)) : List (BitVec w) := vs.take (depth b - base)

/-- `SRC[base] <- v0; SRC[base+1] <- v1; …`. -/
def putSrc (s : State) (base : Nat) (vs : List Codeword) : State :=
  { s with src := memWrite s.src base (clip .src base vs) }

/-- `WORK[base] <- v0; WORK[base+1] <- v1; …`. -/
def putWork (s : State) (base : Nat) (vs : List Codeword) : State :=
  { s with work := memWrite s.work base (clip .work base vs) }

/-- `STREAM[base] <- v0; STREAM[base+1] <- v1; …`. -/
def putStream (s : State) (base : Nat) (vs : List (BitVec 1)) : State :=
  { s with stream := memWrite s.stream base (clip .stream base vs) }

/-- `GRID[base] <- v0; GRID[base+1] <- v1; …`. -/
def putGrid (s : State) (base : Nat) (vs : List CellCode) : State :=
  { s with grid := memWrite s.grid base (clip .grid base vs) }

/-- A host write of a word to a buffer entry: it stores the word's low bits (R63–R66). -/
def putEntry (s : State) : Buffer → Nat → Word → State
  | .src, i, v => putSrc s i [v.setWidth 9]
  | .work, i, v => putWork s i [v.setWidth 9]
  | .stream, i, v => putStream s i [v.setWidth 1]
  | .grid, i, v => putGrid s i [v.setWidth 2]

/-- `SRC[0..n-1]`. -/
def srcWords (s : State) (n : Nat) : List Codeword := (List.range n).map (srcAt s)

/-- `WORK[0..n-1]`. -/
def workWords (s : State) (n : Nat) : List Codeword := (List.range n).map (workAt s)

/-- STATUS.BUSY: a command is pending (R25, R49). -/
def busy (s : State) : Bool := s.pending.isSome

/-- Completion of a command without error (R230): DONE is set, BUSY falls. -/
def complete (s : State) : State := { s with done := true, pending := none }

/-- TAKING AN ERROR, the completion of a command that raised `c` (R256): ERR and ERRCODE record it (the most recent error
wins, R261), DONE is set, BUSY falls, and nothing else changes. -/
def raiseError (c : ErrCode) (s : State) : State :=
  { s with err := true, errCode := c, done := true, pending := none }

/-- THE RETURN FROM AN ERROR, the host's write-1-to-clear of STATUS (R26, R260): bit 1 clears DONE, bit 2 clears ERR and
ERRCODE, bit 3 OVR, bit 4 BERR; every other bit of `v` is ignored. -/
def clearStatus (v : Word) (s : State) : State :=
  { s with
    done := s.done && !v.getLsbD 1
    err := s.err && !v.getLsbD 2
    errCode := if v.getLsbD 2 then .none else s.errCode
    ovr := s.ovr && !v.getLsbD 3
    berr := s.berr && !v.getLsbD 4 }

/-- The code of the first condition that holds, in check order (R251, R253, R255). -/
def firstError : List (Bool × ErrCode) → Option ErrCode
  | [] => none
  | (holds, c) :: rest => if holds then some c else firstError rest

/-- The life of one command from its execution to its completion (R13, R230): a check phase that found an error commits
nothing and reports it; otherwise the commit phase's state completes. -/
def runCommand (check : Option ErrCode) (commit s : State) : Host.Outcome State Fault Refusal :=
  .next (match check with
    | none => complete commit
    | some c => raiseError c s)

/-- The registers of R23 at their reset values (R281), the rest of the state as it is: the buffers, the parameters and the
model's own fields. The pending command is dropped. -/
def resetRegisters (s : State) : State :=
  { State.reset with
    params := s.params
    src := s.src
    work := s.work
    stream := s.stream
    grid := s.grid
    inReset := s.inReset
    epoch := s.epoch
    draws := s.draws
    response := s.response
    turns := s.turns }

/-- The assertion of the reset input (R280, R281, R282): a command in progress is abandoned, the registers take their
reset values, and every buffer entry becomes unspecified anew (log 4, log 9). -/
def assertReset (s : State) : State :=
  { resetRegisters s with
    src := []
    work := []
    stream := []
    grid := []
    inReset := true
    epoch := s.epoch + 1 }

/-- The release of the reset input (R280): the DCLE is idle. -/
def releaseReset (s : State) : State := { s with inReset := false }

end Sys2Proof.Machine
end

