-- ==== Sys2Proof/Machine/Operands.lean ====
section
/-! DEFINITION. What the commands take as operands: the configuration registers as numbers, the geometry (R195), the dot
capacities (R34, R35), the range tests (C1), ECC_FN (R8) and DOT_ROM (R100). -/

namespace Sys2Proof.Machine

/-- `d`, the data length (R28). -/
def dLen (s : State) : Nat := s.dataLen.toNat

/-- `e`, the check length (R29). -/
def eLen (s : State) : Nat := s.eccLen.toNat

/-- `H`, the grid height (R30). -/
def gridRows (s : State) : Nat := s.gridH.toNat

/-- `W`, the grid width (R31). -/
def gridCols (s : State) : Nat := s.gridW.toNat

/-- `geom_ok(H, W)` (R195). -/
def geomOk (h w : Nat) : Bool :=
  decide (minDim ≤ h) && decide (h ≤ maxDim) && decide (minDim ≤ w) && decide (w ≤ maxDim) && (h + w) % 2 == 1

/-- The geometry registers break `geom_ok`: the condition of CFG_GEOM (R195). -/
def badGeom (s : State) : Bool := !geomOk (gridRows s) (gridCols s)

/-- NDOTS, `(H*W) div 2` (R14, R34). -/
def ndots (h w : Nat) : Nat := h * w / 2

/-- The dot capacity of the geometry registers. -/
def dotCapacity (s : State) : Nat := ndots (gridRows s) (gridCols s)

/-- MIN_DOTS, `9*(d + e) + 2` (R14, R35), which is also the length of the dot stream before its fill (R202). -/
def minDots (d e : Nat) : Nat := 9 * (d + e) + 2

/-- The stream does not fit the grid: the condition of LEN (R254). -/
def streamTooLong (s : State) : Bool := decide (dotCapacity s < minDots (dLen s) (eLen s))

/-- Some codeword is above 112: the condition of RANGE_CW (R252, C1). -/
def anyAbove (cs : List Codeword) : Bool := cs.any (fun c => decide (cwMax < c.toNat))

/-- `ECC_FN(d)` (R8, R194; log 14). -/
def eccAt : Config.EccFn → Nat → Nat
  | .affine base divisor, d => base + d / divisor
  | .table values, d => values.getD d (values.getLastD 0)

/-- `DOT_ROM[c]` (R100); an index above 112 is in no check's range (R103, R200). -/
def romAt (p : Config.Params) (c : Nat) : BitVec 9 := if h : c < 113 then p.dotRom[c] else 0

end Sys2Proof.Machine
end

