-- ==== Sys2Proof/Machine/Flags.lean ====
section
/-! DEFINITION. The flags: the codes of STATUS.ERRCODE, the words the flag registers read as, and the interrupt output. -/

namespace Sys2Proof.Machine

/-- The code ERRCODE holds (R252). -/
def errCodeBits : ErrCode → BitVec 8
  | .none => 0x00
  | .illegalCmd => 0x01
  | .cfgWidth => 0x02
  | .cfgGeom => 0x03
  | .capHLarge => 0x04
  | .capWLarge => 0x05
  | .capBothLarge => 0x06
  | .capSmall => 0x07
  | .rangeCw => 0x08
  | .rangePk => 0x09
  | .rangeIdx => 0x0A
  | .len => 0x0B

/-- A flag as one bit. -/
def bit (b : Bool) : BitVec 1 := BitVec.ofBool b

/-- STATUS (R25): [15:8] ERRCODE, [4] BERR, [3] OVR, [2] ERR, [1] DONE, [0] BUSY; the reserved bits read 0 (R47). -/
def statusWord (s : State) : Word :=
  0#16 ++ errCodeBits s.errCode ++ 0#3 ++ bit s.berr ++ bit s.ovr ++ bit s.err ++ bit s.done ++ bit (busy s)

/-- CTRL (R24): [0] IRQ_EN. -/
def ctrlWord (s : State) : Word := 0#31 ++ bit s.irqEn

/-- MASK_CFG (R33): [8] PIN_EN, [2:0] PIN_MASK. -/
def maskCfgWord (s : State) : Word := 0#23 ++ bit s.pinEn ++ 0#5 ++ s.pinMask

/-- PAD_CFG (R44): [0] BIN_FINISH. -/
def padCfgWord (s : State) : Word := 0#31 ++ bit s.binFinish

/-- BEST_MASK (R36): [8] BM_VALID, [2:0] the mask id. -/
def bestMaskWord (s : State) : Word := 0#23 ++ bit s.bmValid ++ 0#5 ++ s.bestMask

/-- SCORE_FLAGS (R37): [1] SC_VALID, [0] REJECT. -/
def scoreFlagsWord (s : State) : Word := 0#30 ++ bit s.scValid ++ bit s.reject

/-- MS_VALID (R38): [15:8] REJ, [7:0] VALID. -/
def msValidWord (s : State) : Word := 0#16 ++ s.msRej ++ s.msValid

/-- The interrupt output (R259): `IRQ_EN and (DONE or OVR or BERR)`; it is 0 while reset is asserted (R280). -/
def irq (s : State) : Bool := !s.inReset && s.irqEn && (s.done || s.ovr || s.berr)

/-- Bit `m` of an 8-bit flag register set or cleared (R38). -/
def setFlag (flags : BitVec 8) (m : BitVec 3) (b : Bool) : BitVec 8 :=
  if b then flags ||| (1#8 <<< m.toNat) else flags &&& ~~~(1#8 <<< m.toNat)

end Sys2Proof.Machine
end

