-- ==== Sys2Proof/Machine/Bus.lean ====
section
/-! DEFINITION. The host bus: the register map (10_state.md R23), the address map (20_memory.md R62), and what one
transaction does (R61, R68–R75). -/

namespace Sys2Proof.Machine

/-- The byte offset of a register (R23). -/
def regOffset : Reg → Nat
  | .id => 0x000
  | .ctrl => 0x004
  | .status => 0x008
  | .cmd => 0x00C
  | .dataLen => 0x010
  | .eccLen => 0x014
  | .gridH => 0x018
  | .gridW => 0x01C
  | .widthReq => 0x020
  | .maskCfg => 0x024
  | .padCfg => 0x028
  | .ndots => 0x02C
  | .minDots => 0x030
  | .bestMask => 0x034
  | .scoreLo => 0x038
  | .scoreHi => 0x03C
  | .scoreFlags => 0x040
  | .streamLen => 0x044
  | .rsStep => 0x048
  | .dotResult => 0x04C
  | .pkAccLo => 0x050
  | .pkAccHi => 0x054
  | .pkCnt => 0x058
  | .pkOutN => 0x05C
  | .pkOut k => 0x060 + 4 * k.val
  | .mscoreLo m => 0x080 + 8 * m.val
  | .mscoreHi m => 0x084 + 8 * m.val
  | .msValid => 0x0C0

/-- The numbers of the PK_OUT registers (R41). -/
def allPkOut : List (Fin 6) := [0, 1, 2, 3, 4, 5]

/-- The mask ids (R38). -/
def allMasks : List (Fin 8) := [0, 1, 2, 3, 4, 5, 6, 7]

/-- The registers that stand alone in the map (R23). -/
def plainRegs : List Reg :=
  [.id, .ctrl, .status, .cmd, .dataLen, .eccLen, .gridH, .gridW, .widthReq, .maskCfg, .padCfg, .ndots, .minDots,
   .bestMask, .scoreLo, .scoreHi, .scoreFlags, .streamLen, .rsStep, .dotResult, .pkAccLo, .pkAccHi, .pkCnt, .pkOutN,
   .msValid]

/-- Every register of the map (R23). -/
def allRegs : List Reg :=
  plainRegs.append ((allPkOut.map Reg.pkOut).append ((allMasks.map Reg.mscoreLo).append (allMasks.map Reg.mscoreHi)))

/-- The register at a byte offset, if one occupies it (R23, R48; log 7). -/
def regAt (offset : Nat) : Option Reg := allRegs.find? (fun r => regOffset r == offset)

/-- The base of a buffer's window (R62). -/
def windowBase : Buffer → Nat
  | .src => 0x040000
  | .work => 0x080000
  | .stream => 0x0C0000
  | .grid => 0x100000

/-- What a mapped address names (R62). -/
inductive Place where
  /-- A register of the register block. -/
  | reg (r : Reg)
  /-- An entry of a buffer window. -/
  | entry (b : Buffer) (i : Nat)
  deriving DecidableEq, Repr

/-- The entry of a buffer's window that an aligned byte address names, if it is below the window's depth (R62). -/
def entryAt (b : Buffer) (a : Nat) : Option Place :=
  if windowBase b ≤ a ∧ a < windowBase b + 4 * depth b then some (.entry b ((a - windowBase b) / 4)) else none

/-- What an aligned byte address names, if it is mapped (R62, R71). -/
def placeAt (a : Nat) : Option Place :=
  match regAt a with
  | some r => some (.reg r)
  | none =>
    ((entryAt .src a).orElse fun _ => entryAt .work a).orElse fun _ =>
      (entryAt .stream a).orElse fun _ => entryAt .grid a

/-- What an admitted transaction reaches (R61): the address is aligned, all four lanes are enabled, and it is mapped. A
transaction with none is refused (R68, R69, R71, R48). -/
def admitted (t : Txn) : Option Place :=
  if t.addr.toNat % 4 = 0 ∧ t.lanes = 0xF#4 then placeAt t.addr.toNat else none

/-- What a register reads as (R21–R45); CMD reads 0 (R27), reserved bits read 0 (R47), NDOTS and MIN_DOTS are derived from
the registers at once (R34, R35, R288), and a 64-bit value or ACC is two words, low word first (R67). -/
def readReg (s : State) : Reg → Word
  | .id => 0x44434C01
  | .ctrl => ctrlWord s
  | .status => statusWord s
  | .cmd => 0
  | .dataLen => s.dataLen.setWidth 32
  | .eccLen => s.eccLen.setWidth 32
  | .gridH => s.gridH.setWidth 32
  | .gridW => s.gridW.setWidth 32
  | .widthReq => s.widthReq.setWidth 32
  | .maskCfg => maskCfgWord s
  | .padCfg => padCfgWord s
  | .ndots => (BitVec.ofNat 15 (dotCapacity s)).setWidth 32
  | .minDots => (BitVec.ofNat 17 (minDots (dLen s) (eLen s))).setWidth 32
  | .bestMask => bestMaskWord s
  | .scoreLo => s.score.extractLsb' 0 32
  | .scoreHi => s.score.extractLsb' 32 32
  | .scoreFlags => scoreFlagsWord s
  | .streamLen => s.streamLen.setWidth 32
  | .rsStep => s.rsStep.setWidth 32
  | .dotResult => s.dotResult.setWidth 32
  | .pkAccLo => s.acc.extractLsb' 0 32
  | .pkAccHi => (s.acc.extractLsb' 32 9).setWidth 32
  | .pkCnt => s.cnt.setWidth 32
  | .pkOutN => s.pkOutN.setWidth 32
  | .pkOut k => s.pkOut[k].setWidth 32
  | .mscoreLo m => s.maskScore[m].extractLsb' 0 32
  | .mscoreHi m => s.maskScore[m].extractLsb' 32 32
  | .msValid => msValidWord s

/-- A host write to a register of an idle DCLE, or to CTRL or STATUS at any time (R24–R33, R44): reserved bits are ignored
and a read-only register is left as it is (R47); a write to CMD issues the word as the pending command (R27, R230). -/
def writeReg (s : State) (v : Word) : Reg → State
  | .ctrl => { s with irqEn := v.getLsbD 0 }
  | .status => clearStatus v s
  | .cmd => { s with pending := some v }
  | .dataLen => { s with dataLen := v.setWidth 12 }
  | .eccLen => { s with eccLen := v.setWidth 12 }
  | .gridH => { s with gridH := v.setWidth 8 }
  | .gridW => { s with gridW := v.setWidth 8 }
  | .widthReq => { s with widthReq := v.setWidth 8 }
  | .maskCfg => { s with pinMask := v.setWidth 3, pinEn := v.getLsbD 8 }
  | .padCfg => { s with binFinish := v.getLsbD 0 }
  | .id => s
  | .ndots => s
  | .minDots => s
  | .bestMask => s
  | .scoreLo => s
  | .scoreHi => s
  | .scoreFlags => s
  | .streamLen => s
  | .rsStep => s
  | .dotResult => s
  | .pkAccLo => s
  | .pkAccHi => s
  | .pkCnt => s
  | .pkOutN => s
  | .pkOut _ => s
  | .mscoreLo _ => s
  | .mscoreHi _ => s
  | .msValid => s

/-- What a mapped place reads as while the DCLE is idle. -/
def readPlace (s : State) : Place → Word
  | .reg r => readReg s r
  | .entry b i => entryWord s b i

/-- A write to a mapped place that takes effect. -/
def writePlace (s : State) (v : Word) : Place → State
  | .reg r => writeReg s v r
  | .entry b i => putEntry s b i v

/-- The places whose reads give their value while BUSY is 1 (R74). -/
def readsWhileBusy : Place → Bool
  | .reg .id => true
  | .reg .ctrl => true
  | .reg .status => true
  | _ => false

/-- The places whose writes take effect while BUSY is 1 (R75). -/
def writesWhileBusy : Place → Bool
  | .reg .ctrl => true
  | .reg .status => true
  | _ => false

/-- FREE VALUE: the unspecified value of the place's width that a read while BUSY returns (R74; log 5). -/
def busyValue (n : Nat) : Place → Word
  | .reg _ => Config.busyRead n
  | .entry b _ => ((Config.busyRead n).setWidth (entryWidth b)).setWidth 32

/-- A refused transaction (R257): the bus error response with the word 0, and BERR. -/
def refuse (s : State) : State := { s with berr := true, response := some ⟨true, 0⟩ }

/-- An admitted read (R70, R74). -/
def busRead (p : Place) (s : State) : State :=
  if busy s && !readsWhileBusy p then
    { s with response := some ⟨false, busyValue s.draws p⟩, draws := s.draws + 1 }
  else { s with response := some ⟨false, readPlace s p⟩ }

/-- An admitted write (R70, R75): while BUSY it is dropped and sets OVR (R258), unless it is to CTRL or STATUS. -/
def busWrite (p : Place) (v : Word) (s : State) : State :=
  if busy s && !writesWhileBusy p then { s with ovr := true, response := some ⟨false, 0⟩ }
  else { writePlace s v p with response := some ⟨false, 0⟩ }

/-- One host bus transaction (R61). While reset is asserted it changes nothing and its answer is free (R280; log 8). -/
def busTransaction (t : Txn) (s : State) : State :=
  if s.inReset then { s with response := Config.inResetAnswer s.draws, draws := s.draws + 1 }
  else
    match admitted t with
    | none => refuse s
    | some p =>
      match t.access with
      | .read => busRead p s
      | .write v => busWrite p v s

end Sys2Proof.Machine
end

