-- ==== Sys2Proof/Machine/Field.lean ====
section
/-! DEFINITION. Powers and conversions of GF(113). Its addition, subtraction, negation and multiplication are those of
`Fin 113`, which are the operations modulo 113 of R130. -/

namespace Sys2Proof.Machine

/-- `b ^ n mod 113` (R131). -/
def gfPow (b : GF) : Nat → GF
  | 0 => 1
  | n + 1 => gfPow b n * b

/-- A buffer entry read as a field element: its value modulo 113 (the checks admit 0..112 only, C1). -/
def toGF (c : Codeword) : GF := ⟨c.toNat % 113, Nat.mod_lt _ (by decide)⟩

/-- A field element as a 9-bit buffer entry (R64). -/
def ofGF (a : GF) : Codeword := BitVec.ofNat 9 a.val

end Sys2Proof.Machine
end

