-- ==== Sys2Proof/Machine/ReedSolomon.lean ====
section
/-! DEFINITION. The Reed–Solomon check-codeword generator over GF(113): RS_ENCODE (42_reed_solomon.md). -/

namespace Sys2Proof.Machine

/-- `root(ROOT_START + t) = PRIM^(ROOT_START + t)` (R131, R133). -/
def genRoot (p : Config.Params) (t : Nat) : GF := gfPow p.prim (p.rootStart.val + t)

/-- One round of the iterative convolution of R133, for all `j` from `NC` down to 1 at once:
`g[j] <- g[j] - r * g[j-1]`. -/
def convolve (r : GF) (g : List GF) : List GF := List.zipWith (fun a b => a - r * b) g (0 :: g)

/-- The coefficients `g[0..NC]` of the generator polynomial of degree `nc`, leading coefficient first (R133). -/
def genPoly (p : Config.Params) (nc : Nat) : List GF :=
  (List.range nc).foldl (fun g t => convolve (genRoot p t) g) (1 :: List.replicate nc 0)

/-- One step of the division of R135 on the remainder `e[0..NC-1]`: with `k = x + e[0]`, `e[j] <- e[j+1] - g[j+1] * k`,
where `e[NC]` is 0. -/
def divideStep (g : List GF) (e : List GF) (x : GF) : List GF :=
  let k := x + e.headD 0
  List.zipWith (fun a b => a - b * k) (e.tail ++ [0]) g.tail

/-- The check words of one block with `nc` of them (R135): the negated remainder. -/
def blockChecks (p : Config.Params) (nc : Nat) (data : List GF) : List GF :=
  (data.foldl (divideStep (genPoly p nc)) (List.replicate nc 0)).map (fun a => -a)

/-- `step = ceil(nw / 112)`, the number of interleaved blocks (R134); 0 when `nw` is 0. -/
def rsSteps (nw : Nat) : Nat := (nw + 111) / blkMax

/-- How many of the positions `b, b + step, b + 2*step, …` lie below `n`: `ND_b` for `n = nd`, `NW_b` for `n = nw`
(R134). -/
def blockShare (n step b : Nat) : Nat := (n + (step - 1) - b) / step

/-- Block `b`'s data words `WORK[p(b, 0)], WORK[p(b, 1)], …`, with `p(b, i) = b + i * step` (R134). -/
def blockData (s : State) (nd step b : Nat) : List GF :=
  (List.range (blockShare nd step b)).map (fun i => toGF (workAt s (b + i * step)))

/-- The check words of every block, in block order (R134, R135). -/
def allChecks (s : State) (nd nc : Nat) : List (List GF) :=
  let step := rsSteps (nd + nc)
  (List.range step).map fun b =>
    blockChecks s.params (blockShare (nd + nc) step b - blockShare nd step b) (blockData s nd step b)

/-- The check words woven into `WORK[nd..nd+nc-1]`: position `q` belongs to block `q mod step` and is its word number
`q div step`, so it takes that block's check word `q div step - ND_b` (R134, R135; log 15). -/
def wovenChecks (s : State) (nd nc : Nat) : List Codeword :=
  let step := rsSteps (nd + nc)
  let checks := allChecks s nd nc
  (List.range nc).map fun t =>
    let q := nd + t
    ofGF ((checks.getD (q % step) []).getD (q / step - blockShare nd step (q % step)) 0)

/-- RS_ENCODE's commit phase (R136): `WORK[nd..nd+nc-1]` and RS_STEP. R212 says that no command writes WORK above `d + e`;
for this command, which reads neither DATA_LEN nor ECC_LEN, the model follows R136 (DEDUCED, log 22). -/
def rsBody (nd nc : Nat) (s : State) : State :=
  { putWork s nd (wovenChecks s nd nc) with rsStep := BitVec.ofNat 6 (rsSteps (nd + nc)) }

/-- RS_ENCODE nd, nc (R136). -/
def execRsEncode (nd nc : BitVec 12) (s : State) : Host.Outcome State Fault Refusal :=
  runCommand
    (firstError [(decide (depth .work < nd.toNat + nc.toNat), .len), (anyAbove (workWords s nd.toNat), .rangeCw)])
    (rsBody nd.toNat nc.toNat s) s

end Sys2Proof.Machine
end

