-- ==== Sys2Proof/Machine/Folder.lean ====
section
/-! DEFINITION. The dot-stream expander and the checkerboard folder: DOTSTREAM, FOLD, FORCE_CORNERS
(44_sizer_folder.md, sections 4 and 5). -/

namespace Sys2Proof.Machine

/-- The grid's cell codes (R66): a data cell without a dot, -/
def cellUnset : CellCode := 0
/-- a data cell with a dot, -/
def cellSet : CellCode := 1
/-- a non-data cell. -/
def cellNonData : CellCode := 2

/-- The bits of a pattern from bit `n - 1` down to bit 0 (R201). -/
def bitsMsbFirst (n : Nat) (v : BitVec 9) : List (BitVec 1) :=
  (List.range n).map (fun b => BitVec.ofBool (v.getLsbD (n - 1 - b)))

/-- The `2 + 9*(d + e)` bits of the dot stream: the mask codeword's two bits, then the nine bits of each codeword's
pattern (R201). -/
def streamBits (s : State) : List (BitVec 1) :=
  bitsMsbFirst 2 (workAt s 0) ++
    (List.range (dLen s + eLen s)).flatMap (fun i => bitsMsbFirst 9 (romAt s.params (workAt s (1 + i)).toNat))

/-- DOTSTREAM's commit phase (R200): the bits of the stream, then set bits up to NDOTS (R202), and STREAM_LEN. -/
def dotStreamBody (s : State) : State :=
  let len := minDots (dLen s) (eLen s)
  { putStream s 0 (streamBits s ++ List.replicate (dotCapacity s - len) 1) with
    streamLen := BitVec.ofNat 15 len }

/-- Some codeword DOTSTREAM expands is out of range (R200): `WORK[0]` above 3 or one of `WORK[1..d+e]` above 112. -/
def badStreamWord (s : State) : Bool :=
  decide (3 < (workAt s 0).toNat) ||
    anyAbove ((List.range (dLen s + eLen s)).map (fun i => workAt s (1 + i)))

/-- DOTSTREAM (R200). -/
def execDotStream (s : State) : Host.Outcome State Fault Refusal :=
  runCommand
    (firstError [(badGeom s, .cfgGeom), (streamTooLong s, .len), (badStreamWord s, .rangeCw)])
    (dotStreamBody s) s

/-- The six corner cells as (row, col), in fill order (R205). -/
def corners (h w : Nat) : List (Nat × Nat) :=
  if h % 2 = 1 then
    [(0, w - 2), (h - 1, w - 2), (1, w - 1), (h - 2, w - 1), (0, 0), (h - 1, 0)]
  else
    [(h - 2, w - 1), (h - 2, 0), (h - 1, w - 2), (h - 1, 1), (0, w - 1), (0, 0)]

/-- The cells in scan order: by rows when H is odd (R206), by columns when H is even (R207). -/
def scanOrder (h w : Nat) : List (Nat × Nat) :=
  if h % 2 = 1 then (List.range h).flatMap (fun r => (List.range w).map (fun c => (r, c)))
  else (List.range w).flatMap (fun c => (List.range h).map (fun r => (r, c)))

/-- Where the bit met at scan position (r, c) lands: row `H-1-r` when H is odd (R206), row `r` when H is even (R207). -/
def foldTarget (h w : Nat) (rc : Nat × Nat) : Nat :=
  if h % 2 = 1 then (h - 1 - rc.1) * w + rc.2 else rc.1 * w + rc.2

/-- A data cell (R12). -/
def isData (rc : Nat × Nat) : Bool := (rc.1 + rc.2) % 2 == 0

/-- The GRID index that each stream bit goes to, bit 0 first: the scan's data cells that are no corner, then the corners
(R206, R207, R208; log 15). -/
def foldOrder (h w : Nat) : List Nat :=
  ((scanOrder h w).filter (fun rc => isData rc && !(corners h w).contains rc)).map (foldTarget h w) ++
    (corners h w).map (fun rc => rc.1 * w + rc.2)

/-- The code a folded grid holds at index `idx`, given the fold order: NONDATA at a non-data cell, and at a data cell the
stream bit that goes to it (R206–R208). -/
def foldedCell (s : State) (w : Nat) (order : List Nat) (idx : Nat) : CellCode :=
  if isData (idx / w, idx % w) then (streamAt s (order.idxOf idx)).setWidth 2 else cellNonData

/-- FOLD's commit phase (R209): every entry of `GRID[0..H*W-1]`. The transient code RESV is left in no cell (R211). -/
def foldBody (s : State) : State :=
  let order := foldOrder (gridRows s) (gridCols s)
  putGrid s 0 ((List.range (gridRows s * gridCols s)).map (foldedCell s (gridCols s) order))

/-- FOLD (R209). -/
def execFold (s : State) : Host.Outcome State Fault Refusal :=
  runCommand (firstError [(badGeom s, .cfgGeom)]) (foldBody s) s

/-- FORCE_CORNERS' commit phase (R210): the six corner cells become SET. -/
def forceCornersBody (s : State) : State :=
  (corners (gridRows s) (gridCols s)).foldl (fun t rc => putGrid t (rc.1 * gridCols s + rc.2) [cellSet]) s

/-- FORCE_CORNERS (R210). -/
def execForceCorners (s : State) : Host.Outcome State Fault Refusal :=
  runCommand (firstError [(badGeom s, .cfgGeom)]) (forceCornersBody s) s

end Sys2Proof.Machine
end

