-- ==== Sys2Proof/Machine/Scorer.lean ====
section
/-! DEFINITION. The grid scorer: SCORE (43_mask_score.md, section 2). Cells are (x, y), column first (R12). -/

namespace Sys2Proof.Machine

/-- `dot(x, y)` over a grid given by its cells: only code 1 inside the grid is a dot (R160, R161). -/
def dotAt (h w : Nat) (cell : Nat → CellCode) (x y : Int) : Bool :=
  decide (0 ≤ x) && decide (x < w) && decide (0 ≤ y) && decide (y < h) &&
    cell (y.toNat * w + x.toNat) == cellSet

/-- The positions of an edge of `n` cells that are sampled: those of one parity (R162). -/
def edgeSamples (n parity : Nat) : List Nat := (List.range n).filter (fun q => q % 2 == parity)

/-- The value of an edge with the dots at the ascending positions `ps`, or none when the edge is empty (R162). -/
def edgeValue (ps : List Nat) (multiplier : Nat) : Option Nat :=
  match ps with
  | [] => none
  | first :: _ => some ((ps.length + (ps.getLastD first - first)) * multiplier)

/-- The values of the top, bottom, left and right edge (R162). -/
def edgeValues (h w : Nat) (dot : Int → Int → Bool) : List (Option Nat) :=
  [edgeValue ((edgeSamples w 0).filter (fun q => dot q 0)) h,
   edgeValue ((edgeSamples w (w % 2)).filter (fun q => dot q (h - 1))) h,
   edgeValue ((edgeSamples h 0).filter (fun q => dot 0 q)) w,
   edgeValue ((edgeSamples h (h % 2)).filter (fun q => dot (w - 1) q)) w]

/-- The smallest of the edge values, or none when an edge is empty (R163, R164). -/
def worstEdge (values : List (Option Nat)) : Option Nat :=
  match values with
  | [some t, some b, some l, some r] => some (min (min t b) (min l r))
  | _ => none

/-- Row `y` is clear: none of its data cells is a dot (R165). -/
def rowClear (w : Nat) (dot : Int → Int → Bool) (y : Nat) : Bool :=
  (List.range w).all (fun x => (x + y) % 2 == 1 || !dot x y)

/-- Column `x` is clear: none of its data cells is a dot (R166). -/
def colClear (h : Nat) (dot : Int → Int → Bool) (x : Nat) : Bool :=
  (List.range h).all (fun y => (x + y) % 2 == 1 || !dot x y)

/-- The running penalty of R165: `loc` is the term of the run of clear lines in progress, `pen` the sum of the finished
runs. -/
structure PenaltyScan where
  /-- The term of the run in progress, 0 outside a run. -/
  loc : Nat
  /-- The sum so far. -/
  pen : Nat
  deriving DecidableEq, Repr

/-- One line of the scan of R165. -/
def penaltyLine (base sat : Nat) (t : PenaltyScan) (clear : Bool) : PenaltyScan :=
  if clear then { t with loc := if t.loc = 0 then base else min (t.loc * base) sat }
  else { loc := 0, pen := min (t.pen + t.loc) sat }

/-- `pen_r` or `pen_c`: the penalty of the interior lines `1 .. n-2`, of which `clear` says whether each is clear
(R165, R166). -/
def linePenalty (base sat n : Nat) (clear : Nat → Bool) : Nat :=
  let t := ((List.range (n - 2)).map (fun i => clear (i + 1))).foldl (penaltyLine base sat) ⟨0, 0⟩
  min (t.pen + t.loc) sat

/-- `B_row` and `B_col` (R165, R166). -/
def lineBases (p : Config.Params) (h w : Nat) : Nat × Nat :=
  match p.lineBase with
  | .ortho => (w, h)
  | .same => (h, w)

/-- The empty-line penalty (R166). -/
def penalty (p : Config.Params) (h w : Nat) (dot : Int → Int → Bool) : Nat :=
  min (linePenalty (lineBases p h w).1 p.penSat h (rowClear w dot) +
    linePenalty (lineBases p h w).2 p.penSat w (colClear h dot)) p.penSat

/-- A scanned position (x, y) is isolated (R167): its four diagonal neighbours are unset, and so is it, or so are its four
neighbours at distance two. -/
def isolated (dot : Int → Int → Bool) (x y : Int) : Bool :=
  !dot (x - 1) (y - 1) && !dot (x + 1) (y - 1) && !dot (x - 1) (y + 1) && !dot (x + 1) (y + 1) &&
    (!dot x y || (!dot (x - 2) y && !dot (x + 2) y && !dot x (y - 2) && !dot x (y + 2)))

/-- The positions (x, y) the isolation count scans (R167): the data cells, all or the interior ones. -/
def isoPositions (p : Config.Params) (h w : Nat) : List (Nat × Nat) :=
  ((List.range h).flatMap (fun y => (List.range w).map (fun x => (x, y)))).filter fun xy =>
    (xy.1 + xy.2) % 2 == 0 &&
      (match p.isoScan with
       | .all => true
       | .interior => decide (1 ≤ xy.1) && decide (xy.1 + 2 ≤ w) && decide (1 ≤ xy.2) && decide (xy.2 + 2 ≤ h))

/-- `iso`, the number of isolated scanned positions (R167). -/
def isoCount (p : Config.Params) (h w : Nat) (dot : Int → Int → Bool) : Nat :=
  (isoPositions p h w).countP (fun xy => isolated dot xy.1 xy.2)

/-- The score of a grid and its REJECT flag (R163, R168). -/
def gridScore (p : Config.Params) (h w : Nat) (dot : Int → Int → Bool) : Int × Bool :=
  match worstEdge (edgeValues h w dot) with
  | none => (p.sentinel.toInt, true)
  | some worst =>
    ((worst : Int) - (isoCount p h w dot : Int) * isoCount p h w dot - penalty p h w dot, false)

/-- The score of the grid GRID holds (R169). -/
def scoreOf (s : State) : Int × Bool :=
  gridScore s.params (gridRows s) (gridCols s) (dotAt (gridRows s) (gridCols s) (gridAt s))

/-- SCORE's commit phase (R168, R169): SCORE as a 64-bit two's-complement value, REJECT, and SC_VALID (log 16). -/
def scoreBody (s : State) : State :=
  let r := scoreOf s
  { s with score := BitVec.ofInt 64 r.1, reject := r.2, scValid := true }

/-- SCORE (R169). -/
def execScore (s : State) : Host.Outcome State Fault Refusal :=
  runCommand (firstError [(badGeom s, .cfgGeom)]) (scoreBody s) s

end Sys2Proof.Machine
end

