-- ==== Sys2Proof/Machine/MaskSelect.lean ====
section
/-! DEFINITION. The mask applicator, the candidate and the mask selection: MASK_APPLY, CANDIDATE, SELECT
(43_mask_score.md, sections 1 and 3). -/

namespace Sys2Proof.Machine

/-- Masked data codeword `j` under plain mask `m` (R151): `(SRC[j] + MASK_STEP[m] * j) mod 113`. -/
def maskedWord (s : State) (m j : Nat) : Codeword :=
  BitVec.ofNat 9 (((srcAt s j).toNat + maskStep m * j) % 113)

/-- MASK_APPLY's commit phase (R150): `WORK[0] <- m`, then the masked data codewords. -/
def maskBody (m : Nat) (s : State) : State :=
  putWork s 0 (BitVec.ofNat 9 m :: (List.range (dLen s)).map (maskedWord s m))

/-- Some data codeword in SRC is above 112 (R150, R153). -/
def badSource (s : State) : Bool := anyAbove (srcWords s (dLen s))

/-- MASK_APPLY m (R150). -/
def execMaskApply (m : BitVec 2) (s : State) : Host.Outcome State Fault Refusal :=
  runCommand (firstError [(badSource s, .rangeCw)]) (maskBody m.toNat s) s

/-- The score of mask `m` into MASK_SCORE[m], VALID[m] and REJ[m] (R38, R153). -/
def recordScore (m : BitVec 3) (s : State) : State :=
  { s with
    maskScore := s.maskScore.set m.toNat s.score m.isLt
    msValid := setFlag s.msValid m true
    msRej := setFlag s.msRej m s.reject }

/-- The forced corners of masks 4..7 (R152, R153). -/
def forceIfHigh (m : BitVec 3) (s : State) : State := if 4 ≤ m.toNat then forceCornersBody s else s

/-- CANDIDATE's commit phase (R153): mask `m mod 4`, check codewords, dot stream, fold, forced corners for `m >= 4`,
score, and the score's record. -/
def candidateBody (m : BitVec 3) (s : State) : State :=
  recordScore m (scoreBody (forceIfHigh m (foldBody (dotStreamBody
    (rsBody (dLen s + 1) (eLen s) (maskBody (m.toNat % 4) s))))))

/-- CANDIDATE's check phase (R153). -/
def candidateCheck (s : State) : Option ErrCode :=
  firstError
    [(badGeom s, .cfgGeom),
     (streamTooLong s || decide (depth .work < dLen s + 1 + eLen s), .len),
     (badSource s, .rangeCw)]

/-- CANDIDATE m (R153). -/
def execCandidate (m : BitVec 3) (s : State) : Host.Outcome State Fault Refusal :=
  runCommand (candidateCheck s) (candidateBody m s) s

/-- Whether a later candidate's score replaces the best so far (R176). -/
def better (p : Config.Params) (score best : BitVec 64) : Bool :=
  match p.tieRule with
  | .later => decide (best.toInt ≤ score.toInt)
  | .earlier => decide (best.toInt < score.toInt)

/-- The search of SELECT so far: the state, the best score and its mask (R175). -/
structure Search where
  /-- The state after the candidates evaluated so far. -/
  state : State
  /-- The best MASK_SCORE so far. -/
  best : BitVec 64
  /-- Its mask. -/
  mask : BitVec 3
  deriving DecidableEq, Repr

/-- One more candidate of the search (R175, R176). -/
def tryMask (r : Search) (m : BitVec 3) : Search :=
  let t := candidateBody m r.state
  let sc := t.maskScore[m.toNat]
  if better t.params sc r.best then ⟨t, sc, m⟩ else ⟨t, r.best, r.mask⟩

/-- The four plain masks; mask 0 is the first best (R175). -/
def searchPlain (s : State) : Search :=
  let t := candidateBody 0 s
  [1, 2, 3].foldl tryMask ⟨t, t.maskScore[0], 0⟩

/-- The threshold of R177: masks 4..7 are tried when the plain best is at most `(H * W) div 2`. -/
def searchAll (s : State) : Search :=
  let r := searchPlain s
  if r.best.toInt ≤ (dotCapacity s : Int) then [4, 5, 6, 7].foldl tryMask r else r

/-- The mask chosen, and the state with the winner's candidate left in place: a pinned mask is the only candidate
(R178), otherwise the winner is run again (R175, R179). -/
def chosen (s : State) : BitVec 3 × State :=
  if s.pinEn then (s.pinMask, candidateBody s.pinMask s)
  else
    let r := searchAll s
    (r.mask, candidateBody r.mask r.state)

/-- SELECT's commit phase (R175): MS_VALID is cleared first, BEST_MASK written last. -/
def selectBody (s : State) : State :=
  let c := chosen { s with msValid := 0, msRej := 0 }
  { c.2 with bestMask := c.1, bmValid := true }

/-- SELECT (R175): its check phase is CANDIDATE's. -/
def execSelect (s : State) : Host.Outcome State Fault Refusal :=
  runCommand (candidateCheck s) (selectBody s) s

end Sys2Proof.Machine
end

