-- ==== Sys2Proof/Machine/Sizer.lean ====
section
/-! DEFINITION. The check length, the grid sizer and the padder: ECCLEN, SIZE, PAD (44_sizer_folder.md, sections 1
to 3). -/

namespace Sys2Proof.Machine

/-- The search of `isqrt`: the largest `r'` in `r .. r + fuel` whose predecessors' successors all have a square at most
`n`. -/
def isqrtFrom (n : Nat) : Nat → Nat → Nat
  | 0, r => r
  | fuel + 1, r => if (r + 1) * (r + 1) ≤ n then isqrtFrom n fuel (r + 1) else r

/-- `isqrt(n)`, the largest `r` with `r * r <= n` (R10). -/
def isqrt (n : Nat) : Nat := isqrtFrom n n 0

/-- ECCLEN's commit phase (R194). -/
def eccLenBody (s : State) : State :=
  { s with eccLen := BitVec.ofNat 12 (eccAt s.params.eccFn (dLen s)) }

/-- ECCLEN (R194). -/
def execEccLen (s : State) : Host.Outcome State Fault Refusal :=
  runCommand none (eccLenBody s) s

/-- `area = 2 * min_dots` (R191). -/
def minArea (d e : Nat) : Nat := 2 * minDots d e

/-- A dimension changed by `k`; one that would fall below 0 is 0, which has no area (log 13). -/
def adjust (n : Nat) (k : Int) : Nat := (n + k).toNat

/-- The size a candidate of SIZE_TIE proposes for `(h, w)` (R8, R191). -/
def tieSize (h w : Nat) (c : Int × Int) : Nat × Nat := (adjust h c.1, adjust w c.2)

/-- The size of the first candidate of SIZE_TIE that gives enough area; the last one needs no test (R191; log 13). -/
def tieBreak (area h w : Nat) : List (Int × Int) → Nat × Nat
  | [] => (h, w)
  | [c] => tieSize h w c
  | c :: rest =>
    if area ≤ (tieSize h w c).1 * (tieSize h w c).2 then tieSize h w c else tieBreak area h w rest

/-- Automatic sizing (R191): the height and the width. -/
def autoSize (p : Config.Params) (d e : Nat) : Nat × Nat :=
  let area := minArea d e
  let h := isqrt (2 * area / 3)
  let w := isqrt (3 * area / 2)
  if (h + w) % 2 = 1 then
    if h * w < area then (h + 1, w + 1) else (h, w)
  else tieBreak area h w p.sizeTie

/-- Sizing with a pinned width (R192): the height and the width. -/
def pinnedSize (d e w : Nat) : Nat × Nat :=
  let h := max ((minArea d e + w - 1) / w) minDim
  if (h + w) % 2 = 0 then (h + 1, w) else (h, w)

/-- The size SIZE computes for lengths `d`, `e` and the requested width `wr` (R190). -/
def sizeFor (p : Config.Params) (d e wr : Nat) : Nat × Nat :=
  if wr = 0 then autoSize p d e else pinnedSize d e wr

/-- SIZE's conditions in check order (R190, R193). -/
def sizeErrors (p : Config.Params) (d e wr : Nat) : List (Bool × ErrCode) :=
  let hw := sizeFor p d e wr
  [(wr != 0 && (decide (wr < minDim) || decide (maxDim < wr)), .cfgWidth),
   (decide (maxDim < hw.1) && decide (maxDim < hw.2), .capBothLarge),
   (decide (maxDim < hw.1), .capHLarge),
   (decide (maxDim < hw.2), .capWLarge),
   (decide (hw.1 < minDim) || decide (hw.2 < minDim), .capSmall)]

/-- GRID_H and GRID_W take a computed size (R190). -/
def setSize (hw : Nat × Nat) (s : State) : State :=
  { s with gridH := BitVec.ofNat 8 hw.1, gridW := BitVec.ofNat 8 hw.2 }

/-- SIZE (R190). -/
def execSize (s : State) : Host.Outcome State Fault Refusal :=
  runCommand (firstError (sizeErrors s.params (dLen s) (eLen s) s.widthReq.toNat))
    (setSize (sizeFor s.params (dLen s) (eLen s) s.widthReq.toNat) s) s

/-- `inc`: the check words that one more data word costs (R196; log 14). -/
def padIncrement (f : Config.EccFn) (d : Nat) : Nat := eccAt f (d + 1) - eccAt f d

/-- `cost`: the dot slots of one pad codeword and of its check words (R196). -/
def padCost (f : Config.EccFn) (d : Nat) : Nat := 9 * (1 + padIncrement f d)

/-- PAD's loop (R196): the lengths after the pads that fit `free` dot slots. A pad costs at least 9 slots, so `fuel` above
`free` never runs out. -/
def padLoop (f : Config.EccFn) : Nat → Nat → Nat → Nat → Nat × Nat
  | 0, _, d, e => (d, e)
  | fuel + 1, free, d, e =>
    if free < padCost f d then (d, e)
    else padLoop f fuel (free - padCost f d) (d + 1) (e + padIncrement f d)

/-- The `n` pad codewords (R196): the first one is PAD_CW_BIN when BIN_FINISH is 1. -/
def padWords (p : Config.Params) (binFinish : Bool) (n : Nat) : List Codeword :=
  (List.range n).map fun k =>
    BitVec.ofNat 9 (if k = 0 && binFinish then p.padCwBin.val else p.padCw.val)

/-- `free`: the dot slots the stream leaves in the grid (R196). -/
def freeSlots (s : State) : Nat := dotCapacity s - minDots (dLen s) (eLen s)

/-- The lengths after PAD (R196). -/
def paddedLengths (s : State) : Nat × Nat :=
  padLoop s.params.eccFn (freeSlots s + 1) (freeSlots s) (dLen s) (eLen s)

/-- PAD's commit phase (R196): the pad codewords at `SRC[d..]`, DATA_LEN and ECC_LEN. -/
def padBody (s : State) : State :=
  let de := paddedLengths s
  { putSrc s (dLen s) (padWords s.params s.binFinish (de.1 - dLen s)) with
    dataLen := BitVec.ofNat 12 de.1
    eccLen := BitVec.ofNat 12 de.2 }

/-- PAD (R196). -/
def execPad (s : State) : Host.Outcome State Fault Refusal :=
  runCommand (firstError [(badGeom s, .cfgGeom), (streamTooLong s, .len)]) (padBody s) s

end Sys2Proof.Machine
end

