-- ==== Sys2Proof/Machine/Control.lean ====
section
/-! DEFINITION. The control commands: NOP, SRESET, RUN (45_control.md). -/

namespace Sys2Proof.Machine

/-- NOP (R231): completion and nothing else. -/
def execNop (s : State) : Host.Outcome State Fault Refusal :=
  runCommand none s s

/-- SRESET (R232): every register at its reset value, the buffers unchanged; then its own completion sets DONE. -/
def execSreset (s : State) : Host.Outcome State Fault Refusal :=
  runCommand none (resetRegisters s) s

/-- The check length RUN uses, `ECC_FN(DATA_LEN)` (R238). -/
def runEcc (s : State) : Nat := eccAt s.params.eccFn (dLen s)

/-- RUN's check phase (R233): SIZE's conditions with RUN's check length, then the range of the data codewords. -/
def runCheck (s : State) : Option ErrCode :=
  firstError (sizeErrors s.params (dLen s) (runEcc s) s.widthReq.toNat ++ [(badSource s, .rangeCw)])

/-- RUN's commit phase (R233): the bodies of ECCLEN, SIZE, PAD and SELECT. -/
def runBody (s : State) : State :=
  selectBody (padBody (setSize (sizeFor s.params (dLen s) (runEcc s) s.widthReq.toNat) (eccLenBody s)))

/-- RUN (R233). -/
def execRun (s : State) : Host.Outcome State Fault Refusal :=
  runCommand (runCheck s) (runBody s) s

end Sys2Proof.Machine
end

