-- ==== Sys2Proof/Machine/DotRom.lean ====
section
/-! DEFINITION. The dot-pattern ROM: DOT_LOOKUP (40_dot_rom.md). -/

namespace Sys2Proof.Machine

/-- DOT_LOOKUP idx (R103): the pattern of a codeword into DOT_RESULT. -/
def execDotLookup (idx : BitVec 8) (s : State) : Host.Outcome State Fault Refusal :=
  runCommand (firstError [(decide (cwMax < idx.toNat), .rangeIdx)])
    { s with dotResult := romAt s.params idx.toNat } s

end Sys2Proof.Machine
end

