-- ==== Sys2Proof/Machine/Packer.lean ====
section
/-! DEFINITION. The binary radix packer: PK_PUSH and PK_FLUSH (41_packer.md). -/

namespace Sys2Proof.Machine

/-- `n` base-103 digits of `a` by repeated division, least significant first (R112). -/
def radixDigits : Nat → Nat → List Nat
  | 0, _ => []
  | n + 1, a => a % pkOutRadix :: radixDigits n (a / pkOutRadix)

/-- PK_OUT with its first entries replaced by the digits; the others keep their values (R41). -/
def storeDigits (old : Vector (BitVec 7) 6) (digits : List Nat) : Vector (BitVec 7) 6 :=
  Vector.ofFn fun k =>
    match digits[k.val]? with
    | some a => BitVec.ofNat 7 a
    | none => old[k]

/-- EMIT (R112): the accumulator as CNT + 1 codewords in base 103, most significant first, into PK_OUT; ACC and CNT
become 0. -/
def emit (s : State) : State :=
  { s with
    pkOut := storeDigits s.pkOut (radixDigits (s.cnt.toNat + 1) s.acc.toNat).reverse
    pkOutN := BitVec.ofNat 3 (s.cnt.toNat + 1)
    acc := 0
    cnt := 0 }

/-- ACC <- ACC * 259 + v; CNT <- CNT + 1; PK_OUTN <- 0 (R111). The 41 bits of ACC hold every reachable value (R39; log
12). -/
def accumulate (v : BitVec 9) (s : State) : State :=
  { s with
    acc := BitVec.ofNat 41 (s.acc.toNat * pkInRadix + v.toNat)
    cnt := s.cnt + 1
    pkOutN := 0 }

/-- PK_PUSH's commit phase (R111): the fifth value emits. -/
def pushBody (v : BitVec 9) (s : State) : State :=
  let t := accumulate v s
  if t.cnt.toNat = pkGroup then emit t else t

/-- PK_FLUSH's commit phase (R113): nothing is emitted when nothing is pending. -/
def flushBody (s : State) : State := if s.cnt = 0 then { s with pkOutN := 0 } else emit s

/-- PK_PUSH v (R111). -/
def execPkPush (v : BitVec 9) (s : State) : Host.Outcome State Fault Refusal :=
  runCommand (firstError [(decide (258 < v.toNat), .rangePk)]) (pushBody v s) s

/-- PK_FLUSH (R113). -/
def execPkFlush (s : State) : Host.Outcome State Fault Refusal :=
  runCommand none (flushBody s) s

end Sys2Proof.Machine
end

