-- ==== Sys2Proof/Machine/Dispatch.lean ====
section
/-! DEFINITION. The meaning of every command, one arm per constructor of Instr. -/

namespace Sys2Proof.Machine

def exec (i : Instr) (s : State) : Host.Outcome State Fault Refusal :=
  match i with
  | .nop => Sys2Proof.Machine.execNop s
  | .sreset => Sys2Proof.Machine.execSreset s
  | .pkPush v => Sys2Proof.Machine.execPkPush v s
  | .pkFlush => Sys2Proof.Machine.execPkFlush s
  | .dotLookup idx => Sys2Proof.Machine.execDotLookup idx s
  | .rsEncode nd nc => Sys2Proof.Machine.execRsEncode nd nc s
  | .maskApply m => Sys2Proof.Machine.execMaskApply m s
  | .candidate m => Sys2Proof.Machine.execCandidate m s
  | .score => Sys2Proof.Machine.execScore s
  | .select => Sys2Proof.Machine.execSelect s
  | .eccLen => Sys2Proof.Machine.execEccLen s
  | .size => Sys2Proof.Machine.execSize s
  | .pad => Sys2Proof.Machine.execPad s
  | .dotStream => Sys2Proof.Machine.execDotStream s
  | .fold => Sys2Proof.Machine.execFold s
  | .forceCorners => Sys2Proof.Machine.execForceCorners s
  | .run => Sys2Proof.Machine.execRun s

end Sys2Proof.Machine
end

