-- ==== Sys2Proof/Machine/Engine.lean ====
section
/-! DEFINITION. The engine's move and the host's polling: what one turn does (45_control.md R230, R237; R89). -/

namespace Sys2Proof.Machine

/-- The engine executes the pending command as one indivisible step (R230): a word that does not decode completes with
ILLEGAL_CMD (R84, R85). With no command pending, or while reset is asserted (R280), nothing happens. -/
def engineTurn (s : State) : Host.Outcome State Fault Refusal :=
  if s.inReset then .next s
  else
    match s.pending with
    | none => .next s
    | some w =>
      match decode w with
      | .ok i => exec i s
      | .error _ => .next (raiseError .illegalCmd s)

/-- The read of STATUS that WAIT makes (R89). -/
def statusRead : Txn := ⟨0x008, 0xF, .read⟩

/-- WAIT (R89): while BUSY is 1 the polls change nothing, so the engine moves and the wait goes on; the poll that reads
BUSY as 0 ends it (log 11). DESIGN CHOICE (log 21): a poll made while reset is asserted ends the wait as well, whatever its
free answer is, no answer and BUSY 1 among them. `rest` are the turns after the wait. -/
def waitTurn (rest : List Turn) (s : State) : Host.Outcome State Fault Refusal :=
  if busy s then engineTurn s else .next (busTransaction statusRead { s with turns := rest })

end Sys2Proof.Machine
end

