-- ==== Sys2Proof/Machine/Step.lean ====
section
/-! DEFINITION. One step of the DCLE: the next turn of the schedule (log 1). -/

namespace Sys2Proof.Machine

/-- One step takes the next turn. When no turn is left the host is silent, and the engine completes the pending command
if there is one (R237, R290; log 20); otherwise the DCLE waits for the host (R284). -/
def step (s : State) : Host.Outcome State Fault Refusal :=
  match s.turns with
  | [] => engineTurn s
  | .engine :: rest => engineTurn { s with turns := rest }
  | .host t :: rest => .next (busTransaction t { s with turns := rest })
  | .together t :: rest => engineTurn (busTransaction t { s with turns := rest })
  | .wait :: rest => waitTurn rest s
  | .resetAssert :: rest => .next (assertReset { s with turns := rest })
  | .resetRelease :: rest => .next (releaseReset { s with turns := rest })

/-- The state in which the word of `nbits` bits is the pending command and the engine moves next. A command is one
32-bit word (R80), issued by the host's CMD write (R27), which this stands for (log 2). -/
def State.withFetchWord (s : State) (nbits w : Nat) : State :=
  { s with
    pending := some (BitVec.ofNat 32 (w % 2 ^ nbits))
    inReset := false
    turns := .engine :: s.turns }

end Sys2Proof.Machine
end

