-- ==== Sys2Proof/WellFormed.lean ====
section
/-! DEFINITION. What is well formed: a command word (R84, R85, R90), the named parameters of an instance (R8), and a host
statement (R88, R89). A term of `Instr` has no check of its own: each operand has exactly the width of its field (R81),
so every term is encodable. -/

namespace Sys2Proof

/-- A row of the opcode table (R83): mnemonic, match and mask. -/
structure OpRow where
  /-- The mnemonic of R83. -/
  mnemonic : String
  /-- The value of the fixed bits. -/
  pattern : Word
  /-- The fixed bits. -/
  mask : Word
  deriving DecidableEq, Repr

/-- The row of a command in the opcode table (R81, R83): a bit of the mask is 1 for the opcode and for every Z bit. -/
def rowOf : Instr → OpRow
  | .nop => ⟨"NOP", 0x00000000#32, 0xFFFFFFFF#32⟩
  | .sreset => ⟨"SRESET", 0x01000000#32, 0xFFFFFFFF#32⟩
  | .pkPush _ => ⟨"PK_PUSH", 0x10000000#32, 0xFFFFFE00#32⟩
  | .pkFlush => ⟨"PK_FLUSH", 0x11000000#32, 0xFFFFFFFF#32⟩
  | .dotLookup _ => ⟨"DOT_LOOKUP", 0x20000000#32, 0xFFFFFF00#32⟩
  | .rsEncode _ _ => ⟨"RS_ENCODE", 0x30000000#32, 0xFF000000#32⟩
  | .maskApply _ => ⟨"MASK_APPLY", 0x40000000#32, 0xFFFFFFFC#32⟩
  | .candidate _ => ⟨"CANDIDATE", 0x41000000#32, 0xFFFFFFF8#32⟩
  | .score => ⟨"SCORE", 0x42000000#32, 0xFFFFFFFF#32⟩
  | .select => ⟨"SELECT", 0x43000000#32, 0xFFFFFFFF#32⟩
  | .eccLen => ⟨"ECCLEN", 0x50000000#32, 0xFFFFFFFF#32⟩
  | .size => ⟨"SIZE", 0x51000000#32, 0xFFFFFFFF#32⟩
  | .pad => ⟨"PAD", 0x52000000#32, 0xFFFFFFFF#32⟩
  | .dotStream => ⟨"DOTSTREAM", 0x53000000#32, 0xFFFFFFFF#32⟩
  | .fold => ⟨"FOLD", 0x54000000#32, 0xFFFFFFFF#32⟩
  | .forceCorners => ⟨"FORCE_CORNERS", 0x55000000#32, 0xFFFFFFFF#32⟩
  | .run => ⟨"RUN", 0x60000000#32, 0xFFFFFFFF#32⟩

/-- The seventeen rows of the opcode table (R83), one for each command. -/
def opcodeTable : List OpRow :=
  [.nop, .sreset, .pkPush 0, .pkFlush, .dotLookup 0, .rsEncode 0 0, .maskApply 0, .candidate 0, .score, .select,
   .eccLen, .size, .pad, .dotStream, .fold, .forceCorners, .run].map rowOf

/-- Whether a word has the fixed bits of a row. -/
def OpRow.hits (r : OpRow) (w : Word) : Bool := (w &&& r.mask) == r.pattern

/-- A command word is legal when some row of the table matches it (R90); every other word is ILLEGAL_CMD (R84, R85). -/
def wordWf (w : Word) : Bool := opcodeTable.any (·.hits w)

/-- PRIM has multiplicative order 112 = 2^4 * 7 (R132): it is not 0, and neither maximal proper divisor of 112, 16 and
56, is a period. -/
def primWf (g : GF) : Bool := g != 0 && Machine.gfPow g 16 != 1 && Machine.gfPow g 56 != 1

/-- ECC_FN is non-decreasing and maps 0..4095 into 0..4095 (R8, R194). -/
def eccFnWf : Config.EccFn → Bool
  | .affine base divisor => decide (0 < divisor) && decide (base + 4095 / divisor ≤ 4095)
  | .table values =>
    decide (values.length = 4096) && values.all (fun v => decide (v ≤ 4095)) && decide (values.Pairwise (· ≤ ·))

/-- SIZE_TIE (R8, R191): there is a candidate, every candidate makes an even `h + w` odd, and the last one, which is taken
without a test, enlarges both dimensions, so that its area suffices (log 13). The others may lower a dimension. -/
def sizeTieWf (l : List (Int × Int)) : Bool :=
  l.all (fun c => decide ((c.1 + c.2) % 2 = 1)) &&
    (match l.getLast? with
     | some c => decide (1 ≤ c.1) && decide (1 ≤ c.2)
     | none => false)

/-- The constraints R8 puts on the named parameters that their types do not carry. -/
def paramsWf (p : Config.Params) : Bool :=
  primWf p.prim && eccFnWf p.eccFn && decide (0 < p.penSat) && sizeTieWf p.sizeTie

/-- The operands of a host statement's target lie in the bus space (R60, R62). -/
def Target.wf : Target → Bool
  | .reg _ => true
  | .entry b i => decide (i < Machine.depth b)
  | .addr a => decide (a < 2 ^ 21)

/-- The operands of a host statement fit what it writes (R88, R89). A statement that is not well formed still stands for
transactions, with its numbers cut (log 23). -/
def Stmt.wf : Stmt → Bool
  | .cmd _ => true
  | .wr t v => t.wf && decide (v < 2 ^ 32)
  | .rd t => t.wf
  | .wait => true
  | .exec _ => true
  | .ldsrc cs => decide (cs.length < 2 ^ 12) && cs.all (fun c => decide (c < 2 ^ 32))
  | .clrst => true
  | .pin m => decide (m < 8)
  | .unpin => true
  | .autow => true
  | .geom h w => decide (h < 2 ^ 32) && decide (w < 2 ^ 32)

end Sys2Proof
end

