-- ==== Sys2Proof/Safety.lean ====
section
/-! DEFINITION. The terms in which safety is stated: the invariant of the machine, what an error may change, and what a
host can observe. -/

namespace Sys2Proof.Machine

/-- The packer's invariant (R39, R40, R116): at most four values are pending and the accumulator fits them. -/
def packerInv (s : State) : Prop := s.cnt.toNat ≤ 4 ∧ s.acc.toNat < 259 ^ s.cnt.toNat

/-- The emitted-count register holds 0 or a count that an emission writes (R41). -/
def pkOutNInv (s : State) : Prop := s.pkOutN.toNat = 0 ∨ (2 ≤ s.pkOutN.toNat ∧ s.pkOutN.toNat ≤ 6)

/-- The invariant of the machine: the parameters meet R8, the buffers are in canonical form, the packer's invariant holds, PK_OUT holds base-103
digits, ERRCODE is 0 exactly when ERR is 0 (R25), RS_STEP is at most 37 (R45), STREAM_LEN is at most 20000 (R43), and no
command is pending while reset is asserted (R280). -/
structure Inv (s : State) : Prop where
  /-- The instance's parameters meet R8; no step changes them. -/
  params : paramsWf s.params = true
  /-- The buffers are in canonical form. -/
  memory : Memory.wf s
  /-- CNT and ACC (R116). -/
  packer : packerInv s
  /-- PK_OUTN (R41). -/
  outCount : pkOutNInv s
  /-- PK_OUT0..5 are 0..102 (R112). -/
  digits : ∀ k : Fin 6, s.pkOut[k].toNat ≤ 102
  /-- ERRCODE is 0x00 when and only when ERR is 0 (R25). -/
  errors : s.err = false ↔ s.errCode = .none
  /-- RS_STEP (R45). -/
  steps : s.rsStep.toNat ≤ 37
  /-- STREAM_LEN (R43). -/
  streamLen : s.streamLen.toNat ≤ 20000
  /-- Reset abandons the pending command (R280). -/
  idleInReset : s.inReset = true → s.pending = none

/-- The state in which a command ended with the error `c` from `s` (R256), as the one thing an error may do. -/
def EndsInError (s t : State) (c : ErrCode) : Prop :=
  c ≠ .none ∧ t = { s with err := true, errCode := c, done := true, pending := none }

/-- Commands executed one after another, each from the state the one before left. -/
def execAll : List Instr → State → Host.Outcome State Fault Refusal
  | [], s => .next s
  | i :: rest, s =>
    match exec i s with
    | .next t => execAll rest t
    | .fault r => .fault r
    | .refused r => .refused r

/-- The number a list of digits stands for, most significant first. -/
def valueBase (base : Nat) (digits : List Nat) : Nat := digits.foldl (fun a c => a * base + c) 0

/-- The first `n` codewords of PK_OUT. -/
def packedDigits (s : State) (n : Nat) : List Nat := (s.pkOut.toList.take n).map BitVec.toNat

/-- The commands that pack values from an empty packer (R111, R113): the fifth push emits by itself. -/
def packCommands (vs : List (BitVec 9)) : List Instr :=
  (vs.map Instr.pkPush).append (if vs.length < 5 then [Instr.pkFlush] else [])

/-- The value at `r` of the polynomial with the given coefficients, highest order first, in GF(113). -/
def hornerAt (r : GF) (cs : List GF) : GF := cs.foldl (fun a c => a * r + c) 0

/-- The data codewords SRC[0..d-1] are field elements (C1). -/
def SourceInRange (s : State) : Prop := ∀ j < dLen s, (srcAt s j).toNat ≤ 112

/-- The check phase of CANDIDATE and SELECT passes (R153): a legal geometry, a stream that fits, data codewords in
range. -/
def CandidateReady (s : State) : Prop :=
  geomOk (gridRows s) (gridCols s) = true ∧ 9 * (dLen s + eLen s) + 2 ≤ gridRows s * gridCols s / 2 ∧ SourceInRange s

/-- The codes a command may record beyond ILLEGAL_CMD (R253). -/
def errorsOf : Instr → List ErrCode
  | .nop => []
  | .sreset => []
  | .pkPush _ => [.rangePk]
  | .pkFlush => []
  | .dotLookup _ => [.rangeIdx]
  | .rsEncode _ _ => [.len, .rangeCw]
  | .maskApply _ => [.rangeCw]
  | .candidate _ => [.cfgGeom, .len, .rangeCw]
  | .score => [.cfgGeom]
  | .select => [.cfgGeom, .len, .rangeCw]
  | .eccLen => []
  | .size => [.cfgWidth, .capBothLarge, .capHLarge, .capWLarge, .capSmall]
  | .pad => [.cfgGeom, .len]
  | .dotStream => [.cfgGeom, .len, .rangeCw]
  | .fold => [.cfgGeom]
  | .forceCorners => [.cfgGeom]
  | .run => [.cfgWidth, .capBothLarge, .capHLarge, .capWLarge, .capSmall, .rangeCw]

/-- The number of an error code, as R252's table writes it. -/
def errCodeNumber : ErrCode → Nat
  | .none => 0x00
  | .illegalCmd => 0x01
  | .cfgWidth => 0x02
  | .cfgGeom => 0x03
  | .capHLarge => 0x04
  | .capWLarge => 0x05
  | .capBothLarge => 0x06
  | .capSmall => 0x07
  | .rangeCw => 0x08
  | .rangePk => 0x09
  | .rangeIdx => 0x0A
  | .len => 0x0B

/-- The bits of a register that a host write stores and a read gives back (R24, R28–R33, R44); the other bits of those
registers are reserved, and every other register is read-only (R47), but for STATUS (R26) and CMD (R27). -/
def writableBits : Reg → Word
  | .ctrl => 0x00000001
  | .dataLen => 0x00000FFF
  | .eccLen => 0x00000FFF
  | .gridH => 0x000000FF
  | .gridW => 0x000000FF
  | .widthReq => 0x000000FF
  | .maskCfg => 0x00000107
  | .padCfg => 0x00000001
  | _ => 0

/-- The cell in column `x` of row `y` is a dot: it lies in the grid and holds code 1 (R160, R161). -/
abbrev IsDot (s : State) (x y : Int) : Prop :=
  0 ≤ x ∧ x < gridCols s ∧ 0 ≤ y ∧ y < gridRows s ∧ gridAt s (y.toNat * gridCols s + x.toNat) = 1

/-- The value of an edge (R162) of `n` cells, the `q`-th at `cell q`: the dots on its data cells are counted, their span is
added, and the sum scaled by `k`. -/
def edgeWorth (s : State) (cell : Nat → Nat × Nat) (n k : Nat) : Nat :=
  let ps := (List.range n).filter fun q => decide (((cell q).1 + (cell q).2) % 2 = 0 ∧ IsDot s (cell q).1 (cell q).2)
  (ps.length + (ps.getLastD 0 - ps.headD 0)) * k

/-- Position (x, y) is isolated (R167): an unset cell with no dot at its four diagonal neighbours, or a dot with none there
nor at distance two. -/
abbrev IsIsolated (s : State) (x y : Int) : Prop :=
  (∀ dx ∈ [(-1 : Int), 1], ∀ dy ∈ [(-1 : Int), 1], ¬ IsDot s (x + dx) (y + dy)) ∧
    (IsDot s x y → ∀ d ∈ [(-2 : Int), 2], ¬ IsDot s (x + d) y ∧ ¬ IsDot s x (y + d))

/-- The isolated positions among those ISO_SCAN scans (R167): the data cells, all or the interior ones. -/
def isolatedCells (s : State) : Finset (Nat × Nat) :=
  ((Finset.range (gridCols s)) ×ˢ (Finset.range (gridRows s))).filter fun c =>
    (c.1 + c.2) % 2 = 0 ∧
      (s.params.isoScan = .interior → 1 ≤ c.1 ∧ c.1 + 2 ≤ gridCols s ∧ 1 ≤ c.2 ∧ c.2 + 2 ≤ gridRows s) ∧
      IsIsolated s c.1 c.2

/-- Lines in order, true where clear (R165): for each length of `ks` a run of that many clear lines and one line that is not
clear, and at the end a run of `k`. -/
def linesOfRuns (ks : List Nat) (k : Nat) : List Bool :=
  (ks.flatMap fun j => List.replicate j true ++ [false]) ++ List.replicate k true

/-- The commands of a candidate, one by one (R153). -/
def candidateSteps (m : BitVec 3) (s : State) : List Instr :=
  Instr.maskApply (BitVec.ofNat 2 (m.toNat % 4)) ::
    Instr.rsEncode (BitVec.ofNat 12 (dLen s + 1)) s.eccLen :: Instr.dotStream :: Instr.fold ::
      (if 4 ≤ m.toNat then [Instr.forceCorners, Instr.score] else [Instr.score])

/-- A buffer write left every entry outside `lo .. hi - 1` as it was. -/
def Untouched {α : Type} (before after : Nat → α) (lo hi : Nat) : Prop :=
  ∀ i, (i < lo ∨ hi ≤ i) → after i = before i

/-- Two states agree on everything SELECT may read: the parameters, the data codewords, the lengths, the geometry and the
mask configuration (R180). -/
def SameSelectInputs (s t : State) : Prop :=
  s.params = t.params ∧ s.dataLen = t.dataLen ∧ s.eccLen = t.eccLen ∧ s.gridH = t.gridH ∧ s.gridW = t.gridW ∧
    s.pinEn = t.pinEn ∧ s.pinMask = t.pinMask ∧ ∀ j < dLen s, srcAt s j = srcAt t j

end Sys2Proof.Machine
end

