-- ==== Sys2Proof/Certificates/Slice0/Obligations.lean ====
section
/-! DEFINITION. The statements for the provers, one definition each; OBLIGATIONS.json says what each states and which
rules it rests on. In a frame, a state is compared with `s` updated at the fields the command writes: every field that
the update does not name is unchanged. -/

open Sys2Proof Sys2Proof.Machine

/-! ### Encoding -/

/-- Decoding the word of a command gives the command back, for every operand its format encodes (R81, R82, R83). -/
def Obligations.DecodeInvertsEncode : Prop := ∀ i : Instr, decode (encode i) = .ok i

/-- A word that decodes is the word of the command it decodes to, so no bit of a legal word is ignored (R81, R84). -/
def Obligations.EncodeInvertsDecode : Prop := ∀ (w : Word) (i : Instr), decode w = .ok i → encode i = w

/-- A word decodes to a command exactly when it has the fixed bits of that command's row, no word matches two rows, and
every word that matches no row is illegal (R90). -/
def Obligations.DecodeMatchesTheOpcodeTable : Prop :=
  (∀ (w : Word), ∀ r ∈ opcodeTable, w &&& r.mask = r.pattern ↔ ∃ i, decode w = .ok i ∧ rowOf i = r) ∧
    (∀ (w : Word), ∀ r ∈ opcodeTable, ∀ q ∈ opcodeTable, w &&& r.mask = r.pattern → w &&& q.mask = q.pattern → r = q) ∧
    (∀ w : Word, (∃ k, decode w = .error k) ↔ ∀ r ∈ opcodeTable, w &&& r.mask ≠ r.pattern)

/-- Words written out from the formats of R81 decode to the commands they stand for. -/
def Obligations.WrittenOutWordsDecode : Prop :=
  decode 0x00000000#32 = .ok .nop ∧ decode 0x10000102#32 = .ok (.pkPush 258) ∧
    decode 0x20000070#32 = .ok (.dotLookup 112) ∧ decode 0x3000D064#32 = .ok (.rsEncode 100 13) ∧
    decode 0x40000003#32 = .ok (.maskApply 3) ∧ decode 0x41000005#32 = .ok (.candidate 5) ∧
    decode 0x51000000#32 = .ok .size ∧ decode 0x60000000#32 = .ok .run ∧
    decode 0x11000001#32 = .error .mustBeZero ∧ decode 0x02000000#32 = .error .unassignedOpcode

/-- An illegal word, one whose opcode is unassigned or that has a 1 in a must-be-zero bit, completes with ILLEGAL_CMD,
code 0x01, and changes nothing else (R84, R85). -/
def Obligations.IllegalWordsRecordIllegalCmd : Prop :=
  (∀ (s : State) (w : Word), s.inReset = false → s.pending = some w → wordWf w = false →
    ∃ t, engineTurn s = .next t ∧
      t = { s with err := true, errCode := .illegalCmd, done := true, pending := none } ∧
      (statusWord t).extractLsb' 8 8 = 0x01#8) ∧
    wordWf 0x11000001#32 = false

/-! ### The step -/

/-- When the engine moves and the pending word decodes to a command, the step is exec of that command at the state without
the turn taken (with no turn left, at the state itself); a host turn is its bus transaction; and withFetchWord makes the next
step run exactly the command encoded (R230; the schedule of turns is the model's, log 1 and log 2). -/
def Obligations.StepRunsThePendingCommand : Prop :=
  (∀ (s : State) (rest : List Turn) (w : Word) (i : Instr),
    s.turns = .engine :: rest → s.inReset = false → s.pending = some w → decode w = .ok i →
    step s = exec i { s with turns := rest }) ∧
  (∀ (s : State) (w : Word) (i : Instr),
    s.turns = [] → s.inReset = false → s.pending = some w → decode w = .ok i → step s = exec i s) ∧
  (∀ (s : State) (x : Txn) (rest : List Turn),
    s.turns = .host x :: rest → step s = .next (busTransaction x { s with turns := rest })) ∧
  (∀ (s : State) (i : Instr),
    step (s.withFetchWord 32 (encode i).toNat) = exec i { s with pending := some (encode i), inReset := false })

/-! ### Control commands -/

/-- NOP completes and changes nothing but STATUS.DONE and BUSY (R231). -/
def Obligations.NopOnlyCompletes : Prop :=
  ∀ s : State, exec .nop s = .next { s with done := true, pending := none }

/-- SRESET gives every register its reset value, keeps every buffer entry, and its own completion leaves STATUS at
0x00000002 (R232, R283). -/
def Obligations.SresetRestoresTheRegisters : Prop :=
  ∀ s : State, ∃ t, exec .sreset s = .next t ∧ statusWord t = 0x00000002#32 ∧
    t = { State.reset with
      params := s.params
      done := true
      src := s.src
      work := s.work
      stream := s.stream
      grid := s.grid
      inReset := s.inReset
      epoch := s.epoch
      draws := s.draws
      response := s.response
      turns := s.turns }

/-- RUN is ECCLEN, SIZE, PAD and SELECT, one after another, for every instance that meets R8 (a SIZE_TIE as log 13 says),
when the width requested is legal, the size computed for `ECC_FN(DATA_LEN)` check codewords is in 5..200 each way and the data
codewords are in range (R233, R238): none of the four raises an error, and RUN leaves the state that they leave. When RUN ends with an error is
said by AutomaticSizeFollowsTheRoots and PinnedSizeFollowsTheWidth (CAP_*), IllegalWidthRaisesCfgWidth (CFG_WIDTH) and
LargeCodewordsRaiseRangeCw (RANGE_CW). -/
def Obligations.RunIsItsFourSteps : Prop :=
  ∀ s : State, paramsWf s.params = true →
    (s.widthReq.toNat = 0 ∨ (5 ≤ s.widthReq.toNat ∧ s.widthReq.toNat ≤ 200)) →
    5 ≤ (sizeFor s.params (dLen s) (eccAt s.params.eccFn (dLen s)) s.widthReq.toNat).1 →
    (sizeFor s.params (dLen s) (eccAt s.params.eccFn (dLen s)) s.widthReq.toNat).1 ≤ 200 →
    5 ≤ (sizeFor s.params (dLen s) (eccAt s.params.eccFn (dLen s)) s.widthReq.toNat).2 →
    (sizeFor s.params (dLen s) (eccAt s.params.eccFn (dLen s)) s.widthReq.toNat).2 ≤ 200 →
    SourceInRange s →
    ∃ t, execAll [.eccLen, .size, .pad, .select] s = .next t ∧ exec .run s = .next t ∧
      t.err = s.err ∧ t.errCode = s.errCode ∧ t.bmValid = true ∧
      geomOk (gridRows t) (gridCols t) = true ∧ 9 * (dLen t + eLen t) + 2 ≤ gridRows t * gridCols t / 2

/-! ### Packer -/

/-- A push that is not the fifth shifts the value into the accumulator in base 259 and emits nothing; a value above 258
raises RANGE_PK and leaves the packer as it was (R111). -/
def Obligations.PkPushAccumulates : Prop :=
  (∀ (v : BitVec 9) (s : State), packerInv s → s.cnt.toNat ≤ 3 → v.toNat ≤ 258 →
    ∃ t, exec (.pkPush v) s = .next t ∧
      t.acc.toNat = s.acc.toNat * 259 + v.toNat ∧ t.cnt.toNat = s.cnt.toNat + 1 ∧ t.pkOutN = 0 ∧
      t = { s with acc := t.acc, cnt := t.cnt, pkOutN := t.pkOutN, done := true, pending := none }) ∧
  (∀ (v : BitVec 9) (s : State), 258 < v.toNat →
    exec (.pkPush v) s = .next { s with err := true, errCode := .rangePk, done := true, pending := none })

/-- The fifth push emits six base-103 codewords whose value is the accumulator with the value shifted in, and empties the
packer (R111, R112). -/
def Obligations.FifthPushEmitsSixCodewords : Prop :=
  ∀ (v : BitVec 9) (s : State), packerInv s → s.cnt.toNat = 4 → v.toNat ≤ 258 →
    ∃ t, exec (.pkPush v) s = .next t ∧
      valueBase 103 (packedDigits t 6) = s.acc.toNat * 259 + v.toNat ∧ (∀ k : Fin 6, t.pkOut[k].toNat ≤ 102) ∧
      t = { s with pkOut := t.pkOut, pkOutN := 6, acc := 0, cnt := 0, done := true, pending := none }

/-- A flush with nothing pending emits nothing; with CNT values pending it emits CNT + 1 base-103 codewords whose value is
the accumulator, leaves the other PK_OUT registers as they were, and empties the packer (R112, R113). -/
def Obligations.PkFlushEmitsThePending : Prop :=
  ∀ s : State, packerInv s →
    if s.cnt.toNat = 0 then exec .pkFlush s = .next { s with pkOutN := 0, done := true, pending := none }
    else
      ∃ t, exec .pkFlush s = .next t ∧ t.pkOutN.toNat = s.cnt.toNat + 1 ∧
        valueBase 103 (packedDigits t (s.cnt.toNat + 1)) = s.acc.toNat ∧
        (∀ k : Fin 6, k.val ≤ s.cnt.toNat → t.pkOut[k].toNat ≤ 102) ∧
        (∀ k : Fin 6, s.cnt.toNat < k.val → t.pkOut[k] = s.pkOut[k]) ∧
        t = { s with pkOut := t.pkOut, pkOutN := t.pkOutN, acc := 0, cnt := 0, done := true, pending := none }

/-- Losslessness (R114): packing 1 to 5 values from an empty packer leaves codewords with the same value in base 103 as
the values have in base 259, and the values are recovered from the codewords. -/
def Obligations.PackingLosesNothing : Prop :=
  (∀ (s : State) (vs : List (BitVec 9)), s.cnt = 0 → s.acc = 0 → 1 ≤ vs.length → vs.length ≤ 5 →
    (∀ v ∈ vs, v.toNat ≤ 258) →
    ∃ t, execAll (packCommands vs) s = .next t ∧ t.pkOutN.toNat = vs.length + 1 ∧ t.cnt = 0 ∧ t.acc = 0 ∧
      valueBase 103 (packedDigits t (vs.length + 1)) = valueBase 259 (vs.map BitVec.toNat)) ∧
  (∀ (s t u : State) (vs ws : List (BitVec 9)), s.cnt = 0 → s.acc = 0 → 1 ≤ vs.length → vs.length ≤ 5 →
    ws.length = vs.length → (∀ v ∈ vs, v.toNat ≤ 258) → (∀ v ∈ ws, v.toNat ≤ 258) →
    execAll (packCommands vs) s = .next t → execAll (packCommands ws) s = .next u →
    packedDigits t (vs.length + 1) = packedDigits u (vs.length + 1) → vs = ws)

/-- The packer is independent of every other unit (R115): a command other than PK_PUSH, PK_FLUSH and SRESET neither writes
ACC, CNT, PK_OUTN and PK_OUT nor depends on them, and the two packer commands do not write SRC. -/
def Obligations.PackerIsIndependent : Prop :=
  (∀ (i : Instr) (s t : State) (acc : BitVec 41) (cnt outN : BitVec 3) (out : Vector (BitVec 7) 6),
    (∀ v, i ≠ .pkPush v) → i ≠ .pkFlush → i ≠ .sreset → exec i s = .next t →
    t.acc = s.acc ∧ t.cnt = s.cnt ∧ t.pkOutN = s.pkOutN ∧ t.pkOut = s.pkOut ∧
      exec i { s with acc := acc, cnt := cnt, pkOutN := outN, pkOut := out } =
        .next { t with acc := acc, cnt := cnt, pkOutN := outN, pkOut := out }) ∧
  (∀ (s : State) (v : BitVec 9), ∃ t u, exec (.pkPush v) s = .next t ∧ exec .pkFlush s = .next u ∧
    t.src = s.src ∧ u.src = s.src)

/-! ### Dot-pattern ROM -/

/-- DOT_LOOKUP of an index up to 112 leaves the ROM's pattern in DOT_RESULT; a larger index raises RANGE_IDX and keeps
DOT_RESULT (R103). -/
def Obligations.DotLookupReadsTheRom : Prop :=
  (∀ (idx : BitVec 8) (s : State) (h : idx.toNat < 113),
    exec (.dotLookup idx) s = .next { s with dotResult := s.params.dotRom[idx.toNat], done := true, pending := none }) ∧
  (∀ (idx : BitVec 8) (s : State), 112 < idx.toNat →
    exec (.dotLookup idx) s = .next { s with err := true, errCode := .rangeIdx, done := true, pending := none })

/-! ### Reed–Solomon -/

/-- RS_ENCODE keeps the data words (R137) and every entry from nd + nc up, writes nc field elements at nd..nd+nc-1 and the
number of blocks, and nothing else; with no data word every check word is 0 (R136). That it writes there whatever DATA_LEN and
ECC_LEN hold is the model's reading of R136 against R212 (DEDUCED, log 22). -/
def Obligations.RsEncodeIsSystematic : Prop :=
  ∀ (nd nc : BitVec 12) (s : State), nd.toNat + nc.toNat ≤ 4096 → (∀ i < nd.toNat, (workAt s i).toNat ≤ 112) →
    ∃ t, exec (.rsEncode nd nc) s = .next t ∧
      (∀ i < nd.toNat, workAt t i = workAt s i) ∧
      Untouched (workAt s) (workAt t) nd.toNat (nd.toNat + nc.toNat) ∧
      (∀ i, nd.toNat ≤ i → i < nd.toNat + nc.toNat → (workAt t i).toNat ≤ 112) ∧
      (nd.toNat = 0 → ∀ i < nc.toNat, workAt t i = 0) ∧
      t.rsStep.toNat = (nd.toNat + nc.toNat + 111) / 112 ∧
      t = { s with work := t.work, rsStep := t.rsStep, done := true, pending := none }

/-- Code property (R138): after RS_ENCODE, the polynomial of every block with check words, first position highest order,
vanishes at every root of its generator. Block `b` of `step` owns the positions `b + i * step`; it has
`(n + step - 1 - b) / step` of those below `n` (R134). -/
def Obligations.RsBlocksVanishAtTheRoots : Prop :=
  ∀ (nd nc : BitVec 12) (s : State) (step b k : Nat), nd.toNat + nc.toNat ≤ 4096 →
    (∀ i < nd.toNat, (workAt s i).toNat ≤ 112) →
    step = (nd.toNat + nc.toNat + 111) / 112 → b < step →
    k < (nd.toNat + nc.toNat + (step - 1) - b) / step - (nd.toNat + (step - 1) - b) / step →
    ∃ t, exec (.rsEncode nd nc) s = .next t ∧
      hornerAt (gfPow s.params.prim (s.params.rootStart.val + k))
        ((List.range ((nd.toNat + nc.toNat + (step - 1) - b) / step)).map
          (fun i => toGF (workAt t (b + i * step)))) = 0

/-- Linearity (R139): the check words of the sum modulo 113 of two data arrays are the sums modulo 113 of their check
words, and the check words of all-zero data are all 0. -/
def Obligations.RsCheckWordsAreLinear : Prop :=
  (∀ (nd nc : BitVec 12) (r s u : State), nd.toNat + nc.toNat ≤ 4096 → r.params = s.params → u.params = s.params →
    (∀ i < nd.toNat, (workAt r i).toNat ≤ 112 ∧ (workAt s i).toNat ≤ 112 ∧
      (workAt u i).toNat = ((workAt r i).toNat + (workAt s i).toNat) % 113) →
    ∃ r' s' u', exec (.rsEncode nd nc) r = .next r' ∧ exec (.rsEncode nd nc) s = .next s' ∧
      exec (.rsEncode nd nc) u = .next u' ∧
      ∀ i, nd.toNat ≤ i → i < nd.toNat + nc.toNat →
        (workAt u' i).toNat = ((workAt r' i).toNat + (workAt s' i).toNat) % 113) ∧
  (∀ (nd nc : BitVec 12) (s : State), nd.toNat + nc.toNat ≤ 4096 → (∀ i < nd.toNat, workAt s i = 0) →
    ∃ t, exec (.rsEncode nd nc) s = .next t ∧
      ∀ i, nd.toNat ≤ i → i < nd.toNat + nc.toNat → workAt t i = 0)

/-! ### Masks, candidates, selection -/

/-- MASK_APPLY puts the mask in WORK[0] and the weighted data codewords after it, with the steps 0, 3, 7, 17, and writes
nothing else (R150, R151, R152). -/
def Obligations.MaskApplyWeightsTheData : Prop :=
  ∀ (m : BitVec 2) (s : State), SourceInRange s →
    ∃ t, exec (.maskApply m) s = .next t ∧ (workAt t 0).toNat = m.toNat ∧
      (∀ j < dLen s, (workAt t (1 + j)).toNat = ((srcAt s j).toNat + [0, 3, 7, 17].getD m.toNat 0 * j) % 113) ∧
      Untouched (workAt s) (workAt t) 0 (dLen s + 1) ∧
      t = { s with work := t.work, done := true, pending := none }

/-- CANDIDATE m is MASK_APPLY (m mod 4), RS_ENCODE d+1, e, DOTSTREAM, FOLD, FORCE_CORNERS for m of 4 and above, and SCORE,
one after another, and then the record of the score under mask m (R153). -/
def Obligations.CandidateIsItsSteps : Prop :=
  ∀ (m : BitVec 3) (s : State), CandidateReady s →
    ∃ u, execAll (candidateSteps m s) s = .next u ∧
      exec (.candidate m) s = .next { u with
        maskScore := u.maskScore.set m.toNat u.score m.isLt
        msValid := u.msValid ||| (1#8 <<< m.toNat)
        msRej := if u.reject then u.msRej ||| (1#8 <<< m.toNat) else u.msRej &&& ~~~(1#8 <<< m.toNat) }

/-- What CANDIDATE m writes and what it leaves (R153, R212): WORK[0..d+e], STREAM[0..NDOTS-1], GRID[0..H*W-1], the result
registers, MASK_SCORE[m] and bit m of VALID and REJ; every other entry, score and bit is unchanged. -/
def Obligations.CandidateWritesOnlyItsResults : Prop :=
  ∀ (m : BitVec 3) (s : State), CandidateReady s →
    ∃ t, exec (.candidate m) s = .next t ∧
      Untouched (workAt s) (workAt t) 0 (dLen s + 1 + eLen s) ∧
      Untouched (streamAt s) (streamAt t) 0 (gridRows s * gridCols s / 2) ∧
      Untouched (gridAt s) (gridAt t) 0 (gridRows s * gridCols s) ∧
      t.streamLen.toNat = 9 * (dLen s + eLen s) + 2 ∧
      t.rsStep.toNat = (dLen s + 1 + eLen s + 111) / 112 ∧
      t.maskScore[m.toNat] = t.score ∧ t.msValid.getLsbD m.toNat = true ∧ t.msRej.getLsbD m.toNat = t.reject ∧
      (∀ k : Fin 8, k.val ≠ m.toNat → t.maskScore[k] = s.maskScore[k] ∧
        t.msValid.getLsbD k.val = s.msValid.getLsbD k.val ∧ t.msRej.getLsbD k.val = s.msRej.getLsbD k.val) ∧
      t = { s with
        work := t.work
        rsStep := t.rsStep
        stream := t.stream
        streamLen := t.streamLen
        grid := t.grid
        score := t.score
        reject := t.reject
        scValid := true
        maskScore := t.maskScore
        msValid := t.msValid
        msRej := t.msRej
        done := true
        pending := none }

/-- With a pinned mask, SELECT is CANDIDATE of that mask after MS_VALID is cleared, and BEST_MASK names it (R175, R178). -/
def Obligations.SelectRunsThePinnedMask : Prop :=
  ∀ s : State, CandidateReady s → s.pinEn = true →
    ∃ u, exec (.candidate s.pinMask) { s with msValid := 0, msRej := 0 } = .next u ∧
      exec .select s = .next { u with bestMask := s.pinMask, bmValid := true }

/-- Without a pinned mask, SELECT evaluates masks 0..3, and masks 4..7 too exactly when the best plain score is at most
`(H * W) div 2`; each evaluated mask's score is the one CANDIDATE gives it; the mask chosen has the highest score of those
evaluated, and among equals it is the highest mask id under LATER and the lowest under EARLIER (R175, R176, R177). -/
def Obligations.SelectChoosesTheBestMask : Prop :=
  ∀ s : State, CandidateReady s → s.pinEn = false →
    ∃ t, exec .select s = .next t ∧ t.bmValid = true ∧
      (t.msValid = 0x0F#8 ∨ t.msValid = 0xFF#8) ∧
      (t.msValid = 0xFF#8 ↔ ∀ m : Fin 4, (t.maskScore[m.val]).toInt ≤ (gridRows s * gridCols s / 2 : Nat)) ∧
      (∀ m : BitVec 3, t.msValid.getLsbD m.toNat = true → ∃ u, exec (.candidate m) s = .next u ∧
        t.maskScore[m.toNat] = u.score ∧ t.msRej.getLsbD m.toNat = u.reject) ∧
      (∀ m : BitVec 3, t.msValid.getLsbD m.toNat = false →
        t.maskScore[m.toNat] = s.maskScore[m.toNat] ∧ t.msRej.getLsbD m.toNat = false) ∧
      t.msValid.getLsbD t.bestMask.toNat = true ∧
      (∀ m : BitVec 3, t.msValid.getLsbD m.toNat = true →
        (t.maskScore[m.toNat]).toInt ≤ (t.maskScore[t.bestMask.toNat]).toInt ∧
        ((t.maskScore[m.toNat]).toInt = (t.maskScore[t.bestMask.toNat]).toInt →
          (s.params.tieRule = .later → m.toNat ≤ t.bestMask.toNat) ∧
          (s.params.tieRule = .earlier → t.bestMask.toNat ≤ m.toNat)))

/-- When SELECT completes, WORK, STREAM, STREAM_LEN, RS_STEP, GRID, SCORE and SCORE_FLAGS are as CANDIDATE of the mask
chosen would leave them (R179), and SELECT writes nothing but what candidates write, MS_VALID and BEST_MASK. -/
def Obligations.SelectLeavesTheWinner : Prop :=
  ∀ s : State, CandidateReady s →
    ∃ t u, exec .select s = .next t ∧ exec (.candidate t.bestMask) s = .next u ∧
      (∀ i, workAt t i = workAt u i) ∧ (∀ i, streamAt t i = streamAt u i) ∧ (∀ i, gridAt t i = gridAt u i) ∧
      t.streamLen = u.streamLen ∧ t.rsStep = u.rsStep ∧ t.score = u.score ∧ t.reject = u.reject ∧
      t.scValid = u.scValid ∧ t.score = t.maskScore[t.bestMask.toNat] ∧
      t = { s with
        work := t.work
        rsStep := t.rsStep
        stream := t.stream
        streamLen := t.streamLen
        grid := t.grid
        score := t.score
        reject := t.reject
        scValid := true
        maskScore := t.maskScore
        msValid := t.msValid
        msRej := t.msRej
        bestMask := t.bestMask
        bmValid := true
        done := true
        pending := none }

/-- SELECT's result depends only on SRC, DATA_LEN, ECC_LEN, GRID_H, GRID_W, MASK_CFG and the parameters (R180): from two
states that agree on those, whatever else they hold, it chooses the same mask and leaves the same codewords, stream, grid
and score, and the same MASK_SCORE of every mask evaluated. -/
def Obligations.SelectDependsOnlyOnItsInputs : Prop :=
  ∀ s r : State, SameSelectInputs s r → CandidateReady s →
    ∃ t u, exec .select s = .next t ∧ exec .select r = .next u ∧ t.bestMask = u.bestMask ∧
      t.score = u.score ∧ t.reject = u.reject ∧ t.msValid = u.msValid ∧ t.msRej = u.msRej ∧
      t.streamLen = u.streamLen ∧ t.rsStep = u.rsStep ∧
      (∀ m : Fin 8, t.msValid.getLsbD m.val = true → t.maskScore[m] = u.maskScore[m]) ∧
      (∀ i < dLen s + 1 + eLen s, workAt t i = workAt u i) ∧
      (∀ i < gridRows s * gridCols s / 2, streamAt t i = streamAt u i) ∧
      (∀ i < gridRows s * gridCols s, gridAt t i = gridAt u i)

/-! ### Scorer -/

/-- SCORE rejects a grid exactly when one of its four edges has no dot at a sampled cell, and then SCORE is SENTINEL
(R162, R163); it writes the score registers only (R169). -/
def Obligations.ScoreRejectsExactlyEmptyEdges : Prop :=
  ∀ s : State, geomOk (gridRows s) (gridCols s) = true →
    ∃ t, exec .score s = .next t ∧
      (t.reject = true ↔
        ((∀ q < gridCols s, q % 2 = 0 → gridAt s q ≠ 1) ∨
         (∀ q < gridCols s, q % 2 = gridCols s % 2 → gridAt s ((gridRows s - 1) * gridCols s + q) ≠ 1) ∨
         (∀ q < gridRows s, q % 2 = 0 → gridAt s (q * gridCols s) ≠ 1) ∨
         (∀ q < gridRows s, q % 2 = gridRows s % 2 → gridAt s (q * gridCols s + (gridCols s - 1)) ≠ 1))) ∧
      (t.reject = true → t.score = s.params.sentinel) ∧
      t = { s with score := t.score, reject := t.reject, scValid := true, done := true, pending := none }

/-- A grid whose data cells are all SET scores its smaller edge value, `(3 * (W div 2) - 2) * H` or
`(3 * (H div 2) - 2) * W`: no line is clear and no cell isolated (R162, R164 to R168). -/
def Obligations.FullGridScoresItsWorstEdge : Prop :=
  ∀ s : State, geomOk (gridRows s) (gridCols s) = true →
    (∀ r < gridRows s, ∀ c < gridCols s, (r + c) % 2 = 0 → gridAt s (r * gridCols s + c) = 1) →
    ∃ t, exec .score s = .next t ∧ t.reject = false ∧
      t.score.toInt = (min ((3 * (gridCols s / 2) - 2) * gridRows s) ((3 * (gridRows s / 2) - 2) * gridCols s) : Nat)

/-- Every score of a grid that is not rejected lies between `-(4 * 10^8 + PEN_SAT)` and 59600 (R168), for every PEN_SAT
up to 2^62. -/
def Obligations.ScoresAreBounded : Prop :=
  ∀ s : State, geomOk (gridRows s) (gridCols s) = true → s.params.penSat ≤ 2 ^ 62 →
    ∃ t, exec .score s = .next t ∧
      (t.reject = false → t.score.toInt ≤ 59600 ∧ -(400000000 + (s.params.penSat : Int)) ≤ t.score.toInt)

/-- The scorer sees only which data cells hold code 1 (R160, R161): two grids of one geometry and one instance whose data
cells are SET at the same places have the same score, whatever their other codes. -/
def Obligations.ScoreReadsOnlyDataDots : Prop :=
  ∀ s r : State, s.params = r.params → s.gridH = r.gridH → s.gridW = r.gridW →
    geomOk (gridRows s) (gridCols s) = true →
    (∀ y < gridRows s, ∀ x < gridCols s, (y + x) % 2 = 0 →
      (gridAt s (y * gridCols s + x) = 1 ↔ gridAt r (y * gridCols s + x) = 1)) →
    ∃ t u, exec .score s = .next t ∧ exec .score r = .next u ∧ t.score = u.score ∧ t.reject = u.reject

/-- SCORE subtracts the isolation count and the runs of clear lines: (1) one run of `k` clear interior lines, and no other
clear line, costs `min(B^k, PEN_SAT)` (R165); (2) runs of lengths `ks` and a last one of length `k`, each but the last ended
by a line that is not clear, cost the sum of what each costs, cut at PEN_SAT (R165); (3) the score of a grid that is not
rejected is the smallest edge value, minus the square of the number of isolated positions, minus the penalty of the clear
rows, with B_row, and of the clear columns, with B_col, where LINE_BASE says whether B_row is W and B_col is H, or the other
way (R162, R164 to R168; a score outside 64 bits is log 16). -/
def Obligations.OneClearRunCostsItsPower : Prop :=
  (∀ (base sat n a k : Nat) (clear : Nat → Bool), 0 < base → 0 < sat → 1 ≤ k → 1 ≤ a → a + k + 1 ≤ n →
    (∀ y, 1 ≤ y → y + 2 ≤ n → (clear y = true ↔ a ≤ y ∧ y < a + k)) →
    linePenalty base sat n clear = min (base ^ k) sat) ∧
  (∀ (base sat k : Nat) (ks : List Nat) (clear : Nat → Bool), 0 < base → 0 < sat →
    (∀ i, (h : i < (linesOfRuns ks k).length) → clear (i + 1) = (linesOfRuns ks k)[i]) →
    linePenalty base sat ((linesOfRuns ks k).length + 2) clear =
      min ((ks ++ [k]).map (fun j => if j = 0 then 0 else min (base ^ j) sat)).sum sat) ∧
  (∀ s : State, geomOk (gridRows s) (gridCols s) = true →
    ∃ t, exec .score s = .next t ∧
      (t.reject = false →
        t.score = BitVec.ofInt 64
          ((min (min (edgeWorth s (fun q => (q, 0)) (gridCols s) (gridRows s))
                (edgeWorth s (fun q => (q, gridRows s - 1)) (gridCols s) (gridRows s)))
              (min (edgeWorth s (fun q => (0, q)) (gridRows s) (gridCols s))
                (edgeWorth s (fun q => (gridCols s - 1, q)) (gridRows s) (gridCols s))) : Nat) -
            ((isolatedCells s).card : Int) ^ 2 -
            (min
              (linePenalty (if s.params.lineBase = .ortho then gridCols s else gridRows s) s.params.penSat (gridRows s)
                  (fun y => decide (∀ x < gridCols s, (x + y) % 2 = 0 → ¬ IsDot s x y)) +
                linePenalty (if s.params.lineBase = .ortho then gridRows s else gridCols s) s.params.penSat (gridCols s)
                  (fun x => decide (∀ y < gridRows s, (x + y) % 2 = 0 → ¬ IsDot s x y)))
              s.params.penSat : Nat))))

/-! ### Check length, size, padding -/

/-- ECCLEN sets ECC_LEN to ECC_FN(DATA_LEN), which fits it when ECC_FN meets R8; with the default ECC_FN that is
`3 + d div 2` (R194). -/
def Obligations.EccLenAppliesEccFn : Prop :=
  ∀ s : State, eccFnWf s.params.eccFn = true →
    ∃ t, exec .eccLen s = .next t ∧ eLen t = eccAt s.params.eccFn (dLen s) ∧
      (s.params.eccFn = .affine 3 2 → eLen t = 3 + dLen s / 2) ∧
      t = { s with eccLen := t.eccLen, done := true, pending := none }

/-- Automatic sizing (R191) with the default SIZE_TIE: from the integer square roots `h0` of `(2 * area) div 3` and `w0` of
`(3 * area) div 2`, SIZE takes the first size of the tie-break that has an odd sum and enough area, when it is in 5..200
each way, and otherwise raises the capacity code of R193. RUN does the same with `e = ECC_FN(DATA_LEN)` for ECC_LEN (R233,
R238): it raises the same capacity codes, and with data codewords in range it completes with that size. When `h0 + w0` is odd,
`h0 * w0 < area` always holds, since `area` is 4 modulo 18. -/
def Obligations.AutomaticSizeFollowsTheRoots : Prop :=
  ∀ (s : State) (e area h0 w0 h w : Nat), s.widthReq.toNat = 0 → s.params.sizeTie = [(0, 1), (1, 0), (1, 2)] →
    area = 2 * (9 * (dLen s + e) + 2) →
    h0 * h0 ≤ 2 * area / 3 → 2 * area / 3 < (h0 + 1) * (h0 + 1) →
    w0 * w0 ≤ 3 * area / 2 → 3 * area / 2 < (w0 + 1) * (w0 + 1) →
    (h, w) = (if (h0 + w0) % 2 = 1 then (h0 + 1, w0 + 1)
      else if area ≤ h0 * (w0 + 1) then (h0, w0 + 1)
      else if area ≤ (h0 + 1) * w0 then (h0 + 1, w0)
      else (h0 + 1, w0 + 2)) →
    (e = eLen s → 5 ≤ h → h ≤ 200 → 5 ≤ w → w ≤ 200 →
      exec .size s = .next { s with
        gridH := BitVec.ofNat 8 h, gridW := BitVec.ofNat 8 w, done := true, pending := none }) ∧
    (e = eccAt s.params.eccFn (dLen s) → 5 ≤ h → h ≤ 200 → 5 ≤ w → w ≤ 200 → SourceInRange s →
      ∃ t, exec .run s = .next t ∧ gridRows t = h ∧ gridCols t = w) ∧
    (∀ i, (i = .size ∧ e = eLen s) ∨ (i = .run ∧ e = eccAt s.params.eccFn (dLen s)) →
      (200 < h → 200 < w →
        exec i s = .next { s with err := true, errCode := .capBothLarge, done := true, pending := none }) ∧
      (h ≤ 200 → 200 < w →
        exec i s = .next { s with err := true, errCode := .capWLarge, done := true, pending := none }) ∧
      (h ≤ 200 → w ≤ 200 → (h < 5 ∨ w < 5) →
        exec i s = .next { s with err := true, errCode := .capSmall, done := true, pending := none }))

/-- Pinned sizing (R192, R193): the height is `max(ceil(area / W), 5)`, one more when it and the width have an even sum; a
height above 200 raises CAP_H_LARGE, and no other capacity code arises. RUN does the same with `e = ECC_FN(DATA_LEN)` for
ECC_LEN (R233, R238): the same code, or, with data codewords in range, that height and width. -/
def Obligations.PinnedSizeFollowsTheWidth : Prop :=
  ∀ (s : State) (e area h0 h : Nat), 5 ≤ s.widthReq.toNat → s.widthReq.toNat ≤ 200 →
    area = 2 * (9 * (dLen s + e) + 2) →
    h0 = max ((area + s.widthReq.toNat - 1) / s.widthReq.toNat) 5 →
    h = (if (h0 + s.widthReq.toNat) % 2 = 0 then h0 + 1 else h0) →
    (e = eLen s → exec .size s =
      if h ≤ 200 then
        .next { s with gridH := BitVec.ofNat 8 h, gridW := s.widthReq, done := true, pending := none }
      else .next { s with err := true, errCode := .capHLarge, done := true, pending := none }) ∧
    (e = eccAt s.params.eccFn (dLen s) →
      if h ≤ 200 then SourceInRange s → ∃ t, exec .run s = .next t ∧ gridRows t = h ∧ t.gridW = s.widthReq
      else exec .run s = .next { s with err := true, errCode := .capHLarge, done := true, pending := none })

/-- SIZE either records one of its codes and changes nothing but STATUS, or leaves a geometry that satisfies geom_ok and
holds the stream (R190, R195), for every SIZE_TIE that meets R8. -/
def Obligations.SizeLeavesALegalGeometry : Prop :=
  ∀ s : State, sizeTieWf s.params.sizeTie = true →
    (∃ c ∈ errorsOf .size, exec .size s = .next { s with err := true, errCode := c, done := true, pending := none }) ∨
    (∃ t, exec .size s = .next t ∧ geomOk (gridRows t) (gridCols t) = true ∧
      9 * (dLen t + eLen t) + 2 ≤ gridRows t * gridCols t / 2 ∧
      t = { s with gridH := t.gridH, gridW := t.gridW, done := true, pending := none })

/-- SIZE and RUN refuse a requested width outside 5..200 with CFG_WIDTH, writing no grid dimension (R190, R233, C3). -/
def Obligations.IllegalWidthRaisesCfgWidth : Prop :=
  ∀ s : State, s.widthReq.toNat ≠ 0 → (s.widthReq.toNat < 5 ∨ 200 < s.widthReq.toNat) →
    exec .size s = .next { s with err := true, errCode := .cfgWidth, done := true, pending := none } ∧
    exec .run s = .next { s with err := true, errCode := .cfgWidth, done := true, pending := none }

/-- PAD (R196, R197): it appends the pad codewords from SRC[d] up, the first one PAD_CW_BIN when BIN_FINISH is 1, advances
DATA_LEN and ECC_LEN by ECC_FN's increments, and stops when what is left is less than the cost of one more; every other
entry and register is unchanged. -/
def Obligations.PadFillsTheFreeSlots : Prop :=
  ∀ s : State, eccFnWf s.params.eccFn = true → geomOk (gridRows s) (gridCols s) = true →
    9 * (dLen s + eLen s) + 2 ≤ gridRows s * gridCols s / 2 →
    ∃ t, exec .pad s = .next t ∧ dLen s ≤ dLen t ∧
      eLen t + eccAt s.params.eccFn (dLen s) = eLen s + eccAt s.params.eccFn (dLen t) ∧
      9 * (dLen t + eLen t) + 2 ≤ gridRows s * gridCols s / 2 ∧
      gridRows s * gridCols s / 2 - (9 * (dLen t + eLen t) + 2) <
        9 * (1 + (eccAt s.params.eccFn (dLen t + 1) - eccAt s.params.eccFn (dLen t))) ∧
      (∀ j, dLen s ≤ j → j < dLen t → (srcAt t j).toNat =
        if j = dLen s ∧ s.binFinish = true then s.params.padCwBin.val else s.params.padCw.val) ∧
      Untouched (srcAt s) (srcAt t) (dLen s) (dLen t) ∧
      t = { s with src := t.src, dataLen := t.dataLen, eccLen := t.eccLen, done := true, pending := none }

/-! ### Dot stream and fold -/

/-- DOTSTREAM (R200, R201, R202): the mask codeword's two bits, the nine bits of each codeword's pattern, most significant
first, then set bits up to NDOTS; STREAM_LEN is the length before the fill; nothing else changes. -/
def Obligations.DotStreamExpandsWork : Prop :=
  ∀ s : State, geomOk (gridRows s) (gridCols s) = true →
    9 * (dLen s + eLen s) + 2 ≤ gridRows s * gridCols s / 2 →
    (workAt s 0).toNat ≤ 3 → (∀ i, 1 ≤ i → i ≤ dLen s + eLen s → (workAt s i).toNat ≤ 112) →
    ∃ t, exec .dotStream s = .next t ∧
      streamAt t 0 = BitVec.ofBool ((workAt s 0).getLsbD 1) ∧ streamAt t 1 = BitVec.ofBool ((workAt s 0).getLsbD 0) ∧
      (∀ i b, 1 ≤ i → i ≤ dLen s + eLen s → b ≤ 8 → ∀ h : (workAt s i).toNat < 113,
        streamAt t (2 + 9 * (i - 1) + b) = BitVec.ofBool ((s.params.dotRom[(workAt s i).toNat]).getLsbD (8 - b))) ∧
      (∀ p, 9 * (dLen s + eLen s) + 2 ≤ p → p < gridRows s * gridCols s / 2 → streamAt t p = 1) ∧
      t.streamLen.toNat = 9 * (dLen s + eLen s) + 2 ∧
      Untouched (streamAt s) (streamAt t) 0 (gridRows s * gridCols s / 2) ∧
      t = { s with stream := t.stream, streamLen := t.streamLen, done := true, pending := none }

/-- FOLD places each stream bit (R206, R207, R208): a data cell of the scan that is no corner takes the bit whose index is
the number of such cells before it, by rows with the row order reversed when H is odd, by columns when H is even; the
corners take the last six bits in the order of R205; non-data cells hold NONDATA; every other entry and register is
unchanged. -/
def Obligations.FoldPlacesEachBit : Prop :=
  ∀ s : State, geomOk (gridRows s) (gridCols s) = true →
    ∃ t, exec .fold s = .next t ∧
      (∀ r < gridRows s, ∀ c < gridCols s, (r + c) % 2 = 1 → gridAt t (r * gridCols s + c) = 2) ∧
      (∀ r < gridRows s, ∀ c < gridCols s, (r + c) % 2 = 0 → (r, c) ∉ corners (gridRows s) (gridCols s) →
        if gridRows s % 2 = 1 then
          gridAt t ((gridRows s - 1 - r) * gridCols s + c) =
            (streamAt s ((List.range (r * gridCols s + c)).countP (fun i =>
              decide ((i / gridCols s + i % gridCols s) % 2 = 0 ∧
                (i / gridCols s, i % gridCols s) ∉ corners (gridRows s) (gridCols s))))).setWidth 2
        else
          gridAt t (r * gridCols s + c) =
            (streamAt s ((List.range (c * gridRows s + r)).countP (fun i =>
              decide ((i % gridRows s + i / gridRows s) % 2 = 0 ∧
                (i % gridRows s, i / gridRows s) ∉ corners (gridRows s) (gridCols s))))).setWidth 2) ∧
      (∀ k : Fin 6, ∀ r c, (corners (gridRows s) (gridCols s))[k.val]? = some (r, c) →
        gridAt t (r * gridCols s + c) = (streamAt s (gridRows s * gridCols s / 2 - 6 + k.val)).setWidth 2) ∧
      Untouched (gridAt s) (gridAt t) 0 (gridRows s * gridCols s) ∧
      t = { s with grid := t.grid, done := true, pending := none }

/-- The map of the fold is a bijection that depends only on H and W (R211): there is an order of the data cells of the
grid, each named once, such that stream bit k goes to the k-th of them, in every state of that geometry. -/
def Obligations.FoldIsABijection : Prop :=
  ∀ h w : Nat, geomOk h w = true →
    ∃ order : List Nat, order.length = h * w / 2 ∧ order.Nodup ∧
      (∀ idx, idx ∈ order ↔ idx < h * w ∧ (idx / w + idx % w) % 2 = 0) ∧
      ∀ s : State, gridRows s = h → gridCols s = w →
        ∃ t, exec .fold s = .next t ∧
          ∀ k idx, order[k]? = some idx → gridAt t idx = (streamAt s k).setWidth 2

/-- FORCE_CORNERS sets the six corner cells and changes no other entry and no register (R205, R210). -/
def Obligations.ForceCornersSetsSixCells : Prop :=
  ∀ s : State, geomOk (gridRows s) (gridCols s) = true →
    ∃ t, exec .forceCorners s = .next t ∧
      (∀ rc ∈ (if gridRows s % 2 = 1 then
          [(0, gridCols s - 2), (gridRows s - 1, gridCols s - 2), (1, gridCols s - 1), (gridRows s - 2, gridCols s - 1),
            (0, 0), (gridRows s - 1, 0)]
        else
          [(gridRows s - 2, gridCols s - 1), (gridRows s - 2, 0), (gridRows s - 1, gridCols s - 2), (gridRows s - 1, 1),
            (0, gridCols s - 1), (0, 0)]),
        gridAt t (rc.1 * gridCols s + rc.2) = 1) ∧
      (∀ i, (∀ rc ∈ corners (gridRows s) (gridCols s), i ≠ rc.1 * gridCols s + rc.2) → gridAt t i = gridAt s i) ∧
      t = { s with grid := t.grid, done := true, pending := none }

/-! ### Errors -/

/-- Every command that uses the grid raises CFG_GEOM when H or W is outside 5..200 or H + W is even, before any other
check, and changes nothing but STATUS; under a legal geometry H * W is even and NDOTS is exactly half of it (R195). -/
def Obligations.BadGeometryRaisesCfgGeom : Prop :=
  (∀ (s : State) (m : BitVec 3),
    ¬(5 ≤ gridRows s ∧ gridRows s ≤ 200 ∧ 5 ≤ gridCols s ∧ gridCols s ≤ 200 ∧ (gridRows s + gridCols s) % 2 = 1) →
    ∀ i ∈ [Instr.pad, .dotStream, .fold, .forceCorners, .score, .candidate m, .select],
      exec i s = .next { s with err := true, errCode := .cfgGeom, done := true, pending := none }) ∧
  (∀ h w : Nat, 5 ≤ h → h ≤ 200 → 5 ≤ w → w ≤ 200 → (h + w) % 2 = 1 → (h * w) % 2 = 0 ∧ 2 * ndots h w = h * w)

/-- A stream longer than the grid's dot capacity, or an RS_ENCODE longer than WORK, is refused with LEN and changes nothing
but STATUS (R254). -/
def Obligations.OverlongArraysRaiseLen : Prop :=
  (∀ (s : State) (m : BitVec 3), geomOk (gridRows s) (gridCols s) = true →
    gridRows s * gridCols s / 2 < 9 * (dLen s + eLen s) + 2 →
    ∀ i ∈ [Instr.pad, .dotStream, .candidate m, .select],
      exec i s = .next { s with err := true, errCode := .len, done := true, pending := none }) ∧
  (∀ (s : State) (nd nc : BitVec 12), 4096 < nd.toNat + nc.toNat →
    exec (.rsEncode nd nc) s = .next { s with err := true, errCode := .len, done := true, pending := none })

/-- A codeword above 112, where a command uses it as a field element and no earlier check fails, raises RANGE_CW and
changes nothing but STATUS (R136, R150, R153, R200, R233, C1); for RUN the earlier checks are the width and the size that SIZE
would compute for `ECC_FN(DATA_LEN)` check codewords. -/
def Obligations.LargeCodewordsRaiseRangeCw : Prop :=
  (∀ (s : State) (j : Nat) (m : BitVec 2), j < dLen s → 112 < (srcAt s j).toNat →
    exec (.maskApply m) s = .next { s with err := true, errCode := .rangeCw, done := true, pending := none }) ∧
  (∀ (s : State) (j : Nat) (m : BitVec 3), j < dLen s → 112 < (srcAt s j).toNat →
    geomOk (gridRows s) (gridCols s) = true → 9 * (dLen s + eLen s) + 2 ≤ gridRows s * gridCols s / 2 →
    ∀ i ∈ [Instr.candidate m, .select],
      exec i s = .next { s with err := true, errCode := .rangeCw, done := true, pending := none }) ∧
  (∀ (s : State) (i : Nat) (nd nc : BitVec 12), nd.toNat + nc.toNat ≤ 4096 → i < nd.toNat → 112 < (workAt s i).toNat →
    exec (.rsEncode nd nc) s = .next { s with err := true, errCode := .rangeCw, done := true, pending := none }) ∧
  (∀ (s : State) (i : Nat), geomOk (gridRows s) (gridCols s) = true →
    9 * (dLen s + eLen s) + 2 ≤ gridRows s * gridCols s / 2 → i ≤ dLen s + eLen s →
    (if i = 0 then 3 else 112) < (workAt s i).toNat →
    exec .dotStream s = .next { s with err := true, errCode := .rangeCw, done := true, pending := none }) ∧
  (∀ (s : State) (j h w : Nat), (s.widthReq.toNat = 0 ∨ (5 ≤ s.widthReq.toNat ∧ s.widthReq.toNat ≤ 200)) →
    (h, w) = sizeFor s.params (dLen s) (eccAt s.params.eccFn (dLen s)) s.widthReq.toNat →
    5 ≤ h → h ≤ 200 → 5 ≤ w → w ≤ 200 → j < dLen s → 112 < (srcAt s j).toNat →
    exec .run s = .next { s with err := true, errCode := .rangeCw, done := true, pending := none })

/-- Every command completes, and either ends with one of the codes R253 gives it and changes nothing but STATUS (R256), or
records no error: ERR and ERRCODE are then as before, an earlier error among them (R261), but for SRESET. -/
def Obligations.ErrorsChangeOnlyStatus : Prop :=
  ∀ (i : Instr) (s : State),
    (∃ c ∈ errorsOf i, exec i s = .next { s with err := true, errCode := c, done := true, pending := none }) ∨
    (∃ t, exec i s = .next t ∧ t.done = true ∧ t.pending = none ∧
      (i ≠ .sreset → t.err = s.err ∧ t.errCode = s.errCode))

/-- No command but SRESET writes CTRL, WIDTH_REQ, MASK_CFG or PAD_CFG (R235), STATUS.OVR or STATUS.BERR, and none changes
the parameters, the schedule or the bus answer. -/
def Obligations.CommandsKeepTheHostsRegisters : Prop :=
  ∀ (i : Instr) (s : State), i ≠ .sreset →
    ∃ t, exec i s = .next t ∧ t.irqEn = s.irqEn ∧ t.widthReq = s.widthReq ∧ t.pinMask = s.pinMask ∧
      t.pinEn = s.pinEn ∧ t.binFinish = s.binFinish ∧ t.ovr = s.ovr ∧ t.berr = s.berr ∧ t.params = s.params ∧
      t.turns = s.turns ∧ t.response = s.response ∧ t.inReset = s.inReset

/-! ### The bus, STATUS and the interrupt -/

/-- A write of `v` to STATUS, at any time, clears DONE, ERR with ERRCODE, OVR and BERR by the bits 1 to 4 of `v` and does
nothing else; when a command completes in the same instant, the completion wins: DONE reads 1, and ERR with the command's
code if it ended with an error, also where ERR was 1 and the write clears it; ERR and ERRCODE are as the write leaves them if
it ended without one (R26; that the write comes first is log 10). Whether a command ends with an error is read off its
execution from the state with ERR 0. -/
def Obligations.StatusWriteOneToClear : Prop :=
  (∀ (s : State) (v : Word), s.inReset = false →
    busTransaction ⟨0x008, 0xF, .write v⟩ s = { s with
      done := s.done && !v.getLsbD 1
      err := s.err && !v.getLsbD 2
      errCode := if v.getLsbD 2 then .none else s.errCode
      ovr := s.ovr && !v.getLsbD 3
      berr := s.berr && !v.getLsbD 4
      response := some ⟨false, 0⟩ }) ∧
  (∀ (s : State) (v w : Word) (rest : List Turn), s.inReset = false → s.pending = some w →
    s.turns = .together ⟨0x008, 0xF, .write v⟩ :: rest →
    ∃ t, step s = .next t ∧ t.done = true ∧ t.pending = none ∧
      (wordWf w = false → t.err = true ∧ t.errCode = .illegalCmd) ∧
      (∀ i c, decode w = .ok i →
        exec i { s with err := false, errCode := .none } =
          .next { s with err := true, errCode := c, done := true, pending := none } →
        t.err = true ∧ t.errCode = c) ∧
      (∀ i u, decode w = .ok i → i ≠ .sreset → exec i { s with err := false, errCode := .none } = .next u →
        u.err = false →
        t.err = (s.err && !v.getLsbD 2) ∧ t.errCode = if v.getLsbD 2 then .none else s.errCode))

/-- While BUSY is 1, a write to CTRL or STATUS takes effect as when idle, and every other admitted write is dropped: it
answers done, sets OVR and changes nothing else (R75, R236, R258). -/
def Obligations.WritesWhileBusyAreDropped : Prop :=
  (∀ (s : State) (t : Txn) (p : Place) (v : Word), s.inReset = false → busy s = true → admitted t = some p →
    t.access = .write v → p ≠ .reg .ctrl → p ≠ .reg .status →
    busTransaction t s = { s with ovr := true, response := some ⟨false, 0⟩ }) ∧
  (∀ (s : State) (v : Word), s.inReset = false →
    busTransaction ⟨0x004, 0xF, .write v⟩ s = { s with irqEn := v.getLsbD 0, response := some ⟨false, 0⟩ }) ∧
  (∀ (s : State) (v : Word), s.inReset = false →
    busTransaction ⟨0x008, 0xF, .write v⟩ s = { clearStatus v s with response := some ⟨false, 0⟩ })

/-- While BUSY is 1, reads of ID, CTRL and STATUS return their value; every other admitted read is answered without the
error response, sets no flag and changes no register and no buffer, whatever value it returns (R74). -/
def Obligations.ReadsWhileBusy : Prop :=
  (∀ s : State, s.inReset = false →
    busTransaction ⟨0x000, 0xF, .read⟩ s = { s with response := some ⟨false, 0x44434C01⟩ } ∧
    busTransaction ⟨0x004, 0xF, .read⟩ s = { s with response := some ⟨false, (BitVec.ofBool s.irqEn).setWidth 32⟩ } ∧
    busTransaction ⟨0x008, 0xF, .read⟩ s = { s with response := some ⟨false, statusWord s⟩ }) ∧
  (∀ (s : State) (t : Txn) (p : Place), s.inReset = false → busy s = true → admitted t = some p → t.access = .read →
    p ≠ .reg .id → p ≠ .reg .ctrl → p ≠ .reg .status →
    ∃ v, busTransaction t s = { s with response := some ⟨false, v⟩, draws := s.draws + 1 })

/-- A misaligned, partial-width or unmapped transaction, whether BUSY is 0 or 1, returns the bus error response with the
word 0, sets BERR and changes nothing else (R48, R68, R69, R71, R257). -/
def Obligations.RefusedTransactionsSetBerr : Prop :=
  ∀ (s : State) (t : Txn), s.inReset = false →
    (t.addr.toNat % 4 ≠ 0 ∨ t.lanes ≠ 0xF#4 ∨ (0xC4 ≤ t.addr.toNat ∧ t.addr.toNat < 0x40000) ∨
      (0x44000 ≤ t.addr.toNat ∧ t.addr.toNat < 0x80000) ∨ (0x84000 ≤ t.addr.toNat ∧ t.addr.toNat < 0xC0000) ∨
      (0xD3880 ≤ t.addr.toNat ∧ t.addr.toNat < 0x100000) ∨ 0x127100 ≤ t.addr.toNat) →
    busTransaction t s = { s with berr := true, response := some ⟨true, 0⟩ }

/-- The register map (R23, R47): every register answers at the offset R23 gives it and nowhere else; an idle host's read of any
register answers its value, what the commands wrote among it, and changes nothing (R70, R73); that value has every field at the
bits R23 gives it and 0 in the others, ERRCODE the number R252 gives the code; an idle host's write to a register other than
STATUS and CMD is read back in the bits that R24 to R33 and R44 make writable, is ignored by a read-only register, and changes
no other register but NDOTS and MIN_DOTS, no buffer entry and no flag. NDOTS and MIN_DOTS are DerivedRegistersFollowAtOnce,
the two-word values SplitRegistersRecombine. -/
def Obligations.RegisterMapReadsAndWrites : Prop :=
  (∀ c ∈ [(0x000, Reg.id), (0x004, .ctrl), (0x008, .status), (0x00C, .cmd), (0x010, .dataLen), (0x014, .eccLen),
      (0x018, .gridH), (0x01C, .gridW), (0x020, .widthReq), (0x024, .maskCfg), (0x028, .padCfg), (0x02C, .ndots),
      (0x030, .minDots), (0x034, .bestMask), (0x038, .scoreLo), (0x03C, .scoreHi), (0x040, .scoreFlags),
      (0x044, .streamLen), (0x048, .rsStep), (0x04C, .dotResult), (0x050, .pkAccLo), (0x054, .pkAccHi), (0x058, .pkCnt),
      (0x05C, .pkOutN), (0x0C0, .msValid)], regOffset c.2 = c.1) ∧
  (∀ k : Fin 6, regOffset (.pkOut k) = 0x060 + 4 * k.val) ∧
  (∀ m : Fin 8, regOffset (.mscoreLo m) = 0x080 + 8 * m.val ∧ regOffset (.mscoreHi m) = 0x084 + 8 * m.val) ∧
  (∀ r : Reg, regAt (regOffset r) = some r) ∧ (∀ (a : Nat) (r : Reg), regAt a = some r → regOffset r = a) ∧
  (∀ (s : State) (r : Reg), s.inReset = false → s.pending = none →
    busTransaction ⟨BitVec.ofNat 21 (regOffset r), 0xF, .read⟩ s = { s with response := some ⟨false, readReg s r⟩ }) ∧
  (∀ s : State, readReg s .id = 0x44434C01 ∧ readReg s .cmd = 0 ∧ (readReg s .ctrl).toNat = s.irqEn.toNat ∧
    (readReg s .status).toNat = 256 * errCodeNumber s.errCode + 16 * s.berr.toNat + 8 * s.ovr.toNat + 4 * s.err.toNat +
      2 * s.done.toNat + s.pending.isSome.toNat ∧
    (readReg s .dataLen).toNat = s.dataLen.toNat ∧ (readReg s .eccLen).toNat = s.eccLen.toNat ∧
    (readReg s .gridH).toNat = s.gridH.toNat ∧ (readReg s .gridW).toNat = s.gridW.toNat ∧
    (readReg s .widthReq).toNat = s.widthReq.toNat ∧
    (readReg s .maskCfg).toNat = 256 * s.pinEn.toNat + s.pinMask.toNat ∧
    (readReg s .padCfg).toNat = s.binFinish.toNat ∧
    (readReg s .bestMask).toNat = 256 * s.bmValid.toNat + s.bestMask.toNat ∧
    (readReg s .scoreFlags).toNat = 2 * s.scValid.toNat + s.reject.toNat ∧
    (readReg s .streamLen).toNat = s.streamLen.toNat ∧ (readReg s .rsStep).toNat = s.rsStep.toNat ∧
    (readReg s .dotResult).toNat = s.dotResult.toNat ∧ (readReg s .pkCnt).toNat = s.cnt.toNat ∧
    (readReg s .pkOutN).toNat = s.pkOutN.toNat ∧ (∀ k : Fin 6, (readReg s (.pkOut k)).toNat = s.pkOut[k].toNat) ∧
    (readReg s .msValid).toNat = 256 * s.msRej.toNat + s.msValid.toNat) ∧
  (∀ (s : State) (r : Reg) (v : Word), s.inReset = false → s.pending = none → r ≠ .status → r ≠ .cmd →
    ∃ t, busTransaction ⟨BitVec.ofNat 21 (regOffset r), 0xF, .write v⟩ s = t ∧
      t.response = some ⟨false, 0⟩ ∧
      (busTransaction ⟨BitVec.ofNat 21 (regOffset r), 0xF, .read⟩ t).response =
        some ⟨false, if writableBits r = 0 then readReg t r else v &&& writableBits r⟩ ∧
      (writableBits r = 0 → t = { s with response := some ⟨false, 0⟩ }) ∧
      (∀ q, q ≠ r → q ≠ .ndots → q ≠ .minDots → readReg t q = readReg s q) ∧
      t.src = s.src ∧ t.work = s.work ∧ t.stream = s.stream ∧ t.grid = s.grid ∧ t.pending = none)

/-- The buffer windows (R62): entry `i` of a buffer is at its base plus `4 * i`. An idle host's read of an entry answers its
value, whoever wrote it, with zeros above its width, and changes nothing (R70, R73); a host write to an entry of an idle DCLE
is read back cut to the entry's width, 9 bits for SRC and WORK, 1 for STREAM, 2 for GRID, and changes no other entry of any
buffer (R63 to R66, R70). -/
def Obligations.BufferEntriesReadBack : Prop :=
  (∀ c ∈ [(Buffer.src, 0x040000, 4096), (.work, 0x080000, 4096), (.stream, 0x0C0000, 20000), (.grid, 0x100000, 40000)],
    windowBase c.1 = c.2.1 ∧ depth c.1 = c.2.2) ∧
  (∀ (s : State) (b : Buffer) (i : Nat), s.inReset = false → s.pending = none → i < depth b →
    ∃ v : Word, busTransaction ⟨BitVec.ofNat 21 (windowBase b + 4 * i), 0xF, .read⟩ s =
        { s with response := some ⟨false, v⟩ } ∧
      v.toNat = (match b with
        | .src => (srcAt s i).toNat
        | .work => (workAt s i).toNat
        | .stream => (streamAt s i).toNat
        | .grid => (gridAt s i).toNat)) ∧
  (∀ (s : State) (b : Buffer) (i : Nat) (v : Word), s.inReset = false → s.pending = none → i < depth b →
    ∃ t, busTransaction ⟨BitVec.ofNat 21 (windowBase b + 4 * i), 0xF, .write v⟩ s = t ∧
      (busTransaction ⟨BitVec.ofNat 21 (windowBase b + 4 * i), 0xF, .read⟩ t).response =
        some ⟨false, (v.setWidth (match b with | .src => 9 | .work => 9 | .stream => 1 | .grid => 2)).setWidth 32⟩ ∧
      (∀ c j, (c ≠ b ∨ j ≠ i) → entryWord t c j = entryWord s c j) ∧
      t = { s with
        src := t.src, work := t.work, stream := t.stream, grid := t.grid, response := some ⟨false, 0⟩ })

/-- A CMD write while idle latches the word and raises BUSY; while a command is pending it is dropped and the pending
command is kept; a read of CMD while idle returns 0 and has no effect (R27, R236). -/
def Obligations.CmdWriteIssuesOneCommand : Prop :=
  (∀ (s : State) (w : Word), s.inReset = false → s.pending = none →
    busTransaction ⟨0x00C, 0xF, .write w⟩ s = { s with pending := some w, response := some ⟨false, 0⟩ }) ∧
  (∀ (s : State) (w x : Word), s.inReset = false → s.pending = some x →
    busTransaction ⟨0x00C, 0xF, .write w⟩ s = { s with ovr := true, response := some ⟨false, 0⟩ }) ∧
  (∀ s : State, s.inReset = false → s.pending = none →
    busTransaction ⟨0x00C, 0xF, .read⟩ s = { s with response := some ⟨false, 0⟩ }) ∧
  (∀ s : State, (statusWord s).getLsbD 0 = s.pending.isSome)

/-- NDOTS and MIN_DOTS always read the values derived from GRID_H, GRID_W, DATA_LEN and ECC_LEN; NDOTS is at most 20000,
and not cut, for dimensions in 5..200; MIN_DOTS is 2 after reset; and a write to either changes nothing (R34, R35). -/
def Obligations.DerivedRegistersFollowAtOnce : Prop :=
  (∀ s : State,
    (readReg s .ndots).toNat = s.gridH.toNat * s.gridW.toNat / 2 % 2 ^ 15 ∧
    (5 ≤ s.gridH.toNat → s.gridH.toNat ≤ 200 → 5 ≤ s.gridW.toNat → s.gridW.toNat ≤ 200 →
      (readReg s .ndots).toNat = s.gridH.toNat * s.gridW.toNat / 2 ∧ (readReg s .ndots).toNat ≤ 20000) ∧
    (readReg s .minDots).toNat = (9 * (s.dataLen.toNat + s.eccLen.toNat) + 2) % 2 ^ 17) ∧
  readReg State.reset .minDots = 2 ∧
  (∀ (s : State) (v : Word), s.inReset = false → s.pending = none →
    busTransaction ⟨0x02C, 0xF, .write v⟩ s = { s with response := some ⟨false, 0⟩ } ∧
    busTransaction ⟨0x030, 0xF, .write v⟩ s = { s with response := some ⟨false, 0⟩ })

/-- A 64-bit score, and the accumulator, are read as two words, the low one at the lower offset (R37, R38, R39, R67). -/
def Obligations.SplitRegistersRecombine : Prop :=
  ∀ s : State, readReg s .scoreHi ++ readReg s .scoreLo = s.score ∧
    (∀ m : Fin 8, readReg s (.mscoreHi m) ++ readReg s (.mscoreLo m) = s.maskScore[m]) ∧
    (readReg s .pkAccHi).toNat * 2 ^ 32 + (readReg s .pkAccLo).toNat = s.acc.toNat ∧
    regOffset .scoreLo + 4 = regOffset .scoreHi ∧ regOffset .pkAccLo + 4 = regOffset .pkAccHi ∧
    (∀ m : Fin 8, regOffset (.mscoreLo m) + 4 = regOffset (.mscoreHi m))

/-- The interrupt output is IRQ_EN and one of DONE, OVR, BERR, while reset is not asserted (R259, R280). -/
def Obligations.IrqFollowsStatus : Prop :=
  ∀ s : State, s.inReset = false →
    (irq s = true ↔ (readReg s .ctrl).getLsbD 0 = true ∧
      ((statusWord s).getLsbD 1 = true ∨ (statusWord s).getLsbD 3 = true ∨ (statusWord s).getLsbD 4 = true))

/-- Nothing the host can do between issue and completion changes what the command computes (R230): whatever transaction it
makes while the command is pending, every command but SRESET leaves the same buffers, lengths, geometry and result
registers. -/
def Obligations.BusyHostDoesNotDisturbTheCommand : Prop :=
  ∀ (s : State) (x : Txn) (w : Word) (i : Instr), s.inReset = false → s.pending = some w → i ≠ .sreset →
    ∃ t u, exec i s = .next t ∧ exec i (busTransaction x s) = .next u ∧
      u = { t with
        irqEn := u.irqEn
        done := true
        err := u.err
        errCode := u.errCode
        ovr := u.ovr
        berr := u.berr
        response := u.response
        draws := u.draws }

/-! ### Reset and the invariant -/

/-- The values of every register after reset, as the host reads them (R281): the reset column of R23, no pending command,
the interrupt output 0, and a geometry that fails geom_ok, so that every grid command raises CFG_GEOM. -/
def Obligations.ResetValuesOfTheRegisters : Prop :=
  readReg State.reset .id = 0x44434C01 ∧ readReg State.reset .minDots = 2 ∧
    (∀ r : Reg, r ≠ .id → r ≠ .minDots → readReg State.reset r = 0) ∧
    State.reset.pending = none ∧ irq State.reset = false ∧
    geomOk (gridRows State.reset) (gridCols State.reset) = false ∧
    (∀ m : BitVec 3, ∀ i ∈ [Instr.pad, .dotStream, .fold, .forceCorners, .score, .candidate m, .select],
      exec i State.reset = .next { State.reset with err := true, errCode := .cfgGeom, done := true, pending := none })

/-- Asserting and releasing the reset input, whatever was in progress, holds the interrupt output at 0 in between, and
leaves every register at its reset value, no command pending, and no buffer entry written; while reset is asserted the
engine runs no command and no transaction changes a register or a buffer (R280, R281, R282; the free answer and the draw
counter are the model's own, log 8). -/
def Obligations.HardwareResetStartsAfresh : Prop :=
  (∀ (s : State) (rest : List Turn), s.turns = .resetAssert :: .resetRelease :: rest →
    ∃ u t, step s = .next u ∧ irq u = false ∧ step u = .next t ∧
      t = { State.reset with
        params := s.params, epoch := s.epoch + 1, draws := s.draws, response := s.response, turns := rest }) ∧
  (∀ (s : State) (x : Txn), s.inReset = true →
    engineTurn s = .next s ∧ ∃ a, busTransaction x s = { s with response := a, draws := s.draws + 1 })

/-- The invariant holds right after reset, for the parameters State.reset is stated with. -/
def Obligations.ResetMeetsTheInvariant : Prop := Inv State.reset

/-- Every step from every state that meets the invariant answers a next state that meets it: the buffers stay in canonical
form, the packer keeps CNT at 0..4 and ACC below 259^CNT (R116), PK_OUT holds base-103 digits, ERRCODE is 0 exactly when
ERR is 0 (R25), RS_STEP is at most 37 (R45), STREAM_LEN at most 20000 (R43), and no command is pending in reset; no step
changes the parameters (R100). What it asks of the parameters is R8, and log 13 of SIZE_TIE. -/
def Obligations.EveryStepKeepsTheInvariant : Prop :=
  ∀ s : State, Inv s → ∃ t, step s = .next t ∧ Inv t ∧ t.params = s.params
end

