-- ==== Sys2Proof/Laws/State.lean ====
section
/-! SUPPORT. One lemma per field per named update of State, each true by rfl, so that no proof unfolds a record update. -/

namespace Sys2Proof.Machine

@[simp] theorem complete_params (s : State) : (complete s).params = s.params := rfl
@[simp] theorem complete_irqEn (s : State) : (complete s).irqEn = s.irqEn := rfl
@[simp] theorem complete_done (s : State) : (complete s).done = true := rfl
@[simp] theorem complete_err (s : State) : (complete s).err = s.err := rfl
@[simp] theorem complete_ovr (s : State) : (complete s).ovr = s.ovr := rfl
@[simp] theorem complete_berr (s : State) : (complete s).berr = s.berr := rfl
@[simp] theorem complete_errCode (s : State) : (complete s).errCode = s.errCode := rfl
@[simp] theorem complete_pending (s : State) : (complete s).pending = none := rfl
@[simp] theorem complete_dataLen (s : State) : (complete s).dataLen = s.dataLen := rfl
@[simp] theorem complete_eccLen (s : State) : (complete s).eccLen = s.eccLen := rfl
@[simp] theorem complete_gridH (s : State) : (complete s).gridH = s.gridH := rfl
@[simp] theorem complete_gridW (s : State) : (complete s).gridW = s.gridW := rfl
@[simp] theorem complete_widthReq (s : State) : (complete s).widthReq = s.widthReq := rfl
@[simp] theorem complete_pinMask (s : State) : (complete s).pinMask = s.pinMask := rfl
@[simp] theorem complete_pinEn (s : State) : (complete s).pinEn = s.pinEn := rfl
@[simp] theorem complete_binFinish (s : State) : (complete s).binFinish = s.binFinish := rfl
@[simp] theorem complete_bestMask (s : State) : (complete s).bestMask = s.bestMask := rfl
@[simp] theorem complete_bmValid (s : State) : (complete s).bmValid = s.bmValid := rfl
@[simp] theorem complete_score (s : State) : (complete s).score = s.score := rfl
@[simp] theorem complete_reject (s : State) : (complete s).reject = s.reject := rfl
@[simp] theorem complete_scValid (s : State) : (complete s).scValid = s.scValid := rfl
@[simp] theorem complete_maskScore (s : State) : (complete s).maskScore = s.maskScore := rfl
@[simp] theorem complete_msValid (s : State) : (complete s).msValid = s.msValid := rfl
@[simp] theorem complete_msRej (s : State) : (complete s).msRej = s.msRej := rfl
@[simp] theorem complete_streamLen (s : State) : (complete s).streamLen = s.streamLen := rfl
@[simp] theorem complete_rsStep (s : State) : (complete s).rsStep = s.rsStep := rfl
@[simp] theorem complete_dotResult (s : State) : (complete s).dotResult = s.dotResult := rfl
@[simp] theorem complete_acc (s : State) : (complete s).acc = s.acc := rfl
@[simp] theorem complete_cnt (s : State) : (complete s).cnt = s.cnt := rfl
@[simp] theorem complete_pkOutN (s : State) : (complete s).pkOutN = s.pkOutN := rfl
@[simp] theorem complete_pkOut (s : State) : (complete s).pkOut = s.pkOut := rfl
@[simp] theorem complete_src (s : State) : (complete s).src = s.src := rfl
@[simp] theorem complete_work (s : State) : (complete s).work = s.work := rfl
@[simp] theorem complete_stream (s : State) : (complete s).stream = s.stream := rfl
@[simp] theorem complete_grid (s : State) : (complete s).grid = s.grid := rfl
@[simp] theorem complete_inReset (s : State) : (complete s).inReset = s.inReset := rfl
@[simp] theorem complete_epoch (s : State) : (complete s).epoch = s.epoch := rfl
@[simp] theorem complete_draws (s : State) : (complete s).draws = s.draws := rfl
@[simp] theorem complete_response (s : State) : (complete s).response = s.response := rfl
@[simp] theorem complete_turns (s : State) : (complete s).turns = s.turns := rfl

@[simp] theorem raiseError_params (c : ErrCode) (s : State) : (raiseError c s).params = s.params := rfl
@[simp] theorem raiseError_irqEn (c : ErrCode) (s : State) : (raiseError c s).irqEn = s.irqEn := rfl
@[simp] theorem raiseError_done (c : ErrCode) (s : State) : (raiseError c s).done = true := rfl
@[simp] theorem raiseError_err (c : ErrCode) (s : State) : (raiseError c s).err = true := rfl
@[simp] theorem raiseError_ovr (c : ErrCode) (s : State) : (raiseError c s).ovr = s.ovr := rfl
@[simp] theorem raiseError_berr (c : ErrCode) (s : State) : (raiseError c s).berr = s.berr := rfl
@[simp] theorem raiseError_errCode (c : ErrCode) (s : State) : (raiseError c s).errCode = c := rfl
@[simp] theorem raiseError_pending (c : ErrCode) (s : State) : (raiseError c s).pending = none := rfl
@[simp] theorem raiseError_dataLen (c : ErrCode) (s : State) : (raiseError c s).dataLen = s.dataLen := rfl
@[simp] theorem raiseError_eccLen (c : ErrCode) (s : State) : (raiseError c s).eccLen = s.eccLen := rfl
@[simp] theorem raiseError_gridH (c : ErrCode) (s : State) : (raiseError c s).gridH = s.gridH := rfl
@[simp] theorem raiseError_gridW (c : ErrCode) (s : State) : (raiseError c s).gridW = s.gridW := rfl
@[simp] theorem raiseError_widthReq (c : ErrCode) (s : State) : (raiseError c s).widthReq = s.widthReq := rfl
@[simp] theorem raiseError_pinMask (c : ErrCode) (s : State) : (raiseError c s).pinMask = s.pinMask := rfl
@[simp] theorem raiseError_pinEn (c : ErrCode) (s : State) : (raiseError c s).pinEn = s.pinEn := rfl
@[simp] theorem raiseError_binFinish (c : ErrCode) (s : State) : (raiseError c s).binFinish = s.binFinish := rfl
@[simp] theorem raiseError_bestMask (c : ErrCode) (s : State) : (raiseError c s).bestMask = s.bestMask := rfl
@[simp] theorem raiseError_bmValid (c : ErrCode) (s : State) : (raiseError c s).bmValid = s.bmValid := rfl
@[simp] theorem raiseError_score (c : ErrCode) (s : State) : (raiseError c s).score = s.score := rfl
@[simp] theorem raiseError_reject (c : ErrCode) (s : State) : (raiseError c s).reject = s.reject := rfl
@[simp] theorem raiseError_scValid (c : ErrCode) (s : State) : (raiseError c s).scValid = s.scValid := rfl
@[simp] theorem raiseError_maskScore (c : ErrCode) (s : State) : (raiseError c s).maskScore = s.maskScore := rfl
@[simp] theorem raiseError_msValid (c : ErrCode) (s : State) : (raiseError c s).msValid = s.msValid := rfl
@[simp] theorem raiseError_msRej (c : ErrCode) (s : State) : (raiseError c s).msRej = s.msRej := rfl
@[simp] theorem raiseError_streamLen (c : ErrCode) (s : State) : (raiseError c s).streamLen = s.streamLen := rfl
@[simp] theorem raiseError_rsStep (c : ErrCode) (s : State) : (raiseError c s).rsStep = s.rsStep := rfl
@[simp] theorem raiseError_dotResult (c : ErrCode) (s : State) : (raiseError c s).dotResult = s.dotResult := rfl
@[simp] theorem raiseError_acc (c : ErrCode) (s : State) : (raiseError c s).acc = s.acc := rfl
@[simp] theorem raiseError_cnt (c : ErrCode) (s : State) : (raiseError c s).cnt = s.cnt := rfl
@[simp] theorem raiseError_pkOutN (c : ErrCode) (s : State) : (raiseError c s).pkOutN = s.pkOutN := rfl
@[simp] theorem raiseError_pkOut (c : ErrCode) (s : State) : (raiseError c s).pkOut = s.pkOut := rfl
@[simp] theorem raiseError_src (c : ErrCode) (s : State) : (raiseError c s).src = s.src := rfl
@[simp] theorem raiseError_work (c : ErrCode) (s : State) : (raiseError c s).work = s.work := rfl
@[simp] theorem raiseError_stream (c : ErrCode) (s : State) : (raiseError c s).stream = s.stream := rfl
@[simp] theorem raiseError_grid (c : ErrCode) (s : State) : (raiseError c s).grid = s.grid := rfl
@[simp] theorem raiseError_inReset (c : ErrCode) (s : State) : (raiseError c s).inReset = s.inReset := rfl
@[simp] theorem raiseError_epoch (c : ErrCode) (s : State) : (raiseError c s).epoch = s.epoch := rfl
@[simp] theorem raiseError_draws (c : ErrCode) (s : State) : (raiseError c s).draws = s.draws := rfl
@[simp] theorem raiseError_response (c : ErrCode) (s : State) : (raiseError c s).response = s.response := rfl
@[simp] theorem raiseError_turns (c : ErrCode) (s : State) : (raiseError c s).turns = s.turns := rfl

@[simp] theorem clearStatus_params (v : Word) (s : State) : (clearStatus v s).params = s.params := rfl
@[simp] theorem clearStatus_irqEn (v : Word) (s : State) : (clearStatus v s).irqEn = s.irqEn := rfl
@[simp] theorem clearStatus_done (v : Word) (s : State) : (clearStatus v s).done = (s.done && !v.getLsbD 1) := rfl
@[simp] theorem clearStatus_err (v : Word) (s : State) : (clearStatus v s).err = (s.err && !v.getLsbD 2) := rfl
@[simp] theorem clearStatus_ovr (v : Word) (s : State) : (clearStatus v s).ovr = (s.ovr && !v.getLsbD 3) := rfl
@[simp] theorem clearStatus_berr (v : Word) (s : State) : (clearStatus v s).berr = (s.berr && !v.getLsbD 4) := rfl
@[simp] theorem clearStatus_errCode (v : Word) (s : State) : (clearStatus v s).errCode = (if v.getLsbD 2 then .none else s.errCode) := rfl
@[simp] theorem clearStatus_pending (v : Word) (s : State) : (clearStatus v s).pending = s.pending := rfl
@[simp] theorem clearStatus_dataLen (v : Word) (s : State) : (clearStatus v s).dataLen = s.dataLen := rfl
@[simp] theorem clearStatus_eccLen (v : Word) (s : State) : (clearStatus v s).eccLen = s.eccLen := rfl
@[simp] theorem clearStatus_gridH (v : Word) (s : State) : (clearStatus v s).gridH = s.gridH := rfl
@[simp] theorem clearStatus_gridW (v : Word) (s : State) : (clearStatus v s).gridW = s.gridW := rfl
@[simp] theorem clearStatus_widthReq (v : Word) (s : State) : (clearStatus v s).widthReq = s.widthReq := rfl
@[simp] theorem clearStatus_pinMask (v : Word) (s : State) : (clearStatus v s).pinMask = s.pinMask := rfl
@[simp] theorem clearStatus_pinEn (v : Word) (s : State) : (clearStatus v s).pinEn = s.pinEn := rfl
@[simp] theorem clearStatus_binFinish (v : Word) (s : State) : (clearStatus v s).binFinish = s.binFinish := rfl
@[simp] theorem clearStatus_bestMask (v : Word) (s : State) : (clearStatus v s).bestMask = s.bestMask := rfl
@[simp] theorem clearStatus_bmValid (v : Word) (s : State) : (clearStatus v s).bmValid = s.bmValid := rfl
@[simp] theorem clearStatus_score (v : Word) (s : State) : (clearStatus v s).score = s.score := rfl
@[simp] theorem clearStatus_reject (v : Word) (s : State) : (clearStatus v s).reject = s.reject := rfl
@[simp] theorem clearStatus_scValid (v : Word) (s : State) : (clearStatus v s).scValid = s.scValid := rfl
@[simp] theorem clearStatus_maskScore (v : Word) (s : State) : (clearStatus v s).maskScore = s.maskScore := rfl
@[simp] theorem clearStatus_msValid (v : Word) (s : State) : (clearStatus v s).msValid = s.msValid := rfl
@[simp] theorem clearStatus_msRej (v : Word) (s : State) : (clearStatus v s).msRej = s.msRej := rfl
@[simp] theorem clearStatus_streamLen (v : Word) (s : State) : (clearStatus v s).streamLen = s.streamLen := rfl
@[simp] theorem clearStatus_rsStep (v : Word) (s : State) : (clearStatus v s).rsStep = s.rsStep := rfl
@[simp] theorem clearStatus_dotResult (v : Word) (s : State) : (clearStatus v s).dotResult = s.dotResult := rfl
@[simp] theorem clearStatus_acc (v : Word) (s : State) : (clearStatus v s).acc = s.acc := rfl
@[simp] theorem clearStatus_cnt (v : Word) (s : State) : (clearStatus v s).cnt = s.cnt := rfl
@[simp] theorem clearStatus_pkOutN (v : Word) (s : State) : (clearStatus v s).pkOutN = s.pkOutN := rfl
@[simp] theorem clearStatus_pkOut (v : Word) (s : State) : (clearStatus v s).pkOut = s.pkOut := rfl
@[simp] theorem clearStatus_src (v : Word) (s : State) : (clearStatus v s).src = s.src := rfl
@[simp] theorem clearStatus_work (v : Word) (s : State) : (clearStatus v s).work = s.work := rfl
@[simp] theorem clearStatus_stream (v : Word) (s : State) : (clearStatus v s).stream = s.stream := rfl
@[simp] theorem clearStatus_grid (v : Word) (s : State) : (clearStatus v s).grid = s.grid := rfl
@[simp] theorem clearStatus_inReset (v : Word) (s : State) : (clearStatus v s).inReset = s.inReset := rfl
@[simp] theorem clearStatus_epoch (v : Word) (s : State) : (clearStatus v s).epoch = s.epoch := rfl
@[simp] theorem clearStatus_draws (v : Word) (s : State) : (clearStatus v s).draws = s.draws := rfl
@[simp] theorem clearStatus_response (v : Word) (s : State) : (clearStatus v s).response = s.response := rfl
@[simp] theorem clearStatus_turns (v : Word) (s : State) : (clearStatus v s).turns = s.turns := rfl

@[simp] theorem putSrc_params (base : Nat) (vs : List Codeword) (s : State) : (putSrc s base vs).params = s.params := rfl
@[simp] theorem putSrc_irqEn (base : Nat) (vs : List Codeword) (s : State) : (putSrc s base vs).irqEn = s.irqEn := rfl
@[simp] theorem putSrc_done (base : Nat) (vs : List Codeword) (s : State) : (putSrc s base vs).done = s.done := rfl
@[simp] theorem putSrc_err (base : Nat) (vs : List Codeword) (s : State) : (putSrc s base vs).err = s.err := rfl
@[simp] theorem putSrc_ovr (base : Nat) (vs : List Codeword) (s : State) : (putSrc s base vs).ovr = s.ovr := rfl
@[simp] theorem putSrc_berr (base : Nat) (vs : List Codeword) (s : State) : (putSrc s base vs).berr = s.berr := rfl
@[simp] theorem putSrc_errCode (base : Nat) (vs : List Codeword) (s : State) : (putSrc s base vs).errCode = s.errCode := rfl
@[simp] theorem putSrc_pending (base : Nat) (vs : List Codeword) (s : State) : (putSrc s base vs).pending = s.pending := rfl
@[simp] theorem putSrc_dataLen (base : Nat) (vs : List Codeword) (s : State) : (putSrc s base vs).dataLen = s.dataLen := rfl
@[simp] theorem putSrc_eccLen (base : Nat) (vs : List Codeword) (s : State) : (putSrc s base vs).eccLen = s.eccLen := rfl
@[simp] theorem putSrc_gridH (base : Nat) (vs : List Codeword) (s : State) : (putSrc s base vs).gridH = s.gridH := rfl
@[simp] theorem putSrc_gridW (base : Nat) (vs : List Codeword) (s : State) : (putSrc s base vs).gridW = s.gridW := rfl
@[simp] theorem putSrc_widthReq (base : Nat) (vs : List Codeword) (s : State) : (putSrc s base vs).widthReq = s.widthReq := rfl
@[simp] theorem putSrc_pinMask (base : Nat) (vs : List Codeword) (s : State) : (putSrc s base vs).pinMask = s.pinMask := rfl
@[simp] theorem putSrc_pinEn (base : Nat) (vs : List Codeword) (s : State) : (putSrc s base vs).pinEn = s.pinEn := rfl
@[simp] theorem putSrc_binFinish (base : Nat) (vs : List Codeword) (s : State) : (putSrc s base vs).binFinish = s.binFinish := rfl
@[simp] theorem putSrc_bestMask (base : Nat) (vs : List Codeword) (s : State) : (putSrc s base vs).bestMask = s.bestMask := rfl
@[simp] theorem putSrc_bmValid (base : Nat) (vs : List Codeword) (s : State) : (putSrc s base vs).bmValid = s.bmValid := rfl
@[simp] theorem putSrc_score (base : Nat) (vs : List Codeword) (s : State) : (putSrc s base vs).score = s.score := rfl
@[simp] theorem putSrc_reject (base : Nat) (vs : List Codeword) (s : State) : (putSrc s base vs).reject = s.reject := rfl
@[simp] theorem putSrc_scValid (base : Nat) (vs : List Codeword) (s : State) : (putSrc s base vs).scValid = s.scValid := rfl
@[simp] theorem putSrc_maskScore (base : Nat) (vs : List Codeword) (s : State) : (putSrc s base vs).maskScore = s.maskScore := rfl
@[simp] theorem putSrc_msValid (base : Nat) (vs : List Codeword) (s : State) : (putSrc s base vs).msValid = s.msValid := rfl
@[simp] theorem putSrc_msRej (base : Nat) (vs : List Codeword) (s : State) : (putSrc s base vs).msRej = s.msRej := rfl
@[simp] theorem putSrc_streamLen (base : Nat) (vs : List Codeword) (s : State) : (putSrc s base vs).streamLen = s.streamLen := rfl
@[simp] theorem putSrc_rsStep (base : Nat) (vs : List Codeword) (s : State) : (putSrc s base vs).rsStep = s.rsStep := rfl
@[simp] theorem putSrc_dotResult (base : Nat) (vs : List Codeword) (s : State) : (putSrc s base vs).dotResult = s.dotResult := rfl
@[simp] theorem putSrc_acc (base : Nat) (vs : List Codeword) (s : State) : (putSrc s base vs).acc = s.acc := rfl
@[simp] theorem putSrc_cnt (base : Nat) (vs : List Codeword) (s : State) : (putSrc s base vs).cnt = s.cnt := rfl
@[simp] theorem putSrc_pkOutN (base : Nat) (vs : List Codeword) (s : State) : (putSrc s base vs).pkOutN = s.pkOutN := rfl
@[simp] theorem putSrc_pkOut (base : Nat) (vs : List Codeword) (s : State) : (putSrc s base vs).pkOut = s.pkOut := rfl
@[simp] theorem putSrc_src (base : Nat) (vs : List Codeword) (s : State) : (putSrc s base vs).src = memWrite s.src base (clip .src base vs) := rfl
@[simp] theorem putSrc_work (base : Nat) (vs : List Codeword) (s : State) : (putSrc s base vs).work = s.work := rfl
@[simp] theorem putSrc_stream (base : Nat) (vs : List Codeword) (s : State) : (putSrc s base vs).stream = s.stream := rfl
@[simp] theorem putSrc_grid (base : Nat) (vs : List Codeword) (s : State) : (putSrc s base vs).grid = s.grid := rfl
@[simp] theorem putSrc_inReset (base : Nat) (vs : List Codeword) (s : State) : (putSrc s base vs).inReset = s.inReset := rfl
@[simp] theorem putSrc_epoch (base : Nat) (vs : List Codeword) (s : State) : (putSrc s base vs).epoch = s.epoch := rfl
@[simp] theorem putSrc_draws (base : Nat) (vs : List Codeword) (s : State) : (putSrc s base vs).draws = s.draws := rfl
@[simp] theorem putSrc_response (base : Nat) (vs : List Codeword) (s : State) : (putSrc s base vs).response = s.response := rfl
@[simp] theorem putSrc_turns (base : Nat) (vs : List Codeword) (s : State) : (putSrc s base vs).turns = s.turns := rfl

@[simp] theorem putWork_params (base : Nat) (vs : List Codeword) (s : State) : (putWork s base vs).params = s.params := rfl
@[simp] theorem putWork_irqEn (base : Nat) (vs : List Codeword) (s : State) : (putWork s base vs).irqEn = s.irqEn := rfl
@[simp] theorem putWork_done (base : Nat) (vs : List Codeword) (s : State) : (putWork s base vs).done = s.done := rfl
@[simp] theorem putWork_err (base : Nat) (vs : List Codeword) (s : State) : (putWork s base vs).err = s.err := rfl
@[simp] theorem putWork_ovr (base : Nat) (vs : List Codeword) (s : State) : (putWork s base vs).ovr = s.ovr := rfl
@[simp] theorem putWork_berr (base : Nat) (vs : List Codeword) (s : State) : (putWork s base vs).berr = s.berr := rfl
@[simp] theorem putWork_errCode (base : Nat) (vs : List Codeword) (s : State) : (putWork s base vs).errCode = s.errCode := rfl
@[simp] theorem putWork_pending (base : Nat) (vs : List Codeword) (s : State) : (putWork s base vs).pending = s.pending := rfl
@[simp] theorem putWork_dataLen (base : Nat) (vs : List Codeword) (s : State) : (putWork s base vs).dataLen = s.dataLen := rfl
@[simp] theorem putWork_eccLen (base : Nat) (vs : List Codeword) (s : State) : (putWork s base vs).eccLen = s.eccLen := rfl
@[simp] theorem putWork_gridH (base : Nat) (vs : List Codeword) (s : State) : (putWork s base vs).gridH = s.gridH := rfl
@[simp] theorem putWork_gridW (base : Nat) (vs : List Codeword) (s : State) : (putWork s base vs).gridW = s.gridW := rfl
@[simp] theorem putWork_widthReq (base : Nat) (vs : List Codeword) (s : State) : (putWork s base vs).widthReq = s.widthReq := rfl
@[simp] theorem putWork_pinMask (base : Nat) (vs : List Codeword) (s : State) : (putWork s base vs).pinMask = s.pinMask := rfl
@[simp] theorem putWork_pinEn (base : Nat) (vs : List Codeword) (s : State) : (putWork s base vs).pinEn = s.pinEn := rfl
@[simp] theorem putWork_binFinish (base : Nat) (vs : List Codeword) (s : State) : (putWork s base vs).binFinish = s.binFinish := rfl
@[simp] theorem putWork_bestMask (base : Nat) (vs : List Codeword) (s : State) : (putWork s base vs).bestMask = s.bestMask := rfl
@[simp] theorem putWork_bmValid (base : Nat) (vs : List Codeword) (s : State) : (putWork s base vs).bmValid = s.bmValid := rfl
@[simp] theorem putWork_score (base : Nat) (vs : List Codeword) (s : State) : (putWork s base vs).score = s.score := rfl
@[simp] theorem putWork_reject (base : Nat) (vs : List Codeword) (s : State) : (putWork s base vs).reject = s.reject := rfl
@[simp] theorem putWork_scValid (base : Nat) (vs : List Codeword) (s : State) : (putWork s base vs).scValid = s.scValid := rfl
@[simp] theorem putWork_maskScore (base : Nat) (vs : List Codeword) (s : State) : (putWork s base vs).maskScore = s.maskScore := rfl
@[simp] theorem putWork_msValid (base : Nat) (vs : List Codeword) (s : State) : (putWork s base vs).msValid = s.msValid := rfl
@[simp] theorem putWork_msRej (base : Nat) (vs : List Codeword) (s : State) : (putWork s base vs).msRej = s.msRej := rfl
@[simp] theorem putWork_streamLen (base : Nat) (vs : List Codeword) (s : State) : (putWork s base vs).streamLen = s.streamLen := rfl
@[simp] theorem putWork_rsStep (base : Nat) (vs : List Codeword) (s : State) : (putWork s base vs).rsStep = s.rsStep := rfl
@[simp] theorem putWork_dotResult (base : Nat) (vs : List Codeword) (s : State) : (putWork s base vs).dotResult = s.dotResult := rfl
@[simp] theorem putWork_acc (base : Nat) (vs : List Codeword) (s : State) : (putWork s base vs).acc = s.acc := rfl
@[simp] theorem putWork_cnt (base : Nat) (vs : List Codeword) (s : State) : (putWork s base vs).cnt = s.cnt := rfl
@[simp] theorem putWork_pkOutN (base : Nat) (vs : List Codeword) (s : State) : (putWork s base vs).pkOutN = s.pkOutN := rfl
@[simp] theorem putWork_pkOut (base : Nat) (vs : List Codeword) (s : State) : (putWork s base vs).pkOut = s.pkOut := rfl
@[simp] theorem putWork_src (base : Nat) (vs : List Codeword) (s : State) : (putWork s base vs).src = s.src := rfl
@[simp] theorem putWork_work (base : Nat) (vs : List Codeword) (s : State) : (putWork s base vs).work = memWrite s.work base (clip .work base vs) := rfl
@[simp] theorem putWork_stream (base : Nat) (vs : List Codeword) (s : State) : (putWork s base vs).stream = s.stream := rfl
@[simp] theorem putWork_grid (base : Nat) (vs : List Codeword) (s : State) : (putWork s base vs).grid = s.grid := rfl
@[simp] theorem putWork_inReset (base : Nat) (vs : List Codeword) (s : State) : (putWork s base vs).inReset = s.inReset := rfl
@[simp] theorem putWork_epoch (base : Nat) (vs : List Codeword) (s : State) : (putWork s base vs).epoch = s.epoch := rfl
@[simp] theorem putWork_draws (base : Nat) (vs : List Codeword) (s : State) : (putWork s base vs).draws = s.draws := rfl
@[simp] theorem putWork_response (base : Nat) (vs : List Codeword) (s : State) : (putWork s base vs).response = s.response := rfl
@[simp] theorem putWork_turns (base : Nat) (vs : List Codeword) (s : State) : (putWork s base vs).turns = s.turns := rfl

@[simp] theorem putStream_params (base : Nat) (vs : List (BitVec 1)) (s : State) : (putStream s base vs).params = s.params := rfl
@[simp] theorem putStream_irqEn (base : Nat) (vs : List (BitVec 1)) (s : State) : (putStream s base vs).irqEn = s.irqEn := rfl
@[simp] theorem putStream_done (base : Nat) (vs : List (BitVec 1)) (s : State) : (putStream s base vs).done = s.done := rfl
@[simp] theorem putStream_err (base : Nat) (vs : List (BitVec 1)) (s : State) : (putStream s base vs).err = s.err := rfl
@[simp] theorem putStream_ovr (base : Nat) (vs : List (BitVec 1)) (s : State) : (putStream s base vs).ovr = s.ovr := rfl
@[simp] theorem putStream_berr (base : Nat) (vs : List (BitVec 1)) (s : State) : (putStream s base vs).berr = s.berr := rfl
@[simp] theorem putStream_errCode (base : Nat) (vs : List (BitVec 1)) (s : State) : (putStream s base vs).errCode = s.errCode := rfl
@[simp] theorem putStream_pending (base : Nat) (vs : List (BitVec 1)) (s : State) : (putStream s base vs).pending = s.pending := rfl
@[simp] theorem putStream_dataLen (base : Nat) (vs : List (BitVec 1)) (s : State) : (putStream s base vs).dataLen = s.dataLen := rfl
@[simp] theorem putStream_eccLen (base : Nat) (vs : List (BitVec 1)) (s : State) : (putStream s base vs).eccLen = s.eccLen := rfl
@[simp] theorem putStream_gridH (base : Nat) (vs : List (BitVec 1)) (s : State) : (putStream s base vs).gridH = s.gridH := rfl
@[simp] theorem putStream_gridW (base : Nat) (vs : List (BitVec 1)) (s : State) : (putStream s base vs).gridW = s.gridW := rfl
@[simp] theorem putStream_widthReq (base : Nat) (vs : List (BitVec 1)) (s : State) : (putStream s base vs).widthReq = s.widthReq := rfl
@[simp] theorem putStream_pinMask (base : Nat) (vs : List (BitVec 1)) (s : State) : (putStream s base vs).pinMask = s.pinMask := rfl
@[simp] theorem putStream_pinEn (base : Nat) (vs : List (BitVec 1)) (s : State) : (putStream s base vs).pinEn = s.pinEn := rfl
@[simp] theorem putStream_binFinish (base : Nat) (vs : List (BitVec 1)) (s : State) : (putStream s base vs).binFinish = s.binFinish := rfl
@[simp] theorem putStream_bestMask (base : Nat) (vs : List (BitVec 1)) (s : State) : (putStream s base vs).bestMask = s.bestMask := rfl
@[simp] theorem putStream_bmValid (base : Nat) (vs : List (BitVec 1)) (s : State) : (putStream s base vs).bmValid = s.bmValid := rfl
@[simp] theorem putStream_score (base : Nat) (vs : List (BitVec 1)) (s : State) : (putStream s base vs).score = s.score := rfl
@[simp] theorem putStream_reject (base : Nat) (vs : List (BitVec 1)) (s : State) : (putStream s base vs).reject = s.reject := rfl
@[simp] theorem putStream_scValid (base : Nat) (vs : List (BitVec 1)) (s : State) : (putStream s base vs).scValid = s.scValid := rfl
@[simp] theorem putStream_maskScore (base : Nat) (vs : List (BitVec 1)) (s : State) : (putStream s base vs).maskScore = s.maskScore := rfl
@[simp] theorem putStream_msValid (base : Nat) (vs : List (BitVec 1)) (s : State) : (putStream s base vs).msValid = s.msValid := rfl
@[simp] theorem putStream_msRej (base : Nat) (vs : List (BitVec 1)) (s : State) : (putStream s base vs).msRej = s.msRej := rfl
@[simp] theorem putStream_streamLen (base : Nat) (vs : List (BitVec 1)) (s : State) : (putStream s base vs).streamLen = s.streamLen := rfl
@[simp] theorem putStream_rsStep (base : Nat) (vs : List (BitVec 1)) (s : State) : (putStream s base vs).rsStep = s.rsStep := rfl
@[simp] theorem putStream_dotResult (base : Nat) (vs : List (BitVec 1)) (s : State) : (putStream s base vs).dotResult = s.dotResult := rfl
@[simp] theorem putStream_acc (base : Nat) (vs : List (BitVec 1)) (s : State) : (putStream s base vs).acc = s.acc := rfl
@[simp] theorem putStream_cnt (base : Nat) (vs : List (BitVec 1)) (s : State) : (putStream s base vs).cnt = s.cnt := rfl
@[simp] theorem putStream_pkOutN (base : Nat) (vs : List (BitVec 1)) (s : State) : (putStream s base vs).pkOutN = s.pkOutN := rfl
@[simp] theorem putStream_pkOut (base : Nat) (vs : List (BitVec 1)) (s : State) : (putStream s base vs).pkOut = s.pkOut := rfl
@[simp] theorem putStream_src (base : Nat) (vs : List (BitVec 1)) (s : State) : (putStream s base vs).src = s.src := rfl
@[simp] theorem putStream_work (base : Nat) (vs : List (BitVec 1)) (s : State) : (putStream s base vs).work = s.work := rfl
@[simp] theorem putStream_stream (base : Nat) (vs : List (BitVec 1)) (s : State) : (putStream s base vs).stream = memWrite s.stream base (clip .stream base vs) := rfl
@[simp] theorem putStream_grid (base : Nat) (vs : List (BitVec 1)) (s : State) : (putStream s base vs).grid = s.grid := rfl
@[simp] theorem putStream_inReset (base : Nat) (vs : List (BitVec 1)) (s : State) : (putStream s base vs).inReset = s.inReset := rfl
@[simp] theorem putStream_epoch (base : Nat) (vs : List (BitVec 1)) (s : State) : (putStream s base vs).epoch = s.epoch := rfl
@[simp] theorem putStream_draws (base : Nat) (vs : List (BitVec 1)) (s : State) : (putStream s base vs).draws = s.draws := rfl
@[simp] theorem putStream_response (base : Nat) (vs : List (BitVec 1)) (s : State) : (putStream s base vs).response = s.response := rfl
@[simp] theorem putStream_turns (base : Nat) (vs : List (BitVec 1)) (s : State) : (putStream s base vs).turns = s.turns := rfl

@[simp] theorem putGrid_params (base : Nat) (vs : List CellCode) (s : State) : (putGrid s base vs).params = s.params := rfl
@[simp] theorem putGrid_irqEn (base : Nat) (vs : List CellCode) (s : State) : (putGrid s base vs).irqEn = s.irqEn := rfl
@[simp] theorem putGrid_done (base : Nat) (vs : List CellCode) (s : State) : (putGrid s base vs).done = s.done := rfl
@[simp] theorem putGrid_err (base : Nat) (vs : List CellCode) (s : State) : (putGrid s base vs).err = s.err := rfl
@[simp] theorem putGrid_ovr (base : Nat) (vs : List CellCode) (s : State) : (putGrid s base vs).ovr = s.ovr := rfl
@[simp] theorem putGrid_berr (base : Nat) (vs : List CellCode) (s : State) : (putGrid s base vs).berr = s.berr := rfl
@[simp] theorem putGrid_errCode (base : Nat) (vs : List CellCode) (s : State) : (putGrid s base vs).errCode = s.errCode := rfl
@[simp] theorem putGrid_pending (base : Nat) (vs : List CellCode) (s : State) : (putGrid s base vs).pending = s.pending := rfl
@[simp] theorem putGrid_dataLen (base : Nat) (vs : List CellCode) (s : State) : (putGrid s base vs).dataLen = s.dataLen := rfl
@[simp] theorem putGrid_eccLen (base : Nat) (vs : List CellCode) (s : State) : (putGrid s base vs).eccLen = s.eccLen := rfl
@[simp] theorem putGrid_gridH (base : Nat) (vs : List CellCode) (s : State) : (putGrid s base vs).gridH = s.gridH := rfl
@[simp] theorem putGrid_gridW (base : Nat) (vs : List CellCode) (s : State) : (putGrid s base vs).gridW = s.gridW := rfl
@[simp] theorem putGrid_widthReq (base : Nat) (vs : List CellCode) (s : State) : (putGrid s base vs).widthReq = s.widthReq := rfl
@[simp] theorem putGrid_pinMask (base : Nat) (vs : List CellCode) (s : State) : (putGrid s base vs).pinMask = s.pinMask := rfl
@[simp] theorem putGrid_pinEn (base : Nat) (vs : List CellCode) (s : State) : (putGrid s base vs).pinEn = s.pinEn := rfl
@[simp] theorem putGrid_binFinish (base : Nat) (vs : List CellCode) (s : State) : (putGrid s base vs).binFinish = s.binFinish := rfl
@[simp] theorem putGrid_bestMask (base : Nat) (vs : List CellCode) (s : State) : (putGrid s base vs).bestMask = s.bestMask := rfl
@[simp] theorem putGrid_bmValid (base : Nat) (vs : List CellCode) (s : State) : (putGrid s base vs).bmValid = s.bmValid := rfl
@[simp] theorem putGrid_score (base : Nat) (vs : List CellCode) (s : State) : (putGrid s base vs).score = s.score := rfl
@[simp] theorem putGrid_reject (base : Nat) (vs : List CellCode) (s : State) : (putGrid s base vs).reject = s.reject := rfl
@[simp] theorem putGrid_scValid (base : Nat) (vs : List CellCode) (s : State) : (putGrid s base vs).scValid = s.scValid := rfl
@[simp] theorem putGrid_maskScore (base : Nat) (vs : List CellCode) (s : State) : (putGrid s base vs).maskScore = s.maskScore := rfl
@[simp] theorem putGrid_msValid (base : Nat) (vs : List CellCode) (s : State) : (putGrid s base vs).msValid = s.msValid := rfl
@[simp] theorem putGrid_msRej (base : Nat) (vs : List CellCode) (s : State) : (putGrid s base vs).msRej = s.msRej := rfl
@[simp] theorem putGrid_streamLen (base : Nat) (vs : List CellCode) (s : State) : (putGrid s base vs).streamLen = s.streamLen := rfl
@[simp] theorem putGrid_rsStep (base : Nat) (vs : List CellCode) (s : State) : (putGrid s base vs).rsStep = s.rsStep := rfl
@[simp] theorem putGrid_dotResult (base : Nat) (vs : List CellCode) (s : State) : (putGrid s base vs).dotResult = s.dotResult := rfl
@[simp] theorem putGrid_acc (base : Nat) (vs : List CellCode) (s : State) : (putGrid s base vs).acc = s.acc := rfl
@[simp] theorem putGrid_cnt (base : Nat) (vs : List CellCode) (s : State) : (putGrid s base vs).cnt = s.cnt := rfl
@[simp] theorem putGrid_pkOutN (base : Nat) (vs : List CellCode) (s : State) : (putGrid s base vs).pkOutN = s.pkOutN := rfl
@[simp] theorem putGrid_pkOut (base : Nat) (vs : List CellCode) (s : State) : (putGrid s base vs).pkOut = s.pkOut := rfl
@[simp] theorem putGrid_src (base : Nat) (vs : List CellCode) (s : State) : (putGrid s base vs).src = s.src := rfl
@[simp] theorem putGrid_work (base : Nat) (vs : List CellCode) (s : State) : (putGrid s base vs).work = s.work := rfl
@[simp] theorem putGrid_stream (base : Nat) (vs : List CellCode) (s : State) : (putGrid s base vs).stream = s.stream := rfl
@[simp] theorem putGrid_grid (base : Nat) (vs : List CellCode) (s : State) : (putGrid s base vs).grid = memWrite s.grid base (clip .grid base vs) := rfl
@[simp] theorem putGrid_inReset (base : Nat) (vs : List CellCode) (s : State) : (putGrid s base vs).inReset = s.inReset := rfl
@[simp] theorem putGrid_epoch (base : Nat) (vs : List CellCode) (s : State) : (putGrid s base vs).epoch = s.epoch := rfl
@[simp] theorem putGrid_draws (base : Nat) (vs : List CellCode) (s : State) : (putGrid s base vs).draws = s.draws := rfl
@[simp] theorem putGrid_response (base : Nat) (vs : List CellCode) (s : State) : (putGrid s base vs).response = s.response := rfl
@[simp] theorem putGrid_turns (base : Nat) (vs : List CellCode) (s : State) : (putGrid s base vs).turns = s.turns := rfl

@[simp] theorem setSize_params (hw : Nat × Nat) (s : State) : (setSize hw s).params = s.params := rfl
@[simp] theorem setSize_irqEn (hw : Nat × Nat) (s : State) : (setSize hw s).irqEn = s.irqEn := rfl
@[simp] theorem setSize_done (hw : Nat × Nat) (s : State) : (setSize hw s).done = s.done := rfl
@[simp] theorem setSize_err (hw : Nat × Nat) (s : State) : (setSize hw s).err = s.err := rfl
@[simp] theorem setSize_ovr (hw : Nat × Nat) (s : State) : (setSize hw s).ovr = s.ovr := rfl
@[simp] theorem setSize_berr (hw : Nat × Nat) (s : State) : (setSize hw s).berr = s.berr := rfl
@[simp] theorem setSize_errCode (hw : Nat × Nat) (s : State) : (setSize hw s).errCode = s.errCode := rfl
@[simp] theorem setSize_pending (hw : Nat × Nat) (s : State) : (setSize hw s).pending = s.pending := rfl
@[simp] theorem setSize_dataLen (hw : Nat × Nat) (s : State) : (setSize hw s).dataLen = s.dataLen := rfl
@[simp] theorem setSize_eccLen (hw : Nat × Nat) (s : State) : (setSize hw s).eccLen = s.eccLen := rfl
@[simp] theorem setSize_gridH (hw : Nat × Nat) (s : State) : (setSize hw s).gridH = BitVec.ofNat 8 hw.1 := rfl
@[simp] theorem setSize_gridW (hw : Nat × Nat) (s : State) : (setSize hw s).gridW = BitVec.ofNat 8 hw.2 := rfl
@[simp] theorem setSize_widthReq (hw : Nat × Nat) (s : State) : (setSize hw s).widthReq = s.widthReq := rfl
@[simp] theorem setSize_pinMask (hw : Nat × Nat) (s : State) : (setSize hw s).pinMask = s.pinMask := rfl
@[simp] theorem setSize_pinEn (hw : Nat × Nat) (s : State) : (setSize hw s).pinEn = s.pinEn := rfl
@[simp] theorem setSize_binFinish (hw : Nat × Nat) (s : State) : (setSize hw s).binFinish = s.binFinish := rfl
@[simp] theorem setSize_bestMask (hw : Nat × Nat) (s : State) : (setSize hw s).bestMask = s.bestMask := rfl
@[simp] theorem setSize_bmValid (hw : Nat × Nat) (s : State) : (setSize hw s).bmValid = s.bmValid := rfl
@[simp] theorem setSize_score (hw : Nat × Nat) (s : State) : (setSize hw s).score = s.score := rfl
@[simp] theorem setSize_reject (hw : Nat × Nat) (s : State) : (setSize hw s).reject = s.reject := rfl
@[simp] theorem setSize_scValid (hw : Nat × Nat) (s : State) : (setSize hw s).scValid = s.scValid := rfl
@[simp] theorem setSize_maskScore (hw : Nat × Nat) (s : State) : (setSize hw s).maskScore = s.maskScore := rfl
@[simp] theorem setSize_msValid (hw : Nat × Nat) (s : State) : (setSize hw s).msValid = s.msValid := rfl
@[simp] theorem setSize_msRej (hw : Nat × Nat) (s : State) : (setSize hw s).msRej = s.msRej := rfl
@[simp] theorem setSize_streamLen (hw : Nat × Nat) (s : State) : (setSize hw s).streamLen = s.streamLen := rfl
@[simp] theorem setSize_rsStep (hw : Nat × Nat) (s : State) : (setSize hw s).rsStep = s.rsStep := rfl
@[simp] theorem setSize_dotResult (hw : Nat × Nat) (s : State) : (setSize hw s).dotResult = s.dotResult := rfl
@[simp] theorem setSize_acc (hw : Nat × Nat) (s : State) : (setSize hw s).acc = s.acc := rfl
@[simp] theorem setSize_cnt (hw : Nat × Nat) (s : State) : (setSize hw s).cnt = s.cnt := rfl
@[simp] theorem setSize_pkOutN (hw : Nat × Nat) (s : State) : (setSize hw s).pkOutN = s.pkOutN := rfl
@[simp] theorem setSize_pkOut (hw : Nat × Nat) (s : State) : (setSize hw s).pkOut = s.pkOut := rfl
@[simp] theorem setSize_src (hw : Nat × Nat) (s : State) : (setSize hw s).src = s.src := rfl
@[simp] theorem setSize_work (hw : Nat × Nat) (s : State) : (setSize hw s).work = s.work := rfl
@[simp] theorem setSize_stream (hw : Nat × Nat) (s : State) : (setSize hw s).stream = s.stream := rfl
@[simp] theorem setSize_grid (hw : Nat × Nat) (s : State) : (setSize hw s).grid = s.grid := rfl
@[simp] theorem setSize_inReset (hw : Nat × Nat) (s : State) : (setSize hw s).inReset = s.inReset := rfl
@[simp] theorem setSize_epoch (hw : Nat × Nat) (s : State) : (setSize hw s).epoch = s.epoch := rfl
@[simp] theorem setSize_draws (hw : Nat × Nat) (s : State) : (setSize hw s).draws = s.draws := rfl
@[simp] theorem setSize_response (hw : Nat × Nat) (s : State) : (setSize hw s).response = s.response := rfl
@[simp] theorem setSize_turns (hw : Nat × Nat) (s : State) : (setSize hw s).turns = s.turns := rfl

@[simp] theorem eccLenBody_params (s : State) : (eccLenBody s).params = s.params := rfl
@[simp] theorem eccLenBody_irqEn (s : State) : (eccLenBody s).irqEn = s.irqEn := rfl
@[simp] theorem eccLenBody_done (s : State) : (eccLenBody s).done = s.done := rfl
@[simp] theorem eccLenBody_err (s : State) : (eccLenBody s).err = s.err := rfl
@[simp] theorem eccLenBody_ovr (s : State) : (eccLenBody s).ovr = s.ovr := rfl
@[simp] theorem eccLenBody_berr (s : State) : (eccLenBody s).berr = s.berr := rfl
@[simp] theorem eccLenBody_errCode (s : State) : (eccLenBody s).errCode = s.errCode := rfl
@[simp] theorem eccLenBody_pending (s : State) : (eccLenBody s).pending = s.pending := rfl
@[simp] theorem eccLenBody_dataLen (s : State) : (eccLenBody s).dataLen = s.dataLen := rfl
@[simp] theorem eccLenBody_eccLen (s : State) : (eccLenBody s).eccLen = BitVec.ofNat 12 (eccAt s.params.eccFn (dLen s)) := rfl
@[simp] theorem eccLenBody_gridH (s : State) : (eccLenBody s).gridH = s.gridH := rfl
@[simp] theorem eccLenBody_gridW (s : State) : (eccLenBody s).gridW = s.gridW := rfl
@[simp] theorem eccLenBody_widthReq (s : State) : (eccLenBody s).widthReq = s.widthReq := rfl
@[simp] theorem eccLenBody_pinMask (s : State) : (eccLenBody s).pinMask = s.pinMask := rfl
@[simp] theorem eccLenBody_pinEn (s : State) : (eccLenBody s).pinEn = s.pinEn := rfl
@[simp] theorem eccLenBody_binFinish (s : State) : (eccLenBody s).binFinish = s.binFinish := rfl
@[simp] theorem eccLenBody_bestMask (s : State) : (eccLenBody s).bestMask = s.bestMask := rfl
@[simp] theorem eccLenBody_bmValid (s : State) : (eccLenBody s).bmValid = s.bmValid := rfl
@[simp] theorem eccLenBody_score (s : State) : (eccLenBody s).score = s.score := rfl
@[simp] theorem eccLenBody_reject (s : State) : (eccLenBody s).reject = s.reject := rfl
@[simp] theorem eccLenBody_scValid (s : State) : (eccLenBody s).scValid = s.scValid := rfl
@[simp] theorem eccLenBody_maskScore (s : State) : (eccLenBody s).maskScore = s.maskScore := rfl
@[simp] theorem eccLenBody_msValid (s : State) : (eccLenBody s).msValid = s.msValid := rfl
@[simp] theorem eccLenBody_msRej (s : State) : (eccLenBody s).msRej = s.msRej := rfl
@[simp] theorem eccLenBody_streamLen (s : State) : (eccLenBody s).streamLen = s.streamLen := rfl
@[simp] theorem eccLenBody_rsStep (s : State) : (eccLenBody s).rsStep = s.rsStep := rfl
@[simp] theorem eccLenBody_dotResult (s : State) : (eccLenBody s).dotResult = s.dotResult := rfl
@[simp] theorem eccLenBody_acc (s : State) : (eccLenBody s).acc = s.acc := rfl
@[simp] theorem eccLenBody_cnt (s : State) : (eccLenBody s).cnt = s.cnt := rfl
@[simp] theorem eccLenBody_pkOutN (s : State) : (eccLenBody s).pkOutN = s.pkOutN := rfl
@[simp] theorem eccLenBody_pkOut (s : State) : (eccLenBody s).pkOut = s.pkOut := rfl
@[simp] theorem eccLenBody_src (s : State) : (eccLenBody s).src = s.src := rfl
@[simp] theorem eccLenBody_work (s : State) : (eccLenBody s).work = s.work := rfl
@[simp] theorem eccLenBody_stream (s : State) : (eccLenBody s).stream = s.stream := rfl
@[simp] theorem eccLenBody_grid (s : State) : (eccLenBody s).grid = s.grid := rfl
@[simp] theorem eccLenBody_inReset (s : State) : (eccLenBody s).inReset = s.inReset := rfl
@[simp] theorem eccLenBody_epoch (s : State) : (eccLenBody s).epoch = s.epoch := rfl
@[simp] theorem eccLenBody_draws (s : State) : (eccLenBody s).draws = s.draws := rfl
@[simp] theorem eccLenBody_response (s : State) : (eccLenBody s).response = s.response := rfl
@[simp] theorem eccLenBody_turns (s : State) : (eccLenBody s).turns = s.turns := rfl

@[simp] theorem scoreBody_params (s : State) : (scoreBody s).params = s.params := rfl
@[simp] theorem scoreBody_irqEn (s : State) : (scoreBody s).irqEn = s.irqEn := rfl
@[simp] theorem scoreBody_done (s : State) : (scoreBody s).done = s.done := rfl
@[simp] theorem scoreBody_err (s : State) : (scoreBody s).err = s.err := rfl
@[simp] theorem scoreBody_ovr (s : State) : (scoreBody s).ovr = s.ovr := rfl
@[simp] theorem scoreBody_berr (s : State) : (scoreBody s).berr = s.berr := rfl
@[simp] theorem scoreBody_errCode (s : State) : (scoreBody s).errCode = s.errCode := rfl
@[simp] theorem scoreBody_pending (s : State) : (scoreBody s).pending = s.pending := rfl
@[simp] theorem scoreBody_dataLen (s : State) : (scoreBody s).dataLen = s.dataLen := rfl
@[simp] theorem scoreBody_eccLen (s : State) : (scoreBody s).eccLen = s.eccLen := rfl
@[simp] theorem scoreBody_gridH (s : State) : (scoreBody s).gridH = s.gridH := rfl
@[simp] theorem scoreBody_gridW (s : State) : (scoreBody s).gridW = s.gridW := rfl
@[simp] theorem scoreBody_widthReq (s : State) : (scoreBody s).widthReq = s.widthReq := rfl
@[simp] theorem scoreBody_pinMask (s : State) : (scoreBody s).pinMask = s.pinMask := rfl
@[simp] theorem scoreBody_pinEn (s : State) : (scoreBody s).pinEn = s.pinEn := rfl
@[simp] theorem scoreBody_binFinish (s : State) : (scoreBody s).binFinish = s.binFinish := rfl
@[simp] theorem scoreBody_bestMask (s : State) : (scoreBody s).bestMask = s.bestMask := rfl
@[simp] theorem scoreBody_bmValid (s : State) : (scoreBody s).bmValid = s.bmValid := rfl
@[simp] theorem scoreBody_score (s : State) : (scoreBody s).score = BitVec.ofInt 64 (scoreOf s).1 := rfl
@[simp] theorem scoreBody_reject (s : State) : (scoreBody s).reject = (scoreOf s).2 := rfl
@[simp] theorem scoreBody_scValid (s : State) : (scoreBody s).scValid = true := rfl
@[simp] theorem scoreBody_maskScore (s : State) : (scoreBody s).maskScore = s.maskScore := rfl
@[simp] theorem scoreBody_msValid (s : State) : (scoreBody s).msValid = s.msValid := rfl
@[simp] theorem scoreBody_msRej (s : State) : (scoreBody s).msRej = s.msRej := rfl
@[simp] theorem scoreBody_streamLen (s : State) : (scoreBody s).streamLen = s.streamLen := rfl
@[simp] theorem scoreBody_rsStep (s : State) : (scoreBody s).rsStep = s.rsStep := rfl
@[simp] theorem scoreBody_dotResult (s : State) : (scoreBody s).dotResult = s.dotResult := rfl
@[simp] theorem scoreBody_acc (s : State) : (scoreBody s).acc = s.acc := rfl
@[simp] theorem scoreBody_cnt (s : State) : (scoreBody s).cnt = s.cnt := rfl
@[simp] theorem scoreBody_pkOutN (s : State) : (scoreBody s).pkOutN = s.pkOutN := rfl
@[simp] theorem scoreBody_pkOut (s : State) : (scoreBody s).pkOut = s.pkOut := rfl
@[simp] theorem scoreBody_src (s : State) : (scoreBody s).src = s.src := rfl
@[simp] theorem scoreBody_work (s : State) : (scoreBody s).work = s.work := rfl
@[simp] theorem scoreBody_stream (s : State) : (scoreBody s).stream = s.stream := rfl
@[simp] theorem scoreBody_grid (s : State) : (scoreBody s).grid = s.grid := rfl
@[simp] theorem scoreBody_inReset (s : State) : (scoreBody s).inReset = s.inReset := rfl
@[simp] theorem scoreBody_epoch (s : State) : (scoreBody s).epoch = s.epoch := rfl
@[simp] theorem scoreBody_draws (s : State) : (scoreBody s).draws = s.draws := rfl
@[simp] theorem scoreBody_response (s : State) : (scoreBody s).response = s.response := rfl
@[simp] theorem scoreBody_turns (s : State) : (scoreBody s).turns = s.turns := rfl

@[simp] theorem recordScore_params (m : BitVec 3) (s : State) : (recordScore m s).params = s.params := rfl
@[simp] theorem recordScore_irqEn (m : BitVec 3) (s : State) : (recordScore m s).irqEn = s.irqEn := rfl
@[simp] theorem recordScore_done (m : BitVec 3) (s : State) : (recordScore m s).done = s.done := rfl
@[simp] theorem recordScore_err (m : BitVec 3) (s : State) : (recordScore m s).err = s.err := rfl
@[simp] theorem recordScore_ovr (m : BitVec 3) (s : State) : (recordScore m s).ovr = s.ovr := rfl
@[simp] theorem recordScore_berr (m : BitVec 3) (s : State) : (recordScore m s).berr = s.berr := rfl
@[simp] theorem recordScore_errCode (m : BitVec 3) (s : State) : (recordScore m s).errCode = s.errCode := rfl
@[simp] theorem recordScore_pending (m : BitVec 3) (s : State) : (recordScore m s).pending = s.pending := rfl
@[simp] theorem recordScore_dataLen (m : BitVec 3) (s : State) : (recordScore m s).dataLen = s.dataLen := rfl
@[simp] theorem recordScore_eccLen (m : BitVec 3) (s : State) : (recordScore m s).eccLen = s.eccLen := rfl
@[simp] theorem recordScore_gridH (m : BitVec 3) (s : State) : (recordScore m s).gridH = s.gridH := rfl
@[simp] theorem recordScore_gridW (m : BitVec 3) (s : State) : (recordScore m s).gridW = s.gridW := rfl
@[simp] theorem recordScore_widthReq (m : BitVec 3) (s : State) : (recordScore m s).widthReq = s.widthReq := rfl
@[simp] theorem recordScore_pinMask (m : BitVec 3) (s : State) : (recordScore m s).pinMask = s.pinMask := rfl
@[simp] theorem recordScore_pinEn (m : BitVec 3) (s : State) : (recordScore m s).pinEn = s.pinEn := rfl
@[simp] theorem recordScore_binFinish (m : BitVec 3) (s : State) : (recordScore m s).binFinish = s.binFinish := rfl
@[simp] theorem recordScore_bestMask (m : BitVec 3) (s : State) : (recordScore m s).bestMask = s.bestMask := rfl
@[simp] theorem recordScore_bmValid (m : BitVec 3) (s : State) : (recordScore m s).bmValid = s.bmValid := rfl
@[simp] theorem recordScore_score (m : BitVec 3) (s : State) : (recordScore m s).score = s.score := rfl
@[simp] theorem recordScore_reject (m : BitVec 3) (s : State) : (recordScore m s).reject = s.reject := rfl
@[simp] theorem recordScore_scValid (m : BitVec 3) (s : State) : (recordScore m s).scValid = s.scValid := rfl
@[simp] theorem recordScore_maskScore (m : BitVec 3) (s : State) : (recordScore m s).maskScore = s.maskScore.set m.toNat s.score m.isLt := rfl
@[simp] theorem recordScore_msValid (m : BitVec 3) (s : State) : (recordScore m s).msValid = setFlag s.msValid m true := rfl
@[simp] theorem recordScore_msRej (m : BitVec 3) (s : State) : (recordScore m s).msRej = setFlag s.msRej m s.reject := rfl
@[simp] theorem recordScore_streamLen (m : BitVec 3) (s : State) : (recordScore m s).streamLen = s.streamLen := rfl
@[simp] theorem recordScore_rsStep (m : BitVec 3) (s : State) : (recordScore m s).rsStep = s.rsStep := rfl
@[simp] theorem recordScore_dotResult (m : BitVec 3) (s : State) : (recordScore m s).dotResult = s.dotResult := rfl
@[simp] theorem recordScore_acc (m : BitVec 3) (s : State) : (recordScore m s).acc = s.acc := rfl
@[simp] theorem recordScore_cnt (m : BitVec 3) (s : State) : (recordScore m s).cnt = s.cnt := rfl
@[simp] theorem recordScore_pkOutN (m : BitVec 3) (s : State) : (recordScore m s).pkOutN = s.pkOutN := rfl
@[simp] theorem recordScore_pkOut (m : BitVec 3) (s : State) : (recordScore m s).pkOut = s.pkOut := rfl
@[simp] theorem recordScore_src (m : BitVec 3) (s : State) : (recordScore m s).src = s.src := rfl
@[simp] theorem recordScore_work (m : BitVec 3) (s : State) : (recordScore m s).work = s.work := rfl
@[simp] theorem recordScore_stream (m : BitVec 3) (s : State) : (recordScore m s).stream = s.stream := rfl
@[simp] theorem recordScore_grid (m : BitVec 3) (s : State) : (recordScore m s).grid = s.grid := rfl
@[simp] theorem recordScore_inReset (m : BitVec 3) (s : State) : (recordScore m s).inReset = s.inReset := rfl
@[simp] theorem recordScore_epoch (m : BitVec 3) (s : State) : (recordScore m s).epoch = s.epoch := rfl
@[simp] theorem recordScore_draws (m : BitVec 3) (s : State) : (recordScore m s).draws = s.draws := rfl
@[simp] theorem recordScore_response (m : BitVec 3) (s : State) : (recordScore m s).response = s.response := rfl
@[simp] theorem recordScore_turns (m : BitVec 3) (s : State) : (recordScore m s).turns = s.turns := rfl

@[simp] theorem refuse_params (s : State) : (refuse s).params = s.params := rfl
@[simp] theorem refuse_irqEn (s : State) : (refuse s).irqEn = s.irqEn := rfl
@[simp] theorem refuse_done (s : State) : (refuse s).done = s.done := rfl
@[simp] theorem refuse_err (s : State) : (refuse s).err = s.err := rfl
@[simp] theorem refuse_ovr (s : State) : (refuse s).ovr = s.ovr := rfl
@[simp] theorem refuse_berr (s : State) : (refuse s).berr = true := rfl
@[simp] theorem refuse_errCode (s : State) : (refuse s).errCode = s.errCode := rfl
@[simp] theorem refuse_pending (s : State) : (refuse s).pending = s.pending := rfl
@[simp] theorem refuse_dataLen (s : State) : (refuse s).dataLen = s.dataLen := rfl
@[simp] theorem refuse_eccLen (s : State) : (refuse s).eccLen = s.eccLen := rfl
@[simp] theorem refuse_gridH (s : State) : (refuse s).gridH = s.gridH := rfl
@[simp] theorem refuse_gridW (s : State) : (refuse s).gridW = s.gridW := rfl
@[simp] theorem refuse_widthReq (s : State) : (refuse s).widthReq = s.widthReq := rfl
@[simp] theorem refuse_pinMask (s : State) : (refuse s).pinMask = s.pinMask := rfl
@[simp] theorem refuse_pinEn (s : State) : (refuse s).pinEn = s.pinEn := rfl
@[simp] theorem refuse_binFinish (s : State) : (refuse s).binFinish = s.binFinish := rfl
@[simp] theorem refuse_bestMask (s : State) : (refuse s).bestMask = s.bestMask := rfl
@[simp] theorem refuse_bmValid (s : State) : (refuse s).bmValid = s.bmValid := rfl
@[simp] theorem refuse_score (s : State) : (refuse s).score = s.score := rfl
@[simp] theorem refuse_reject (s : State) : (refuse s).reject = s.reject := rfl
@[simp] theorem refuse_scValid (s : State) : (refuse s).scValid = s.scValid := rfl
@[simp] theorem refuse_maskScore (s : State) : (refuse s).maskScore = s.maskScore := rfl
@[simp] theorem refuse_msValid (s : State) : (refuse s).msValid = s.msValid := rfl
@[simp] theorem refuse_msRej (s : State) : (refuse s).msRej = s.msRej := rfl
@[simp] theorem refuse_streamLen (s : State) : (refuse s).streamLen = s.streamLen := rfl
@[simp] theorem refuse_rsStep (s : State) : (refuse s).rsStep = s.rsStep := rfl
@[simp] theorem refuse_dotResult (s : State) : (refuse s).dotResult = s.dotResult := rfl
@[simp] theorem refuse_acc (s : State) : (refuse s).acc = s.acc := rfl
@[simp] theorem refuse_cnt (s : State) : (refuse s).cnt = s.cnt := rfl
@[simp] theorem refuse_pkOutN (s : State) : (refuse s).pkOutN = s.pkOutN := rfl
@[simp] theorem refuse_pkOut (s : State) : (refuse s).pkOut = s.pkOut := rfl
@[simp] theorem refuse_src (s : State) : (refuse s).src = s.src := rfl
@[simp] theorem refuse_work (s : State) : (refuse s).work = s.work := rfl
@[simp] theorem refuse_stream (s : State) : (refuse s).stream = s.stream := rfl
@[simp] theorem refuse_grid (s : State) : (refuse s).grid = s.grid := rfl
@[simp] theorem refuse_inReset (s : State) : (refuse s).inReset = s.inReset := rfl
@[simp] theorem refuse_epoch (s : State) : (refuse s).epoch = s.epoch := rfl
@[simp] theorem refuse_draws (s : State) : (refuse s).draws = s.draws := rfl
@[simp] theorem refuse_response (s : State) : (refuse s).response = some ⟨true, 0⟩ := rfl
@[simp] theorem refuse_turns (s : State) : (refuse s).turns = s.turns := rfl

@[simp] theorem releaseReset_params (s : State) : (releaseReset s).params = s.params := rfl
@[simp] theorem releaseReset_irqEn (s : State) : (releaseReset s).irqEn = s.irqEn := rfl
@[simp] theorem releaseReset_done (s : State) : (releaseReset s).done = s.done := rfl
@[simp] theorem releaseReset_err (s : State) : (releaseReset s).err = s.err := rfl
@[simp] theorem releaseReset_ovr (s : State) : (releaseReset s).ovr = s.ovr := rfl
@[simp] theorem releaseReset_berr (s : State) : (releaseReset s).berr = s.berr := rfl
@[simp] theorem releaseReset_errCode (s : State) : (releaseReset s).errCode = s.errCode := rfl
@[simp] theorem releaseReset_pending (s : State) : (releaseReset s).pending = s.pending := rfl
@[simp] theorem releaseReset_dataLen (s : State) : (releaseReset s).dataLen = s.dataLen := rfl
@[simp] theorem releaseReset_eccLen (s : State) : (releaseReset s).eccLen = s.eccLen := rfl
@[simp] theorem releaseReset_gridH (s : State) : (releaseReset s).gridH = s.gridH := rfl
@[simp] theorem releaseReset_gridW (s : State) : (releaseReset s).gridW = s.gridW := rfl
@[simp] theorem releaseReset_widthReq (s : State) : (releaseReset s).widthReq = s.widthReq := rfl
@[simp] theorem releaseReset_pinMask (s : State) : (releaseReset s).pinMask = s.pinMask := rfl
@[simp] theorem releaseReset_pinEn (s : State) : (releaseReset s).pinEn = s.pinEn := rfl
@[simp] theorem releaseReset_binFinish (s : State) : (releaseReset s).binFinish = s.binFinish := rfl
@[simp] theorem releaseReset_bestMask (s : State) : (releaseReset s).bestMask = s.bestMask := rfl
@[simp] theorem releaseReset_bmValid (s : State) : (releaseReset s).bmValid = s.bmValid := rfl
@[simp] theorem releaseReset_score (s : State) : (releaseReset s).score = s.score := rfl
@[simp] theorem releaseReset_reject (s : State) : (releaseReset s).reject = s.reject := rfl
@[simp] theorem releaseReset_scValid (s : State) : (releaseReset s).scValid = s.scValid := rfl
@[simp] theorem releaseReset_maskScore (s : State) : (releaseReset s).maskScore = s.maskScore := rfl
@[simp] theorem releaseReset_msValid (s : State) : (releaseReset s).msValid = s.msValid := rfl
@[simp] theorem releaseReset_msRej (s : State) : (releaseReset s).msRej = s.msRej := rfl
@[simp] theorem releaseReset_streamLen (s : State) : (releaseReset s).streamLen = s.streamLen := rfl
@[simp] theorem releaseReset_rsStep (s : State) : (releaseReset s).rsStep = s.rsStep := rfl
@[simp] theorem releaseReset_dotResult (s : State) : (releaseReset s).dotResult = s.dotResult := rfl
@[simp] theorem releaseReset_acc (s : State) : (releaseReset s).acc = s.acc := rfl
@[simp] theorem releaseReset_cnt (s : State) : (releaseReset s).cnt = s.cnt := rfl
@[simp] theorem releaseReset_pkOutN (s : State) : (releaseReset s).pkOutN = s.pkOutN := rfl
@[simp] theorem releaseReset_pkOut (s : State) : (releaseReset s).pkOut = s.pkOut := rfl
@[simp] theorem releaseReset_src (s : State) : (releaseReset s).src = s.src := rfl
@[simp] theorem releaseReset_work (s : State) : (releaseReset s).work = s.work := rfl
@[simp] theorem releaseReset_stream (s : State) : (releaseReset s).stream = s.stream := rfl
@[simp] theorem releaseReset_grid (s : State) : (releaseReset s).grid = s.grid := rfl
@[simp] theorem releaseReset_inReset (s : State) : (releaseReset s).inReset = false := rfl
@[simp] theorem releaseReset_epoch (s : State) : (releaseReset s).epoch = s.epoch := rfl
@[simp] theorem releaseReset_draws (s : State) : (releaseReset s).draws = s.draws := rfl
@[simp] theorem releaseReset_response (s : State) : (releaseReset s).response = s.response := rfl
@[simp] theorem releaseReset_turns (s : State) : (releaseReset s).turns = s.turns := rfl

@[simp] theorem resetRegisters_params (s : State) : (resetRegisters s).params = s.params := rfl
@[simp] theorem resetRegisters_irqEn (s : State) : (resetRegisters s).irqEn = State.reset.irqEn := rfl
@[simp] theorem resetRegisters_done (s : State) : (resetRegisters s).done = State.reset.done := rfl
@[simp] theorem resetRegisters_err (s : State) : (resetRegisters s).err = State.reset.err := rfl
@[simp] theorem resetRegisters_ovr (s : State) : (resetRegisters s).ovr = State.reset.ovr := rfl
@[simp] theorem resetRegisters_berr (s : State) : (resetRegisters s).berr = State.reset.berr := rfl
@[simp] theorem resetRegisters_errCode (s : State) : (resetRegisters s).errCode = State.reset.errCode := rfl
@[simp] theorem resetRegisters_pending (s : State) : (resetRegisters s).pending = State.reset.pending := rfl
@[simp] theorem resetRegisters_dataLen (s : State) : (resetRegisters s).dataLen = State.reset.dataLen := rfl
@[simp] theorem resetRegisters_eccLen (s : State) : (resetRegisters s).eccLen = State.reset.eccLen := rfl
@[simp] theorem resetRegisters_gridH (s : State) : (resetRegisters s).gridH = State.reset.gridH := rfl
@[simp] theorem resetRegisters_gridW (s : State) : (resetRegisters s).gridW = State.reset.gridW := rfl
@[simp] theorem resetRegisters_widthReq (s : State) : (resetRegisters s).widthReq = State.reset.widthReq := rfl
@[simp] theorem resetRegisters_pinMask (s : State) : (resetRegisters s).pinMask = State.reset.pinMask := rfl
@[simp] theorem resetRegisters_pinEn (s : State) : (resetRegisters s).pinEn = State.reset.pinEn := rfl
@[simp] theorem resetRegisters_binFinish (s : State) : (resetRegisters s).binFinish = State.reset.binFinish := rfl
@[simp] theorem resetRegisters_bestMask (s : State) : (resetRegisters s).bestMask = State.reset.bestMask := rfl
@[simp] theorem resetRegisters_bmValid (s : State) : (resetRegisters s).bmValid = State.reset.bmValid := rfl
@[simp] theorem resetRegisters_score (s : State) : (resetRegisters s).score = State.reset.score := rfl
@[simp] theorem resetRegisters_reject (s : State) : (resetRegisters s).reject = State.reset.reject := rfl
@[simp] theorem resetRegisters_scValid (s : State) : (resetRegisters s).scValid = State.reset.scValid := rfl
@[simp] theorem resetRegisters_maskScore (s : State) : (resetRegisters s).maskScore = State.reset.maskScore := rfl
@[simp] theorem resetRegisters_msValid (s : State) : (resetRegisters s).msValid = State.reset.msValid := rfl
@[simp] theorem resetRegisters_msRej (s : State) : (resetRegisters s).msRej = State.reset.msRej := rfl
@[simp] theorem resetRegisters_streamLen (s : State) : (resetRegisters s).streamLen = State.reset.streamLen := rfl
@[simp] theorem resetRegisters_rsStep (s : State) : (resetRegisters s).rsStep = State.reset.rsStep := rfl
@[simp] theorem resetRegisters_dotResult (s : State) : (resetRegisters s).dotResult = State.reset.dotResult := rfl
@[simp] theorem resetRegisters_acc (s : State) : (resetRegisters s).acc = State.reset.acc := rfl
@[simp] theorem resetRegisters_cnt (s : State) : (resetRegisters s).cnt = State.reset.cnt := rfl
@[simp] theorem resetRegisters_pkOutN (s : State) : (resetRegisters s).pkOutN = State.reset.pkOutN := rfl
@[simp] theorem resetRegisters_pkOut (s : State) : (resetRegisters s).pkOut = State.reset.pkOut := rfl
@[simp] theorem resetRegisters_src (s : State) : (resetRegisters s).src = s.src := rfl
@[simp] theorem resetRegisters_work (s : State) : (resetRegisters s).work = s.work := rfl
@[simp] theorem resetRegisters_stream (s : State) : (resetRegisters s).stream = s.stream := rfl
@[simp] theorem resetRegisters_grid (s : State) : (resetRegisters s).grid = s.grid := rfl
@[simp] theorem resetRegisters_inReset (s : State) : (resetRegisters s).inReset = s.inReset := rfl
@[simp] theorem resetRegisters_epoch (s : State) : (resetRegisters s).epoch = s.epoch := rfl
@[simp] theorem resetRegisters_draws (s : State) : (resetRegisters s).draws = s.draws := rfl
@[simp] theorem resetRegisters_response (s : State) : (resetRegisters s).response = s.response := rfl
@[simp] theorem resetRegisters_turns (s : State) : (resetRegisters s).turns = s.turns := rfl

@[simp] theorem assertReset_params (s : State) : (assertReset s).params = s.params := rfl
@[simp] theorem assertReset_irqEn (s : State) : (assertReset s).irqEn = State.reset.irqEn := rfl
@[simp] theorem assertReset_done (s : State) : (assertReset s).done = State.reset.done := rfl
@[simp] theorem assertReset_err (s : State) : (assertReset s).err = State.reset.err := rfl
@[simp] theorem assertReset_ovr (s : State) : (assertReset s).ovr = State.reset.ovr := rfl
@[simp] theorem assertReset_berr (s : State) : (assertReset s).berr = State.reset.berr := rfl
@[simp] theorem assertReset_errCode (s : State) : (assertReset s).errCode = State.reset.errCode := rfl
@[simp] theorem assertReset_pending (s : State) : (assertReset s).pending = State.reset.pending := rfl
@[simp] theorem assertReset_dataLen (s : State) : (assertReset s).dataLen = State.reset.dataLen := rfl
@[simp] theorem assertReset_eccLen (s : State) : (assertReset s).eccLen = State.reset.eccLen := rfl
@[simp] theorem assertReset_gridH (s : State) : (assertReset s).gridH = State.reset.gridH := rfl
@[simp] theorem assertReset_gridW (s : State) : (assertReset s).gridW = State.reset.gridW := rfl
@[simp] theorem assertReset_widthReq (s : State) : (assertReset s).widthReq = State.reset.widthReq := rfl
@[simp] theorem assertReset_pinMask (s : State) : (assertReset s).pinMask = State.reset.pinMask := rfl
@[simp] theorem assertReset_pinEn (s : State) : (assertReset s).pinEn = State.reset.pinEn := rfl
@[simp] theorem assertReset_binFinish (s : State) : (assertReset s).binFinish = State.reset.binFinish := rfl
@[simp] theorem assertReset_bestMask (s : State) : (assertReset s).bestMask = State.reset.bestMask := rfl
@[simp] theorem assertReset_bmValid (s : State) : (assertReset s).bmValid = State.reset.bmValid := rfl
@[simp] theorem assertReset_score (s : State) : (assertReset s).score = State.reset.score := rfl
@[simp] theorem assertReset_reject (s : State) : (assertReset s).reject = State.reset.reject := rfl
@[simp] theorem assertReset_scValid (s : State) : (assertReset s).scValid = State.reset.scValid := rfl
@[simp] theorem assertReset_maskScore (s : State) : (assertReset s).maskScore = State.reset.maskScore := rfl
@[simp] theorem assertReset_msValid (s : State) : (assertReset s).msValid = State.reset.msValid := rfl
@[simp] theorem assertReset_msRej (s : State) : (assertReset s).msRej = State.reset.msRej := rfl
@[simp] theorem assertReset_streamLen (s : State) : (assertReset s).streamLen = State.reset.streamLen := rfl
@[simp] theorem assertReset_rsStep (s : State) : (assertReset s).rsStep = State.reset.rsStep := rfl
@[simp] theorem assertReset_dotResult (s : State) : (assertReset s).dotResult = State.reset.dotResult := rfl
@[simp] theorem assertReset_acc (s : State) : (assertReset s).acc = State.reset.acc := rfl
@[simp] theorem assertReset_cnt (s : State) : (assertReset s).cnt = State.reset.cnt := rfl
@[simp] theorem assertReset_pkOutN (s : State) : (assertReset s).pkOutN = State.reset.pkOutN := rfl
@[simp] theorem assertReset_pkOut (s : State) : (assertReset s).pkOut = State.reset.pkOut := rfl
@[simp] theorem assertReset_src (s : State) : (assertReset s).src = [] := rfl
@[simp] theorem assertReset_work (s : State) : (assertReset s).work = [] := rfl
@[simp] theorem assertReset_stream (s : State) : (assertReset s).stream = [] := rfl
@[simp] theorem assertReset_grid (s : State) : (assertReset s).grid = [] := rfl
@[simp] theorem assertReset_inReset (s : State) : (assertReset s).inReset = true := rfl
@[simp] theorem assertReset_epoch (s : State) : (assertReset s).epoch = s.epoch + 1 := rfl
@[simp] theorem assertReset_draws (s : State) : (assertReset s).draws = s.draws := rfl
@[simp] theorem assertReset_response (s : State) : (assertReset s).response = s.response := rfl
@[simp] theorem assertReset_turns (s : State) : (assertReset s).turns = s.turns := rfl

end Sys2Proof.Machine
end

