-- ==== Sys2Proof/Laws/Memory.lean ====
section
/-! SUPPORT. What the buffer operations do, said once: reading after a write, and that every write keeps the canonical
form. -/

namespace Sys2Proof.Machine

variable {w : Nat}

@[simp] theorem memRead_nil (i : Nat) : memRead ([] : Mem w) i = none := rfl

theorem memRead_cons (a : Nat) (v : BitVec w) (m : Mem w) (i : Nat) :
    memRead ((a, v) :: m) i = if a = i then some v else memRead m i := rfl

theorem memRead_append (m n : Mem w) (i : Nat) :
    memRead (m ++ n) i = (memRead m i).or (memRead n i) := by
  induction m with
  | nil => simp
  | cons c m ih =>
    obtain ⟨a, v⟩ := c
    simp only [List.cons_append, memRead_cons, ih]
    split <;> simp

theorem memRead_memBelow (m : Mem w) (n i : Nat) :
    memRead (memBelow m n) i = if i < n then memRead m i else none := by
  induction m with
  | nil => simp [memBelow]
  | cons c m ih =>
    obtain ⟨a, v⟩ := c
    simp only [memBelow, List.filter_cons, memRead_cons] at ih ⊢
    by_cases ha : a < n
    · simp only [ha, decide_true, if_true, memRead_cons, ih]
      split <;> simp_all
    · by_cases hi : i < n
      · have : a ≠ i := by omega
        simp [ha, hi, this, ih]
      · simp [ha, hi, ih]

theorem memRead_memFrom (m : Mem w) (n i : Nat) :
    memRead (memFrom m n) i = if n ≤ i then memRead m i else none := by
  induction m with
  | nil => simp [memFrom]
  | cons c m ih =>
    obtain ⟨a, v⟩ := c
    simp only [memFrom, List.filter_cons, memRead_cons] at ih ⊢
    by_cases ha : n ≤ a
    · simp only [ha, decide_true, if_true, memRead_cons, ih]
      split <;> simp_all
    · by_cases hi : n ≤ i
      · have : a ≠ i := by omega
        simp [ha, hi, this, ih]
      · simp [ha, hi, ih]

theorem memRead_memCells (base : Nat) (vs : List (BitVec w)) (i : Nat) :
    memRead (memCells base vs) i = if base ≤ i then vs[i - base]? else none := by
  induction vs generalizing base with
  | nil => simp [memCells]
  | cons v vs ih =>
    simp only [memCells, memRead_cons, ih]
    by_cases h : base = i
    · simp [h]
    · by_cases h2 : base + 1 ≤ i
      · have e : i - base = (i - (base + 1)) + 1 := by omega
        simp [h, h2, show base ≤ i by omega, e]
      · simp [h, h2, show ¬ base ≤ i by omega]

/-- Reading after a write of a block: inside the block the value written, outside what was there. -/
theorem memRead_memWrite (m : Mem w) (base : Nat) (vs : List (BitVec w)) (i : Nat) :
    memRead (memWrite m base vs) i =
      if base ≤ i ∧ i < base + vs.length then vs[i - base]? else memRead m i := by
  simp only [memWrite, memRead_append, memRead_memBelow, memRead_memCells, memRead_memFrom]
  by_cases h1 : base ≤ i
  · by_cases h2 : i < base + vs.length
    · have h3 : i - base < vs.length := by omega
      simp [h1, h2, h3, show ¬ i < base by omega]
    · have h3 : vs.length ≤ i - base := by omega
      simp [h1, h2, h3, show ¬ i < base by omega, show base + vs.length ≤ i by omega]
  · have h3 : i < base := by omega
    simp only [h1, h3, false_and, if_true, if_false]
    simp [show ¬ base + vs.length ≤ i by omega]

theorem memCells_index (base : Nat) (vs : List (BitVec w)) :
    ∀ c ∈ memCells base vs, base ≤ c.1 ∧ c.1 < base + vs.length := by
  induction vs generalizing base with
  | nil => simp [memCells]
  | cons v vs ih =>
    intro c hc
    simp only [memCells, List.mem_cons] at hc
    rcases hc with rfl | hc
    · simp
    · have := ih (base + 1) c hc
      simp only [List.length_cons]
      omega

theorem memCells_pairwise (base : Nat) (vs : List (BitVec w)) :
    (memCells base vs).Pairwise (fun a b => a.1 < b.1) := by
  induction vs generalizing base with
  | nil => simp [memCells]
  | cons v vs ih =>
    simp only [memCells, List.pairwise_cons]
    refine ⟨fun c hc => ?_, ih _⟩
    have := (memCells_index (base + 1) vs c hc).1
    show base < c.1
    omega

theorem mem_memBelow {m : Mem w} {n : Nat} {c : Nat × BitVec w} (h : c ∈ memBelow m n) : c ∈ m ∧ c.1 < n := by
  simpa [memBelow] using h

theorem mem_memFrom {m : Mem w} {n : Nat} {c : Nat × BitVec w} (h : c ∈ memFrom m n) : c ∈ m ∧ n ≤ c.1 := by
  simpa [memFrom] using h

/-- A write of a block that lies below the depth keeps the canonical form. -/
theorem memWrite_wf {depth : Nat} {m : Mem w} (hm : memWf depth m) (base : Nat) (vs : List (BitVec w))
    (hfit : vs = [] ∨ base + vs.length ≤ depth) : memWf depth (memWrite m base vs) := by
  obtain ⟨hs, hd⟩ := hm
  refine ⟨?_, ?_⟩
  · rw [memWrite, List.pairwise_append, List.pairwise_append]
    refine ⟨hs.filter _, ⟨memCells_pairwise _ _, hs.filter _, ?_⟩, ?_⟩
    · intro a ha b hb
      have h1 := (memCells_index _ _ a ha).2
      have h2 := (mem_memFrom hb).2
      omega
    · intro a ha b hb
      have h1 := (mem_memBelow ha).2
      rcases List.mem_append.1 hb with hb | hb
      · have h2 := (memCells_index _ _ b hb).1
        omega
      · have h2 := (mem_memFrom hb).2
        omega
  · intro c hc
    rw [memWrite] at hc
    rcases List.mem_append.1 hc with hc | hc
    · exact hd c (mem_memBelow hc).1
    · rcases List.mem_append.1 hc with hc | hc
      · have h1 := (memCells_index _ _ c hc).2
        rcases hfit with rfl | h
        · simp [memCells] at hc
        · omega
      · exact hd c (mem_memFrom hc).1

theorem clip_fits (b : Buffer) (base : Nat) (vs : List (BitVec w)) :
    clip b base vs = [] ∨ base + (clip b base vs).length ≤ depth b := by
  by_cases h : base ≤ depth b
  · right
    simp only [clip, List.length_take]
    omega
  · left
    simp [clip, show depth b - base = 0 by omega]

theorem clip_eq {b : Buffer} {base : Nat} {vs : List (BitVec w)} (h : base + vs.length ≤ depth b) :
    clip b base vs = vs := by
  simp only [clip, List.take_eq_self_iff]
  omega

theorem memWrite_clip_wf {b : Buffer} {m : Mem w} (hm : memWf (depth b) m) (base : Nat) (vs : List (BitVec w)) :
    memWf (depth b) (memWrite m base (clip b base vs)) :=
  memWrite_wf hm base _ (clip_fits b base vs)

theorem putSrc_wf {s : State} (h : Memory.wf s) (base : Nat) (vs : List Codeword) : Memory.wf (putSrc s base vs) :=
  ⟨memWrite_clip_wf h.1 base vs, h.2⟩

theorem putWork_wf {s : State} (h : Memory.wf s) (base : Nat) (vs : List Codeword) : Memory.wf (putWork s base vs) :=
  ⟨h.1, memWrite_clip_wf h.2.1 base vs, h.2.2⟩

theorem putStream_wf {s : State} (h : Memory.wf s) (base : Nat) (vs : List (BitVec 1)) :
    Memory.wf (putStream s base vs) :=
  ⟨h.1, h.2.1, memWrite_clip_wf h.2.2.1 base vs, h.2.2.2⟩

theorem putGrid_wf {s : State} (h : Memory.wf s) (base : Nat) (vs : List CellCode) : Memory.wf (putGrid s base vs) :=
  ⟨h.1, h.2.1, h.2.2.1, memWrite_clip_wf h.2.2.2 base vs⟩

/-- A host write to a buffer entry keeps the canonical form. -/
theorem putEntry_wf {s : State} (h : Memory.wf s) (b : Buffer) (i : Nat) (v : Word) : Memory.wf (putEntry s b i v) := by
  cases b
  · exact putSrc_wf h _ _
  · exact putWork_wf h _ _
  · exact putStream_wf h _ _
  · exact putGrid_wf h _ _

theorem reset_memory_wf : Memory.wf State.reset := by decide

theorem assertReset_memory_wf (s : State) : Memory.wf (assertReset s) := by
  simp [Memory.wf, memWf]

theorem getD_memWrite (m : Mem w) (base : Nat) (vs : List (BitVec w)) (i : Nat) (d : BitVec w) :
    (memRead (memWrite m base vs) i).getD d =
      if base ≤ i ∧ i < base + vs.length then vs.getD (i - base) d else (memRead m i).getD d := by
  rw [memRead_memWrite]
  split <;> simp [List.getD_eq_getElem?_getD]

/-- Reading SRC after a block was stored that fits it. -/
theorem srcAt_putSrc (s : State) (base : Nat) (vs : List Codeword) (i : Nat) (h : base + vs.length ≤ depth .src) :
    srcAt (putSrc s base vs) i = if base ≤ i ∧ i < base + vs.length then vs.getD (i - base) 0 else srcAt s i := by
  simp only [srcAt, putSrc_src, putSrc_epoch, clip_eq h, getD_memWrite]
  split
  · have : i - base < vs.length := by omega
    simp [List.getD_eq_getElem?_getD, this]
  · rfl

/-- Reading WORK after a block was stored that fits it. -/
theorem workAt_putWork (s : State) (base : Nat) (vs : List Codeword) (i : Nat) (h : base + vs.length ≤ depth .work) :
    workAt (putWork s base vs) i = if base ≤ i ∧ i < base + vs.length then vs.getD (i - base) 0 else workAt s i := by
  simp only [workAt, putWork_work, putWork_epoch, clip_eq h, getD_memWrite]
  split
  · have : i - base < vs.length := by omega
    simp [List.getD_eq_getElem?_getD, this]
  · rfl

/-- Reading STREAM after a block was stored that fits it. -/
theorem streamAt_putStream (s : State) (base : Nat) (vs : List (BitVec 1)) (i : Nat)
    (h : base + vs.length ≤ depth .stream) :
    streamAt (putStream s base vs) i =
      if base ≤ i ∧ i < base + vs.length then vs.getD (i - base) 0 else streamAt s i := by
  simp only [streamAt, putStream_stream, putStream_epoch, clip_eq h, getD_memWrite]
  split
  · have : i - base < vs.length := by omega
    simp [List.getD_eq_getElem?_getD, this]
  · rfl

/-- Reading GRID after a block was stored that fits it. -/
theorem gridAt_putGrid (s : State) (base : Nat) (vs : List CellCode) (i : Nat) (h : base + vs.length ≤ depth .grid) :
    gridAt (putGrid s base vs) i =
      if base ≤ i ∧ i < base + vs.length then vs.getD (i - base) 0 else gridAt s i := by
  simp only [gridAt, putGrid_grid, putGrid_epoch, clip_eq h, getD_memWrite]
  split
  · have : i - base < vs.length := by omega
    simp [List.getD_eq_getElem?_getD, this]
  · rfl

/-- A store to one buffer is not seen in another. -/
theorem reads_putSrc (s : State) (base : Nat) (vs : List Codeword) (i : Nat) :
    workAt (putSrc s base vs) i = workAt s i ∧ streamAt (putSrc s base vs) i = streamAt s i ∧
      gridAt (putSrc s base vs) i = gridAt s i := ⟨rfl, rfl, rfl⟩

theorem reads_putWork (s : State) (base : Nat) (vs : List Codeword) (i : Nat) :
    srcAt (putWork s base vs) i = srcAt s i ∧ streamAt (putWork s base vs) i = streamAt s i ∧
      gridAt (putWork s base vs) i = gridAt s i := ⟨rfl, rfl, rfl⟩

theorem reads_putStream (s : State) (base : Nat) (vs : List (BitVec 1)) (i : Nat) :
    srcAt (putStream s base vs) i = srcAt s i ∧ workAt (putStream s base vs) i = workAt s i ∧
      gridAt (putStream s base vs) i = gridAt s i := ⟨rfl, rfl, rfl⟩

theorem reads_putGrid (s : State) (base : Nat) (vs : List CellCode) (i : Nat) :
    srcAt (putGrid s base vs) i = srcAt s i ∧ workAt (putGrid s base vs) i = workAt s i ∧
      streamAt (putGrid s base vs) i = streamAt s i := ⟨rfl, rfl, rfl⟩

end Sys2Proof.Machine
end

