-- ==== Sys2Proof/Laws/Commands.lean ====
section
/-! SUPPORT. The shared operations of a command, each said once: the check phase, the completion, what each commit phase
may change (its frame), and what a step can do. -/

namespace Sys2Proof.Machine

/-- A check phase finds nothing exactly when none of its conditions holds. -/
theorem firstError_eq_none {l : List (Bool × ErrCode)} : firstError l = none ↔ ∀ c ∈ l, c.1 = false := by
  induction l with
  | nil => simp [firstError]
  | cons c l ih =>
    obtain ⟨b, e⟩ := c
    cases b <;> simp [firstError, ih]

/-- The code a check phase finds belongs to a condition that holds, and no earlier condition holds. -/
theorem firstError_eq_some {l : List (Bool × ErrCode)} {e : ErrCode} :
    firstError l = some e ↔ ∃ before after, l = before ++ (true, e) :: after ∧ ∀ c ∈ before, c.1 = false := by
  induction l with
  | nil => simp [firstError]
  | cons c l ih =>
    obtain ⟨b, f⟩ := c
    cases b with
    | true =>
      simp only [firstError, if_true, Option.some.injEq]
      constructor
      · rintro rfl
        exact ⟨[], l, rfl, by simp⟩
      · rintro ⟨before, after, h, hb⟩
        cases before with
        | nil => simpa using (List.cons.inj h).1
        | cons d before =>
          have h1 := (List.cons.inj h).1
          have h2 := hb d (by simp)
          simp [← h1] at h2
    | false =>
      simp only [firstError, Bool.false_eq_true, if_false, ih]
      constructor
      · rintro ⟨before, after, rfl, hb⟩
        exact ⟨(false, f) :: before, after, rfl, by simpa using hb⟩
      · rintro ⟨before, after, h, hb⟩
        cases before with
        | nil => simp at h
        | cons d before =>
          exact ⟨before, after, (List.cons.inj h).2, fun c hc => hb c (by simp [hc])⟩

/-- Everything a command can do: it completes with its commit phase's state, or ends with the error of its check. -/
theorem runCommand_next {check : Option ErrCode} {commit s t : State} :
    runCommand check commit s = .next t ↔
      (check = none ∧ t = complete commit) ∨ (∃ c, check = some c ∧ t = raiseError c s) := by
  cases check <;> simp [runCommand, eq_comm]

theorem runCommand_none (commit s : State) : runCommand none commit s = .next (complete commit) := rfl

theorem runCommand_some (c : ErrCode) (commit s : State) : runCommand (some c) commit s = .next (raiseError c s) := rfl

/-- Every command completes (R237): exec always answers a next state. -/
theorem exec_next (i : Instr) (s : State) : ∃ t, exec i s = .next t := by
  cases i <;> exact ⟨_, rfl⟩

/-! What each commit phase may change. -/

theorem accumulate_frame (v : BitVec 9) (s : State) : accumulate v s =
    { s with acc := (accumulate v s).acc, cnt := (accumulate v s).cnt, pkOutN := 0 } := rfl

theorem emit_frame (s : State) : emit s = { s with pkOut := (emit s).pkOut, pkOutN := (emit s).pkOutN, acc := 0, cnt := 0 } :=
  rfl

theorem pushBody_frame (v : BitVec 9) (s : State) : pushBody v s =
    { s with
      acc := (pushBody v s).acc
      cnt := (pushBody v s).cnt
      pkOutN := (pushBody v s).pkOutN
      pkOut := (pushBody v s).pkOut } := by
  simp only [pushBody]
  split <;> rfl

theorem flushBody_frame (s : State) : flushBody s =
    { s with
      acc := (flushBody s).acc
      cnt := (flushBody s).cnt
      pkOutN := (flushBody s).pkOutN
      pkOut := (flushBody s).pkOut } := by
  simp only [flushBody]
  split <;> rfl

theorem rsBody_frame (nd nc : Nat) (s : State) : rsBody nd nc s =
    { s with work := (rsBody nd nc s).work, rsStep := (rsBody nd nc s).rsStep } := rfl

theorem maskBody_frame (m : Nat) (s : State) : maskBody m s = { s with work := (maskBody m s).work } := rfl

theorem dotStreamBody_frame (s : State) : dotStreamBody s =
    { s with stream := (dotStreamBody s).stream, streamLen := (dotStreamBody s).streamLen } := rfl

theorem foldBody_frame (s : State) : foldBody s = { s with grid := (foldBody s).grid } := rfl

theorem foldl_putGrid_frame (l : List (Nat × Nat)) (f : Nat × Nat → Nat) (vs : List CellCode) (s : State) :
    l.foldl (fun t rc => putGrid t (f rc) vs) s =
      { s with grid := (l.foldl (fun t rc => putGrid t (f rc) vs) s).grid } := by
  induction l generalizing s with
  | nil => rfl
  | cons c l ih => rw [List.foldl_cons, ih]; rfl

theorem forceCornersBody_frame (s : State) : forceCornersBody s = { s with grid := (forceCornersBody s).grid } :=
  foldl_putGrid_frame _ (fun rc => rc.1 * gridCols s + rc.2) _ s

theorem forceIfHigh_frame (m : BitVec 3) (s : State) : forceIfHigh m s = { s with grid := (forceIfHigh m s).grid } := by
  simp only [forceIfHigh]
  split
  · exact forceCornersBody_frame s
  · rfl

theorem scoreBody_frame (s : State) : scoreBody s =
    { s with score := (scoreBody s).score, reject := (scoreBody s).reject, scValid := true } := rfl

theorem recordScore_frame (m : BitVec 3) (s : State) : recordScore m s =
    { s with
      maskScore := (recordScore m s).maskScore
      msValid := (recordScore m s).msValid
      msRej := (recordScore m s).msRej } := rfl

/-- What candidates write (R153), as one relation: everything else is as in `s`. -/
def SameButCandidate (s t : State) : Prop :=
  t = { s with
    work := t.work
    rsStep := t.rsStep
    stream := t.stream
    streamLen := t.streamLen
    grid := t.grid
    score := t.score
    reject := t.reject
    scValid := t.scValid
    maskScore := t.maskScore
    msValid := t.msValid
    msRej := t.msRej }

theorem SameButCandidate.trans {s t u : State} (h : SameButCandidate s t) (k : SameButCandidate t u) :
    SameButCandidate s u := by
  unfold SameButCandidate at *
  rw [k, h]

theorem maskBody_same (m : Nat) (s : State) : SameButCandidate s (maskBody m s) := rfl

theorem rsBody_same (nd nc : Nat) (s : State) : SameButCandidate s (rsBody nd nc s) := rfl

theorem dotStreamBody_same (s : State) : SameButCandidate s (dotStreamBody s) := rfl

theorem foldBody_same (s : State) : SameButCandidate s (foldBody s) := rfl

theorem forceIfHigh_same (m : BitVec 3) (s : State) : SameButCandidate s (forceIfHigh m s) := by
  unfold SameButCandidate
  rw [forceIfHigh_frame]

theorem scoreBody_same (s : State) : SameButCandidate s (scoreBody s) := rfl

theorem recordScore_same (m : BitVec 3) (s : State) : SameButCandidate s (recordScore m s) := rfl

/-- What a candidate writes (R153): WORK, RS_STEP, STREAM, STREAM_LEN, GRID and the score registers. -/
theorem candidateBody_same (m : BitVec 3) (s : State) : SameButCandidate s (candidateBody m s) :=
  ((((((maskBody_same (m.toNat % 4) s).trans (rsBody_same _ _ _)).trans (dotStreamBody_same _)).trans
    (foldBody_same _)).trans (forceIfHigh_same m _)).trans (scoreBody_same _)).trans (recordScore_same m _)

theorem candidateBody_scValid (m : BitVec 3) (s : State) : (candidateBody m s).scValid = true := rfl

theorem tryMask_same (r : Search) (m : BitVec 3) : SameButCandidate r.state (tryMask r m).state := by
  simp only [tryMask]
  split <;> exact candidateBody_same m r.state

theorem foldl_tryMask_same (l : List (BitVec 3)) (s : State) (r : Search) (h : SameButCandidate s r.state) :
    SameButCandidate s (l.foldl tryMask r).state := by
  induction l generalizing r with
  | nil => exact h
  | cons m l ih => exact ih _ (h.trans (tryMask_same r m))

theorem searchPlain_same (s : State) : SameButCandidate s (searchPlain s).state :=
  foldl_tryMask_same _ _ _ (candidateBody_same 0 s)

theorem searchAll_same (s : State) : SameButCandidate s (searchAll s).state := by
  unfold searchAll
  simp only
  split
  · exact foldl_tryMask_same _ _ _ (searchPlain_same s)
  · exact searchPlain_same s

theorem chosen_same (s : State) : SameButCandidate s (chosen s).2 := by
  unfold chosen
  split
  · exact candidateBody_same _ _
  · exact (searchAll_same s).trans (candidateBody_same _ _)

/-- What SELECT writes (R175): what candidates write, MS_VALID and BEST_MASK. -/
theorem selectBody_frame (s : State) : selectBody s =
    { s with
      work := (selectBody s).work
      rsStep := (selectBody s).rsStep
      stream := (selectBody s).stream
      streamLen := (selectBody s).streamLen
      grid := (selectBody s).grid
      score := (selectBody s).score
      reject := (selectBody s).reject
      scValid := (selectBody s).scValid
      maskScore := (selectBody s).maskScore
      msValid := (selectBody s).msValid
      msRej := (selectBody s).msRej
      bestMask := (selectBody s).bestMask
      bmValid := true } := by
  have h : SameButCandidate { s with msValid := 0, msRej := 0 } (chosen { s with msValid := 0, msRej := 0 }).2 :=
    chosen_same _
  unfold SameButCandidate at h
  unfold selectBody
  generalize chosen { s with msValid := 0, msRej := 0 } = c at h ⊢
  simp only
  rw [h]

theorem padBody_frame (s : State) : padBody s =
    { s with src := (padBody s).src, dataLen := (padBody s).dataLen, eccLen := (padBody s).eccLen } := rfl

/-- What RUN writes (R233). -/
theorem runBody_frame (s : State) : runBody s =
    { s with
      src := (runBody s).src
      dataLen := (runBody s).dataLen
      eccLen := (runBody s).eccLen
      gridH := (runBody s).gridH
      gridW := (runBody s).gridW
      work := (runBody s).work
      rsStep := (runBody s).rsStep
      stream := (runBody s).stream
      streamLen := (runBody s).streamLen
      grid := (runBody s).grid
      score := (runBody s).score
      reject := (runBody s).reject
      scValid := (runBody s).scValid
      maskScore := (runBody s).maskScore
      msValid := (runBody s).msValid
      msRej := (runBody s).msRej
      bestMask := (runBody s).bestMask
      bmValid := true } := by
  unfold runBody
  generalize hu : padBody (setSize (sizeFor s.params (dLen s) (runEcc s) s.widthReq.toNat) (eccLenBody s)) = u
  have hf : u = { s with src := u.src, dataLen := u.dataLen, eccLen := u.eccLen, gridH := u.gridH, gridW := u.gridW } := by
    rw [← hu]; rfl
  have hs := selectBody_frame u
  generalize selectBody u = v at hs ⊢
  rw [hs, hf]

/-! Every commit phase keeps the buffers in canonical form. -/

theorem maskBody_wf {s : State} (h : Memory.wf s) (m : Nat) : Memory.wf (maskBody m s) := putWork_wf h _ _

theorem rsBody_wf {s : State} (h : Memory.wf s) (nd nc : Nat) : Memory.wf (rsBody nd nc s) :=
  putWork_wf h nd (wovenChecks s nd nc)

theorem dotStreamBody_wf {s : State} (h : Memory.wf s) : Memory.wf (dotStreamBody s) :=
  putStream_wf h 0 (streamBits s ++ List.replicate (dotCapacity s - minDots (dLen s) (eLen s)) 1)

theorem foldBody_wf {s : State} (h : Memory.wf s) : Memory.wf (foldBody s) := putGrid_wf h _ _

theorem foldl_putGrid_wf (l : List (Nat × Nat)) (f : Nat × Nat → Nat) (vs : List CellCode) {s : State}
    (h : Memory.wf s) : Memory.wf (l.foldl (fun t rc => putGrid t (f rc) vs) s) := by
  induction l generalizing s with
  | nil => exact h
  | cons c l ih => exact ih (putGrid_wf h _ _)

theorem forceIfHigh_wf {s : State} (h : Memory.wf s) (m : BitVec 3) : Memory.wf (forceIfHigh m s) := by
  simp only [forceIfHigh]
  split
  · exact foldl_putGrid_wf _ (fun rc => rc.1 * gridCols s + rc.2) _ h
  · exact h

theorem candidateBody_wf {s : State} (h : Memory.wf s) (m : BitVec 3) : Memory.wf (candidateBody m s) :=
  forceIfHigh_wf (foldBody_wf (dotStreamBody_wf (rsBody_wf (maskBody_wf h _) _ _))) m

theorem tryMask_wf {r : Search} (h : Memory.wf r.state) (m : BitVec 3) : Memory.wf (tryMask r m).state := by
  simp only [tryMask]
  split <;> exact candidateBody_wf h m

theorem foldl_tryMask_wf (l : List (BitVec 3)) {r : Search} (h : Memory.wf r.state) :
    Memory.wf (l.foldl tryMask r).state := by
  induction l generalizing r with
  | nil => exact h
  | cons m l ih => exact ih (tryMask_wf h m)

theorem searchAll_wf {s : State} (h : Memory.wf s) : Memory.wf (searchAll s).state := by
  have hp : Memory.wf (searchPlain s).state := foldl_tryMask_wf _ (candidateBody_wf h 0)
  unfold searchAll
  simp only
  split
  · exact foldl_tryMask_wf _ hp
  · exact hp

theorem chosen_wf {s : State} (h : Memory.wf s) : Memory.wf (chosen s).2 := by
  unfold chosen
  split
  · exact candidateBody_wf h _
  · exact candidateBody_wf (searchAll_wf h) _

theorem selectBody_wf {s : State} (h : Memory.wf s) : Memory.wf (selectBody s) :=
  chosen_wf (s := { s with msValid := 0, msRej := 0 }) h

theorem padBody_wf {s : State} (h : Memory.wf s) : Memory.wf (padBody s) :=
  putSrc_wf h (dLen s) (padWords s.params s.binFinish ((paddedLengths s).1 - dLen s))

theorem runBody_wf {s : State} (h : Memory.wf s) : Memory.wf (runBody s) := by
  refine selectBody_wf (padBody_wf ?_)
  exact h

/-! What one step can do. -/

/-- Everything the engine's move can do (R230): nothing, the execution of the decoded command, or ILLEGAL_CMD. -/
theorem engineTurn_next {s t : State} (h : engineTurn s = .next t) :
    ((s.inReset = true ∨ s.pending = none) ∧ t = s) ∨
      (∃ w i, s.inReset = false ∧ s.pending = some w ∧ decode w = .ok i ∧ exec i s = .next t) ∨
      (∃ w k, s.inReset = false ∧ s.pending = some w ∧ decode w = .error k ∧ t = raiseError .illegalCmd s) := by
  unfold engineTurn at h
  split at h
  · rename_i hr
    injection h with h
    exact .inl ⟨.inl hr, h.symm⟩
  · rename_i hr
    have hr : s.inReset = false := by simpa using hr
    split at h
    · rename_i hp
      injection h with h
      exact .inl ⟨.inr hp, h.symm⟩
    · rename_i w hp
      split at h
      · rename_i i hd
        exact .inr (.inl ⟨w, i, hr, hp, hd, h⟩)
      · rename_i k hd
        injection h with h
        exact .inr (.inr ⟨w, k, hr, hp, hd, h.symm⟩)

/-- Everything a host transaction can do (R61, R70, R257, R280). -/
theorem busTransaction_cases (t : Txn) (s : State) :
    (s.inReset = true ∧
        busTransaction t s = { s with response := Config.inResetAnswer s.draws, draws := s.draws + 1 }) ∨
      (s.inReset = false ∧ admitted t = none ∧ busTransaction t s = refuse s) ∨
      (∃ p, s.inReset = false ∧ admitted t = some p ∧ t.access = .read ∧ busTransaction t s = busRead p s) ∨
      (∃ p v, s.inReset = false ∧ admitted t = some p ∧ t.access = .write v ∧
        busTransaction t s = busWrite p v s) := by
  unfold busTransaction
  split
  · rename_i hr
    exact .inl ⟨hr, rfl⟩
  · rename_i hr
    have hr : s.inReset = false := by simpa using hr
    split
    · rename_i ha
      exact .inr (.inl ⟨hr, ha, rfl⟩)
    · rename_i p ha
      split
      · rename_i hacc
        exact .inr (.inr (.inl ⟨p, hr, ha, hacc, rfl⟩))
      · rename_i v hacc
        exact .inr (.inr (.inr ⟨p, v, hr, ha, hacc, rfl⟩))

/-- Everything one step can do, by the turn it takes (log 1). -/
theorem step_next {s t : State} (h : step s = .next t) :
    (s.turns = [] ∧ engineTurn s = .next t) ∨
      (∃ rest, s.turns = .engine :: rest ∧ engineTurn { s with turns := rest } = .next t) ∨
      (∃ x rest, s.turns = .host x :: rest ∧ t = busTransaction x { s with turns := rest }) ∨
      (∃ x rest, s.turns = .together x :: rest ∧ engineTurn (busTransaction x { s with turns := rest }) = .next t) ∨
      (∃ rest, s.turns = .wait :: rest ∧ busy s = true ∧ engineTurn s = .next t) ∨
      (∃ rest, s.turns = .wait :: rest ∧ busy s = false ∧ t = busTransaction statusRead { s with turns := rest }) ∨
      (∃ rest, s.turns = .resetAssert :: rest ∧ t = assertReset { s with turns := rest }) ∨
      (∃ rest, s.turns = .resetRelease :: rest ∧ t = releaseReset { s with turns := rest }) := by
  unfold step at h
  split at h
  · rename_i ht
    exact .inl ⟨ht, h⟩
  · rename_i rest ht
    exact .inr (.inl ⟨rest, ht, h⟩)
  · rename_i x rest ht
    injection h with h
    exact .inr (.inr (.inl ⟨x, rest, ht, h.symm⟩))
  · rename_i x rest ht
    exact .inr (.inr (.inr (.inl ⟨x, rest, ht, h⟩)))
  · rename_i rest ht
    unfold waitTurn at h
    split at h
    · rename_i hb
      exact .inr (.inr (.inr (.inr (.inl ⟨rest, ht, hb, h⟩))))
    · rename_i hb
      injection h with h
      exact .inr (.inr (.inr (.inr (.inr (.inl ⟨rest, ht, by simpa using hb, h.symm⟩)))))
  · rename_i rest ht
    injection h with h
    exact .inr (.inr (.inr (.inr (.inr (.inr (.inl ⟨rest, ht, h.symm⟩))))))
  · rename_i rest ht
    injection h with h
    exact .inr (.inr (.inr (.inr (.inr (.inr (.inr ⟨rest, ht, h.symm⟩))))))

end Sys2Proof.Machine
end

