-- ==== Sys2Proof/Laws/Algorithms.lean ====
section
/-! SUPPORT. What the numeric operations compute, said once: the integer square root (R10), the radix digits (R112), the
padding loop (R196), and the bounds of the fold's cells (R205). -/

namespace Sys2Proof.Machine

theorem isqrtFrom_spec (n : Nat) : ∀ fuel r, r * r ≤ n → n < (r + fuel + 1) * (r + fuel + 1) →
    isqrtFrom n fuel r * isqrtFrom n fuel r ≤ n ∧ n < (isqrtFrom n fuel r + 1) * (isqrtFrom n fuel r + 1)
  | 0, r, h1, h2 => ⟨h1, h2⟩
  | fuel + 1, r, h1, h2 => by
    unfold isqrtFrom
    split
    · rename_i h
      exact isqrtFrom_spec n fuel (r + 1) h (by
        have e : r + 1 + fuel + 1 = r + (fuel + 1) + 1 := by omega
        rw [e]; exact h2)
    · rename_i h
      exact ⟨h1, by omega⟩

/-- `isqrt(n)` is the largest `r` with `r * r <= n` (R10). -/
theorem isqrt_spec (n : Nat) : isqrt n * isqrt n ≤ n ∧ n < (isqrt n + 1) * (isqrt n + 1) :=
  isqrtFrom_spec n n 0 (by omega) (by nlinarith)

theorem isqrt_unique {n r : Nat} (h1 : r * r ≤ n) (h2 : n < (r + 1) * (r + 1)) : isqrt n = r := by
  obtain ⟨a, b⟩ := isqrt_spec n
  by_contra hne
  rcases Nat.lt_or_gt_of_ne hne with h | h
  · have : (isqrt n + 1) * (isqrt n + 1) ≤ r * r := Nat.mul_le_mul h h
    omega
  · have : (r + 1) * (r + 1) ≤ isqrt n * isqrt n := Nat.mul_le_mul h h
    omega

theorem radixDigits_length (n a : Nat) : (radixDigits n a).length = n := by
  induction n generalizing a with
  | zero => rfl
  | succ n ih => simp [radixDigits, ih]

theorem radixDigits_lt (n a : Nat) : ∀ x ∈ radixDigits n a, x < 103 := by
  induction n generalizing a with
  | zero => simp [radixDigits]
  | succ n ih =>
    intro x hx
    simp only [radixDigits, List.mem_cons] at hx
    rcases hx with rfl | hx
    · exact Nat.mod_lt _ (by decide)
    · exact ih _ x hx

/-- The digits, least significant first, give the number back when they are enough for it (R114). -/
theorem radixDigits_value (n a : Nat) (h : a < 103 ^ n) :
    (radixDigits n a).foldr (fun x acc => x + 103 * acc) 0 = a := by
  induction n generalizing a with
  | zero => simp at h; simp [radixDigits, h]
  | succ n ih =>
    have h2 : a / 103 < 103 ^ n := by
      rw [Nat.div_lt_iff_lt_mul (by decide)]
      rw [pow_succ] at h
      exact h
    simp only [radixDigits, List.foldr_cons, pkOutRadix, ih _ h2]
    omega

theorem eccAt_mono {f : Config.EccFn} (hf : eccFnWf f = true) {a b : Nat} (hab : a ≤ b) (hb : b ≤ 4095) :
    eccAt f a ≤ eccAt f b := by
  cases f with
  | affine base divisor =>
    simp only [eccAt]
    exact Nat.add_le_add_left (Nat.div_le_div_right hab) _
  | table values =>
    simp only [eccFnWf, Bool.and_eq_true, decide_eq_true_eq, List.all_eq_true] at hf
    obtain ⟨⟨hl, -⟩, hp⟩ := hf
    have ha' : a < values.length := by omega
    have hb' : b < values.length := by omega
    simp only [eccAt, List.getD_eq_getElem?_getD, List.getElem?_eq_getElem ha', List.getElem?_eq_getElem hb',
      Option.getD_some]
    rcases Nat.eq_or_lt_of_le hab with rfl | h
    · exact Nat.le_refl _
    · exact List.pairwise_iff_getElem.1 hp a b ha' hb' h

theorem eccAt_le {f : Config.EccFn} (hf : eccFnWf f = true) {d : Nat} (hd : d ≤ 4095) : eccAt f d ≤ 4095 := by
  cases f with
  | affine base divisor =>
    simp only [eccFnWf, Bool.and_eq_true, decide_eq_true_eq] at hf
    have : d / divisor ≤ 4095 / divisor := Nat.div_le_div_right hd
    simp only [eccAt]
    omega
  | table values =>
    simp only [eccFnWf, Bool.and_eq_true, decide_eq_true_eq, List.all_eq_true] at hf
    obtain ⟨⟨hl, ha⟩, -⟩ := hf
    have hd' : d < values.length := by omega
    simp only [eccAt, List.getD_eq_getElem?_getD, List.getElem?_eq_getElem hd', Option.getD_some]
    exact ha _ (List.getElem_mem hd')

/-- What PAD's loop computes (R196, R197): the lengths grow by ECC_FN's increments, the dot slots spent are 9 a codeword,
and what is left is less than the cost of one more. -/
theorem padLoop_spec (f : Config.EccFn) : ∀ fuel free d e, free < fuel →
    ∃ left, left < padCost f (padLoop f fuel free d e).1 ∧ d ≤ (padLoop f fuel free d e).1 ∧
      e ≤ (padLoop f fuel free d e).2 ∧
      9 * ((padLoop f fuel free d e).1 + (padLoop f fuel free d e).2) + left = 9 * (d + e) + free
  | 0, free, d, e, h => by omega
  | fuel + 1, free, d, e, h => by
    unfold padLoop
    split
    · rename_i hc
      exact ⟨free, hc, Nat.le_refl _, Nat.le_refl _, by simp⟩
    · rename_i hc
      have hp : padCost f d = 9 * (1 + padIncrement f d) := rfl
      obtain ⟨left, h1, h2, h3, h4⟩ :=
        padLoop_spec f fuel (free - padCost f d) (d + 1) (e + padIncrement f d) (by omega)
      exact ⟨left, h1, by omega, by omega, by omega⟩

/-- What the tie-break can answer (R191): the size of a candidate of the list whose area suffices, or of the last one. -/
theorem tieBreak_spec (area h w : Nat) : ∀ l : List (Int × Int), l ≠ [] →
    ∃ c ∈ l, tieBreak area h w l = tieSize h w c ∧
      (area ≤ (tieSize h w c).1 * (tieSize h w c).2 ∨ l.getLast? = some c)
  | [c], _ => ⟨c, by simp, rfl, .inr rfl⟩
  | c :: d :: rest, _ => by
    by_cases ha : area ≤ (tieSize h w c).1 * (tieSize h w c).2
    · exact ⟨c, by simp, by simp [tieBreak, ha], .inl ha⟩
    · obtain ⟨e, he, h1, h2⟩ := tieBreak_spec area h w (d :: rest) (by simp)
      exact ⟨e, by simp [he], by simp only [tieBreak, ha, if_false, h1], h2.imp_right (by simp [List.getLast?_cons])⟩

theorem geomOk_iff {h w : Nat} :
    geomOk h w = true ↔ 5 ≤ h ∧ h ≤ 200 ∧ 5 ≤ w ∧ w ≤ 200 ∧ (h + w) % 2 = 1 := by
  simp only [geomOk, Bool.and_eq_true, decide_eq_true_eq, beq_iff_eq, and_assoc]
  rfl

/-- The area of a legal grid fits GRID, and its dot capacity fits STREAM (R7, R34). -/
theorem geom_area {h w : Nat} (g : geomOk h w = true) : h * w ≤ 40000 ∧ ndots h w ≤ 20000 ∧ 2 * ndots h w = h * w := by
  obtain ⟨h1, h2, h3, h4, h5⟩ := geomOk_iff.1 g
  have a : h * w ≤ 200 * 200 := Nat.mul_le_mul h2 h4
  have b : h * w % 2 = 0 := by
    rcases Nat.mod_two_eq_zero_or_one h with x | x <;> rcases Nat.mod_two_eq_zero_or_one w with y | y <;>
      first | omega | simp [Nat.mul_mod, x, y]
  simp only [ndots]
  omega

/-- The six corners lie in the grid and are data cells (R205). -/
theorem corners_in_grid {h w : Nat} (g : geomOk h w = true) :
    ∀ rc ∈ corners h w, rc.1 < h ∧ rc.2 < w ∧ (rc.1 + rc.2) % 2 = 0 := by
  obtain ⟨h1, h2, h3, h4, h5⟩ := geomOk_iff.1 g
  intro rc hrc
  unfold corners at hrc
  split at hrc <;>
    (simp only [List.mem_cons, List.not_mem_nil, or_false] at hrc
     rcases hrc with rfl | rfl | rfl | rfl | rfl | rfl <;> (refine ⟨?_, ?_, ?_⟩ <;> simp <;> omega))

end Sys2Proof.Machine
end

