-- ==== Sys2Proof/Laws/PerInstr.lean ====
section
/-! SUPPORT. The per-instruction family EncodeHitsRow: a command's word has the fixed bits of the command's row of the
opcode table, and that row is in the table (R81, R83). -/

namespace Sys2Proof.Laws

/-- The word of a command matches its row of the table. -/
def EncodeHitsRow.Statement (i : Instr) : Prop := (rowOf i).hits (encode i) = true ∧ rowOf i ∈ opcodeTable

/-- The fixed bits of a word whose low part is an operand. -/
theorem masked_append {n k : Nat} (fixed mask pattern : BitVec n) (v : BitVec k) (h : fixed &&& mask = pattern) :
    (fixed ++ v) &&& (mask ++ 0#k) = pattern ++ 0#k := by
  rw [← h]
  ext i hi
  simp only [BitVec.getElem_and, BitVec.getElem_append]
  split <;> simp

theorem EncodeHitsRow.nop : EncodeHitsRow.Statement .nop := ⟨by decide, by decide⟩
theorem EncodeHitsRow.sreset : EncodeHitsRow.Statement .sreset := ⟨by decide, by decide⟩
theorem EncodeHitsRow.pkPush (v : BitVec 9) : EncodeHitsRow.Statement (.pkPush v) :=
  ⟨beq_iff_eq.2 (masked_append (0x10#8 ++ 0#15) 0x7FFFFF#23 (0x10#8 ++ 0#15) v (by decide)), by simp [opcodeTable, rowOf]⟩
theorem EncodeHitsRow.pkFlush : EncodeHitsRow.Statement .pkFlush := ⟨by decide, by decide⟩
theorem EncodeHitsRow.dotLookup (idx : BitVec 8) : EncodeHitsRow.Statement (.dotLookup idx) :=
  ⟨beq_iff_eq.2 (masked_append (0x20#8 ++ 0#16) 0xFFFFFF#24 (0x20#8 ++ 0#16) idx (by decide)), by simp [opcodeTable, rowOf]⟩
theorem EncodeHitsRow.rsEncode (nd nc : BitVec 12) : EncodeHitsRow.Statement (.rsEncode nd nc) := by
  refine ⟨beq_iff_eq.2 ?_, by simp [opcodeTable, rowOf]⟩
  have h := masked_append (0x30#8 ++ nc) (0xFF#8 ++ 0#12) (0x30#8 ++ 0#12) nd
    (masked_append 0x30#8 0xFF#8 0x30#8 nc (by decide))
  exact h
theorem EncodeHitsRow.maskApply (m : BitVec 2) : EncodeHitsRow.Statement (.maskApply m) :=
  ⟨beq_iff_eq.2 (masked_append (0x40#8 ++ 0#22) 0x3FFFFFFF#30 (0x40#8 ++ 0#22) m (by decide)), by simp [opcodeTable, rowOf]⟩
theorem EncodeHitsRow.candidate (m : BitVec 3) : EncodeHitsRow.Statement (.candidate m) :=
  ⟨beq_iff_eq.2 (masked_append (0x41#8 ++ 0#21) 0x1FFFFFFF#29 (0x41#8 ++ 0#21) m (by decide)), by simp [opcodeTable, rowOf]⟩
theorem EncodeHitsRow.score : EncodeHitsRow.Statement .score := ⟨by decide, by decide⟩
theorem EncodeHitsRow.select : EncodeHitsRow.Statement .select := ⟨by decide, by decide⟩
theorem EncodeHitsRow.eccLen : EncodeHitsRow.Statement .eccLen := ⟨by decide, by decide⟩
theorem EncodeHitsRow.size : EncodeHitsRow.Statement .size := ⟨by decide, by decide⟩
theorem EncodeHitsRow.pad : EncodeHitsRow.Statement .pad := ⟨by decide, by decide⟩
theorem EncodeHitsRow.dotStream : EncodeHitsRow.Statement .dotStream := ⟨by decide, by decide⟩
theorem EncodeHitsRow.fold : EncodeHitsRow.Statement .fold := ⟨by decide, by decide⟩
theorem EncodeHitsRow.forceCorners : EncodeHitsRow.Statement .forceCorners := ⟨by decide, by decide⟩
theorem EncodeHitsRow.run : EncodeHitsRow.Statement .run := ⟨by decide, by decide⟩

end Sys2Proof.Laws
end

