-- ==== Sys2Proof/Machine/HostProgram.lean ====
section
/-! DEFINITION. Host programs: the statements of R88 and the pseudo-instructions of R89 as the bus turns they stand for. -/

namespace Sys2Proof.Machine

/-- The byte address of a target (R88, R62), not yet cut to the bus (log 23). -/
def targetAddr : Target → Nat
  | .reg r => regOffset r
  | .entry b i => windowBase b + 4 * i
  | .addr a => a

/-- `MemWrite(addr(target), 4, value)` (R88). DESIGN CHOICE (log 23): an address of 2^21 or more is cut to 21 bits and a value
of 2^32 or more to 32, where R88 sets no bound. -/
def writeTurn (t : Target) (v : Nat) : Turn :=
  .host ⟨BitVec.ofNat 21 (targetAddr t), 0xF, .write (BitVec.ofNat 32 v)⟩

/-- `MemRead(addr(target), 4)` (R88). DESIGN CHOICE (log 23): an address of 2^21 or more is cut to 21 bits. -/
def readTurn (t : Target) : Turn := .host ⟨BitVec.ofNat 21 (targetAddr t), 0xF, .read⟩

/-- A command statement: the bus write of its word to CMD (R88). -/
def commandTurn (i : Instr) : Turn := .host ⟨0x00C, 0xF, .write (encode i)⟩

/-- `WR SRC[i], c` for each codeword of a list, from index `i` up (R89). -/
def loadTurns : Nat → List Nat → List Turn
  | _, [] => []
  | i, c :: cs => writeTurn (.entry .src i) c :: loadTurns (i + 1) cs

/-- The turns of a host statement or pseudo-instruction (R88, R89), well formed or not (log 23). -/
def stmtTurns : Stmt → List Turn
  | .cmd i => [commandTurn i]
  | .wr t v => [writeTurn t v]
  | .rd t => [readTurn t]
  | .wait => [.wait]
  | .exec i => [commandTurn i, .wait]
  | .ldsrc cs => loadTurns 0 cs ++ [writeTurn (.reg .dataLen) cs.length]
  | .clrst => [writeTurn (.reg .status) 0x1E]
  | .pin m => [writeTurn (.reg .maskCfg) (0x100 + m)]
  | .unpin => [writeTurn (.reg .maskCfg) 0]
  | .autow => [writeTurn (.reg .widthReq) 0]
  | .geom h w => [writeTurn (.reg .gridH) h, writeTurn (.reg .gridW) w]

/-- A program is a list of host statements (R88); its turns follow the turns still to come. -/
def loadProgram (p : List Stmt) (s : State) : State := { s with turns := s.turns ++ p.flatMap stmtTurns }

end Sys2Proof.Machine
end

