-- ==== Sys2Proof/Machine/Assembler.lean ====
section
/-! DEFINITION. The assembler syntax of host programs (30_encoding.md R88, R89): one statement a line, `;` starts a comment,
operands are unsigned decimal or `0x` hexadecimal numbers. -/

namespace Sys2Proof.Machine

/-- The text before a comment (R88). -/
def dropComment (l : List Char) : List Char := l.takeWhile (fun c => c != ';')

/-- The words of a line: spaces, tabs and commas separate them (log 23). `cur` is the word in progress, reversed. -/
def wordsFrom : List Char → List Char → List (List Char)
  | cur, [] => if cur.isEmpty then [] else [cur.reverse]
  | cur, c :: cs =>
    if c == ' ' || c == ',' || c == '\t' then
      if cur.isEmpty then wordsFrom [] cs else cur.reverse :: wordsFrom [] cs
    else wordsFrom (c :: cur) cs

/-- A digit of a base up to 16. -/
def digitOf (base : Nat) (c : Char) : Option Nat :=
  let n := c.toNat
  let v := if 48 ≤ n ∧ n ≤ 57 then n - 48 else if 97 ≤ n ∧ n ≤ 102 then n - 87 else if 65 ≤ n ∧ n ≤ 70 then n - 55 else 16
  if v < base then some v else none

/-- A number's digits read after the value `acc`. -/
def digitsFrom (base : Nat) : Nat → List Char → Option Nat
  | acc, [] => some acc
  | acc, c :: cs =>
    match digitOf base c with
    | some v => digitsFrom base (acc * base + v) cs
    | none => none

/-- An unsigned decimal or `0x` hexadecimal number (R88). -/
def parseNat : List Char → Option Nat
  | [] => none
  | '0' :: 'x' :: c :: cs => digitsFrom 16 0 (c :: cs)
  | c :: cs => digitsFrom 10 0 (c :: cs)

/-- The names of the registers that stand alone (R23). -/
def plainRegNames : List (String × Reg) :=
  [("ID", Reg.id), ("CTRL", Reg.ctrl), ("STATUS", Reg.status), ("CMD", Reg.cmd), ("DATA_LEN", Reg.dataLen),
   ("ECC_LEN", Reg.eccLen), ("GRID_H", Reg.gridH), ("GRID_W", Reg.gridW), ("WIDTH_REQ", Reg.widthReq),
   ("MASK_CFG", Reg.maskCfg), ("PAD_CFG", Reg.padCfg), ("NDOTS", Reg.ndots), ("MIN_DOTS", Reg.minDots),
   ("BEST_MASK", Reg.bestMask), ("SCORE_LO", Reg.scoreLo), ("SCORE_HI", Reg.scoreHi),
   ("SCORE_FLAGS", Reg.scoreFlags), ("STREAM_LEN", Reg.streamLen), ("RS_STEP", Reg.rsStep),
   ("DOT_RESULT", Reg.dotResult), ("PK_ACC_LO", Reg.pkAccLo), ("PK_ACC_HI", Reg.pkAccHi), ("PK_CNT", Reg.pkCnt),
   ("PK_OUTN", Reg.pkOutN), ("MS_VALID", Reg.msValid)]

/-- The names of a numbered register file: the name, then the number (R23). -/
def numberedNames {n : Nat} (name : String) (indices : List (Fin n)) (f : Fin n → Reg) : List (String × Reg) :=
  indices.map fun k => (name ++ String.ofList [Char.ofNat (48 + k.val)], f k)

/-- The names of the registers (R23). -/
def regNames : List (String × Reg) :=
  plainRegNames.append ((numberedNames "PK_OUT" allPkOut Reg.pkOut).append
    ((numberedNames "MSCORE_LO" allMasks Reg.mscoreLo).append (numberedNames "MSCORE_HI" allMasks Reg.mscoreHi)))

/-- The names of the buffers in an entry target (R88). -/
def bufferNames : List (String × Buffer) :=
  [("SRC", .src), ("WORK", .work), ("STREAM", .stream), ("GRID", .grid)]

/-- What a name stands for in a table of names. -/
def lookupName {α : Type} (table : List (String × α)) (name : List Char) : Option α :=
  (table.find? (fun e => e.1.toList == name)).map (·.2)

/-- The target of `NAME[i]` (R88), given the name and the text after the opening bracket. -/
def entryTarget (name rest : List Char) : Option Target :=
  match lookupName bufferNames name, rest.reverse with
  | some b, ']' :: digits => (parseNat digits.reverse).map (Target.entry b)
  | _, _ => none

/-- A target (R88): a register name, a buffer entry, or a numeric byte address. -/
def parseTarget (word : List Char) : Option Target :=
  match lookupName regNames word with
  | some r => some (.reg r)
  | none =>
    match word.dropWhile (fun c => c != '[') with
    | '[' :: rest => entryTarget (word.takeWhile (fun c => c != '[')) rest
    | _ => (parseNat word).map Target.addr

/-- The commands without operands (R83). -/
def plainCommands : List (String × Instr) :=
  [("NOP", .nop), ("SRESET", .sreset), ("PK_FLUSH", .pkFlush), ("SCORE", .score), ("SELECT", .select),
   ("ECCLEN", .eccLen), ("SIZE", .size), ("PAD", .pad), ("DOTSTREAM", .dotStream), ("FOLD", .fold),
   ("FORCE_CORNERS", .forceCorners), ("RUN", .run)]

/-- The commands with one operand, with the number of values the operand's field encodes (R81, R83). -/
def unaryCommands : List (String × (Nat × (Nat → Instr))) :=
  [("PK_PUSH", 512, fun n => .pkPush (BitVec.ofNat 9 n)), ("DOT_LOOKUP", 256, fun n => .dotLookup (BitVec.ofNat 8 n)),
   ("MASK_APPLY", 4, fun n => .maskApply (BitVec.ofNat 2 n)), ("CANDIDATE", 8, fun n => .candidate (BitVec.ofNat 3 n))]

/-- A command (R88): its mnemonic and its operands. An operand that its field cannot encode is no command
(log 23). -/
def parseCommand (name : List Char) (operands : List Nat) : Option Instr :=
  match operands with
  | [] => lookupName plainCommands name
  | [n] =>
    match lookupName unaryCommands name with
    | some (limit, f) => if n < limit then some (f n) else none
    | none => none
  | [nd, nc] =>
    if name = "RS_ENCODE".toList ∧ nd < 4096 ∧ nc < 4096 then
      some (.rsEncode (BitVec.ofNat 12 nd) (BitVec.ofNat 12 nc))
    else none
  | _ => none

/-- A pseudo-instruction with numeric operands (R89). PIN takes a mask id 0..7. DESIGN CHOICE
(log 23): LDSRC may have no codewords, and is then the write of 0 to DATA_LEN, where R89 does not say whether n may be 0. -/
def parsePseudo (name : List Char) (operands : List Nat) : Option Stmt :=
  if name = "LDSRC".toList then some (.ldsrc operands)
  else
    match operands with
    | [] =>
      lookupName [("WAIT", Stmt.wait), ("CLRST", Stmt.clrst), ("UNPIN", Stmt.unpin), ("AUTOW", Stmt.autow)] name
    | [m] => if name = "PIN".toList ∧ m < 8 then some (.pin m) else none
    | [h, w] => if name = "GEOM".toList then some (.geom h w) else none
    | _ => none

/-- A statement, given as its words (R88, R89). -/
def parseWords (ws : List (List Char)) : Option Stmt :=
  match ws with
  | [] => none
  | name :: rest =>
    if name = "WR".toList then
      match rest with
      | [t, v] => (parseTarget t).bind fun t => (parseNat v).map (Stmt.wr t)
      | _ => none
    else if name = "RD".toList then
      match rest with
      | [t] => (parseTarget t).map Stmt.rd
      | _ => none
    else if name = "EXEC".toList then
      match rest with
      | c :: operands => (operands.mapM parseNat).bind fun ns => (parseCommand c ns).map Stmt.exec
      | [] => none
    else
      (rest.mapM parseNat).bind fun ns =>
        ((parseCommand name ns).map Stmt.cmd).orElse fun _ => parsePseudo name ns

/-- One line of a program (R88): its statement, `some none` for a blank or comment line, `none` for a line that is no
statement. DESIGN CHOICE (log 23): a line whose address, index or value is too large for the bus is a statement. -/
def parseLine (line : List Char) : Option (Option Stmt) :=
  match wordsFrom [] (dropComment line) with
  | [] => some none
  | ws => (parseWords ws).map some

end Sys2Proof.Machine
end

