-- ==== Sys2Proof/Tests/Slice0.lean ====
section
/-! SUPPORT. The tests: the decoding of words written out from the spec, what is ill formed, one step of every command and
of the bus against the vectors of spec/95_test_vectors.md, and a witness for the hypotheses of every statement. -/

open Sys2Proof Sys2Proof.Machine

set_option maxRecDepth 100000

namespace Sys2Proof.Tests

/-! ### Decoding: the word of every command, written out from R81 and R83 as opcode, must-be-zero bits and operand -/

theorem test_decode_nop : decode 0b00000000_000000000000000000000000#32 = .ok .nop := by decide
theorem test_decode_sreset : decode 0b00000001_000000000000000000000000#32 = .ok .sreset := by decide
theorem test_decode_pkPush : decode 0b00010000_000000000000000_100000010#32 = .ok (.pkPush 258) := by decide
theorem test_decode_pkFlush : decode 0b00010001_000000000000000000000000#32 = .ok .pkFlush := by decide
theorem test_decode_dotLookup : decode 0b00100000_0000000000000000_01110000#32 = .ok (.dotLookup 112) := by decide
/-- nc = w[23:12] = 13, nd = w[11:0] = 100: the word 0x3000D064 of V-RS8. -/
theorem test_decode_rsEncode : decode 0b00110000_000000001101_000001100100#32 = .ok (.rsEncode 100 13) := by decide
theorem test_decode_maskApply : decode 0b01000000_0000000000000000000000_11#32 = .ok (.maskApply 3) := by decide
theorem test_decode_candidate : decode 0b01000001_000000000000000000000_101#32 = .ok (.candidate 5) := by decide
theorem test_decode_score : decode 0b01000010_000000000000000000000000#32 = .ok .score := by decide
theorem test_decode_select : decode 0b01000011_000000000000000000000000#32 = .ok .select := by decide
theorem test_decode_eccLen : decode 0b01010000_000000000000000000000000#32 = .ok .eccLen := by decide
theorem test_decode_size : decode 0b01010001_000000000000000000000000#32 = .ok .size := by decide
theorem test_decode_pad : decode 0b01010010_000000000000000000000000#32 = .ok .pad := by decide
theorem test_decode_dotStream : decode 0b01010011_000000000000000000000000#32 = .ok .dotStream := by decide
theorem test_decode_fold : decode 0b01010100_000000000000000000000000#32 = .ok .fold := by decide
theorem test_decode_forceCorners : decode 0b01010101_000000000000000000000000#32 = .ok .forceCorners := by decide
theorem test_decode_run : decode 0b01100000_000000000000000000000000#32 = .ok .run := by decide

/-- One must-be-zero bit of each format set (R84): the words of V-PK13, V-PK14, V-DR5, V-MA8, V-CT4, and bit 3 of M3. -/
theorem test_decode_mustBeZero :
    decode 0x10000200#32 = .error .mustBeZero ∧ decode 0x11000001#32 = .error .mustBeZero ∧
      decode 0x20000100#32 = .error .mustBeZero ∧ decode 0x40000004#32 = .error .mustBeZero ∧
      decode 0x00000001#32 = .error .mustBeZero ∧ decode 0x41000008#32 = .error .mustBeZero := by decide

/-- Unassigned opcodes (R85): V-CT2 and V-CT3. -/
theorem test_decode_unassigned :
    decode 0xFF000000#32 = .error .unassignedOpcode ∧ decode 0x02000000#32 = .error .unassignedOpcode := by decide

theorem test_decodeTableWord : decodeTableWord 32 0x3000D064 = some (.rsEncode 100 13) ∧
    decodeTableWord 32 0x02000000 = none := by decide

/-! ### What is ill formed -/

theorem test_wf_word : wordWf 0x10000103#32 = true ∧ wordWf 0x10000200#32 = false ∧ wordWf 0x11000001#32 = false ∧
    wordWf 0x20000100#32 = false ∧ wordWf 0x40000004#32 = false ∧ wordWf 0x41000008#32 = false ∧
    wordWf 0x02000000#32 = false := by decide

theorem test_wf_defaultParams : paramsWf defaultParams = true := by decide

/-- 9 = 3 * 3 has order 56, 1 has order 1, and 0 is no unit (R132). -/
theorem test_wf_prim : primWf 3 = true ∧ primWf 9 = false ∧ primWf 1 = false ∧ primWf 0 = false := by decide

theorem test_wf_eccFn : eccFnWf (.affine 3 2) = true ∧ eccFnWf (.affine 3 0) = false ∧
    eccFnWf (.affine 1 1) = false ∧ eccFnWf (.table [1, 2]) = false := by decide

/-- A table that decreases, and one whose values leave 0..4095. -/
theorem test_wf_eccTable :
    eccFnWf (.table (5 :: List.replicate 4095 3)) = false ∧ eccFnWf (.table (List.replicate 4096 4096)) = false := by
  constructor
  · have h : ¬ List.Pairwise (· ≤ ·) (5 :: List.replicate 4095 3) := by
      intro h
      have := List.rel_of_pairwise_cons h (List.mem_replicate.2 ⟨by decide, rfl⟩)
      omega
    simp only [eccFnWf, h, decide_false, Bool.and_false]
  · have h : (List.replicate 4096 4096).all (fun v => decide (v ≤ 4095)) = false := by
      rw [List.all_replicate]
      rfl
    simp only [eccFnWf, h, Bool.and_false, Bool.false_and]

theorem test_wf_penSat : paramsWf { defaultParams with penSat := 0 } = false := by decide

/-- The default list and one with a candidate that lowers the width; no candidate, a candidate that keeps the sum's parity,
and a last candidate that does not enlarge both dimensions. -/
theorem test_wf_sizeTie : sizeTieWf [(0, 1), (1, 0), (1, 2)] = true ∧ sizeTieWf [(2, -1), (1, 2)] = true ∧
    sizeTieWf [] = false ∧ sizeTieWf [(1, 1), (1, 2)] = false ∧ sizeTieWf [(0, 1)] = false ∧
    sizeTieWf [(1, 0)] = false ∧ sizeTieWf [(2, -1)] = false := by decide

theorem test_wf_target : (Target.entry .src 4095).wf = true ∧ (Target.entry .src 4096).wf = false ∧
    (Target.entry .stream 20000).wf = false ∧ (Target.addr 0x200000).wf = false := by decide

theorem test_wf_stmt : (Stmt.wr (.reg .ctrl) (2 ^ 32)).wf = false ∧ (Stmt.wr (.entry .grid 40000) 0).wf = false ∧
    (Stmt.rd (.entry .work 4096)).wf = false ∧ (Stmt.pin 8).wf = false ∧ (Stmt.geom (2 ^ 32) 7).wf = false ∧
    (Stmt.geom 7 (2 ^ 32)).wf = false ∧ (Stmt.ldsrc [2 ^ 32]).wf = false ∧ (Stmt.pin 7).wf = true := by decide

theorem test_wf_ldsrc : (Stmt.ldsrc (List.replicate 4096 0)).wf = false := by
  simp only [Stmt.wf, List.length_replicate]
  rfl

/-! ### One step of each command, from the vectors of spec/95_test_vectors.md -/

/-- Whether the machine, given a command word, completes in a state of which `p` holds. -/
def ends (w : Word) (s : State) (p : State → Bool) : Bool :=
  match step (s.withFetchWord 32 w.toNat) with
  | .next t => p t
  | .fault _ => false
  | .refused _ => false

/-- The state right after reset with the entries of SRC from 0 up, their number in DATA_LEN, and the geometry. -/
def loaded (cs : List Codeword) (e h w : Nat) : State :=
  { State.reset with
    src := memCells 0 cs
    dataLen := BitVec.ofNat 12 cs.length
    eccLen := BitVec.ofNat 12 e
    gridH := BitVec.ofNat 8 h
    gridW := BitVec.ofNat 8 w }

/-- V-CT1. -/
theorem test_nop : ends 0x00000000 State.reset (fun t => statusWord t == 0x00000002) = true := by decide

/-- V-CT5. -/
theorem test_sreset : ends 0x01000000 { loaded [10, 20, 30] 4 10 13 with acc := 5, err := true, errCode := .len }
    (fun t => statusWord t == 0x00000002 && t.dataLen == 0 && t.gridH == 0 && t.acc == 0 && srcAt t 1 == 20) = true := by
  decide

/-- V-PK1: the fifth push, and V-PK11. -/
theorem test_pkPush_emits : ends 0x10000005 { State.reset with acc := 17508922, cnt := 4 }
    (fun t => t.pkOutN == 6 && packedDigits t 6 == [0, 40, 29, 102, 42, 36] && t.cnt == 0 && t.acc == 0) = true := by
  decide
theorem test_pkPush_range : ends 0x10000103 { State.reset with acc := 5, cnt := 1 }
    (fun t => statusWord t == 0x00000906 && t.acc == 5 && t.cnt == 1) = true := by decide

/-- V-PK10, its flush, and V-PK9. -/
theorem test_pkFlush_keepsStale : ends 0x11000000
    { State.reset with acc := 12, cnt := 1, pkOut := #v[2, 75, 10, 84, 59, 25] }
    (fun t => t.pkOutN == 2 && packedDigits t 6 == [0, 12, 10, 84, 59, 25]) = true := by decide
theorem test_pkFlush_empty : ends 0x11000000 { State.reset with pkOutN := 6 }
    (fun t => t.pkOutN == 0 && statusWord t == 0x00000002) = true := by decide

/-- V-DR2 and V-DR4. -/
theorem test_dotLookup : ends 0x20000005 State.reset (fun t => t.dotResult == 0x156) = true := by decide
theorem test_dotLookup_range : ends 0x20000071 { State.reset with dotResult := 7 }
    (fun t => statusWord t == 0x00000A06 && t.dotResult == 7) = true := by decide

/-- V-RS1 with an old value in the check words' place, and V-RS12. -/
theorem test_rsEncode : ends 0x30003003 { State.reset with work := memCells 0 [0, 1, 2, 77, 77, 77, 9] }
    (fun t => workWords t 7 == [0, 1, 2, 108, 102, 56, 9] && t.rsStep == 1) = true := by decide
theorem test_rsEncode_range : ends 0x30003003 { State.reset with work := memCells 0 [0, 113, 2] }
    (fun t => statusWord t == 0x00000806 && t.rsStep == 0) = true := by decide

/-- V-MA5 and V-MA7. -/
theorem test_maskApply : ends 0x40000003 (loaded [112, 112, 112, 112] 0 0 0)
    (fun t => workWords t 5 == [3, 112, 16, 33, 50]) = true := by decide
theorem test_maskApply_range : ends 0x40000001 (loaded [10, 200, 30] 0 0 0)
    (fun t => statusWord t == 0x00000806 && t.work == []) = true := by decide

/-- V-CA1 and V-CA3. -/
theorem test_candidate : ends 0x41000003 (loaded [10, 20, 30] 4 10 13)
    (fun t => workWords t 8 == [3, 10, 37, 64, 89, 66, 53, 6] && t.score == 80 && t.maskScore[3] == 80 &&
      msValidWord t == 0x0008 && t.streamLen == 65) = true := by decide
theorem test_candidate_priority : ends 0x41000003 (loaded [200] 0 7 9)
    (fun t => statusWord t == 0x00000306) = true := by decide

/-- The grid of V-SC6: 7 × 10, every data cell SET but those of row 3. -/
def gridSc6 : State :=
  { loaded [] 0 7 10 with
    grid := memCells 0 ((List.range 70).map (fun i => if i / 10 = 3 ∨ (i / 10 + i % 10) % 2 = 1 then 2 else 1)) }

/-- V-SC6, and V-SC3 with its two halves of SENTINEL. -/
theorem test_score : ends 0x42000000 gridSc6 (fun t => t.score == 50 && !t.reject && t.scValid) = true := by decide
theorem test_score_reject : ends 0x42000000 { loaded [] 0 7 10 with grid := memCells 0 (List.replicate 70 0) }
    (fun t => readReg t .scoreLo == 0xFFFE7961 && readReg t .scoreHi == 0xFFFFFFFF && t.reject) = true := by decide

/-- V-RUN6 as a SELECT: the pinned mask 0 wins although 9 is at most 65. -/
theorem test_select_pinned : ends 0x43000000 { loaded [10, 20, 30] 4 10 13 with pinEn := true, msValid := 0xFF }
    (fun t => bestMaskWord t == 0x100 && t.score == 9 && msValidWord t == 0x0001) = true := by decide

/-- ECCLEN of 3, and of 4095 (95_test_vectors.md 2.5). -/
theorem test_eccLen : ends 0x50000000 (loaded [10, 20, 30] 0 0 0) (fun t => t.eccLen == 4) = true := by decide
theorem test_eccLen_max : ends 0x50000000 { State.reset with dataLen := 4095 } (fun t => t.eccLen == 2050) = true := by
  decide

/-- A SIZE_TIE whose first candidate lowers the width (R8, R191): from the roots (5, 7) of d + e = 2 it gives 7 × 6, whose
area 42 is at least 40; from (7, 11) of d + e = 5 its area 90 is below 94, and the last candidate is taken. -/
theorem test_sizeTie_lowers : ∀ c ∈ [(2, 7, 6), (5, 8, 13)],
    autoSize { defaultParams with sizeTie := [(2, -1), (1, 2)] } c.1 0 = c.2 := by decide

/-- V-SZ2 and V-SZ15. -/
theorem test_size : ends 0x51000000 { State.reset with dataLen := 3, eccLen := 4 }
    (fun t => t.gridH == 10 && t.gridW == 13 && readReg t .ndots == 65) = true := by decide
theorem test_size_tooLarge : ends 0x51000000 { State.reset with dataLen := 50, eccLen := 28, widthReq := 5 }
    (fun t => statusWord t == 0x00000406 && t.gridH == 0) = true := by decide

/-- V-PD1 and V-PD6. -/
theorem test_pad : ends 0x52000000 { loaded [10, 20, 30] 4 5 40 with binFinish := true }
    (fun t => srcWords t 5 == [10, 20, 30, 109, 106] && t.dataLen == 5 && t.eccLen == 5) = true := by decide
theorem test_pad_len : ends 0x52000000 (loaded [1, 2, 3, 4] 5 9 10)
    (fun t => statusWord t == 0x00000B06 && t.dataLen == 4) = true := by decide

/-- The state of V-DS1. -/
def streamDs1 : State := { loaded [] 3 7 10 with work := memCells 0 [3, 109, 36, 73] }

/-- V-DS1 and V-DS3. -/
theorem test_dotStream : ends 0x53000000 streamDs1 (fun t => t.streamLen == 29 && (List.range 35).map (streamAt t) ==
    [1, 1, 1, 1, 0, 0, 1, 1, 1, 0, 0, 0, 1, 0, 1, 0, 0, 1, 1, 1, 0, 1, 1, 1, 1, 0, 0, 1, 0, 1, 1, 1, 1, 1, 1]) = true := by
  decide
theorem test_dotStream_range : ends 0x53000000 { loaded [] 3 7 10 with work := memCells 0 [4, 109, 36, 73] }
    (fun t => statusWord t == 0x00000806) = true := by decide

/-- V-FD1: only stream bit 6, then only bit 13 (a corner), is 1; they land in rows 1 and 0. -/
theorem test_fold_scan : ends 0x54000000
    { loaded [] 0 5 6 with stream := memCells 0 [0, 0, 0, 0, 0, 0, 1, 0, 0, 0, 0, 0, 0, 1, 0] }
    (fun t => (List.range 30).filter (fun i => gridAt t i == 1) == [0, 7] && gridAt t 1 == 2) = true := by decide
/-- V-FD2: only stream bits 8 and 9 are 1. -/
theorem test_fold_vertical : ends 0x54000000
    { loaded [] 0 6 5 with stream := memCells 0 [0, 0, 0, 0, 0, 0, 0, 0, 1, 1, 0, 0, 0, 0, 0] }
    (fun t => (List.range 30).filter (fun i => gridAt t i == 1) == [14, 24]) = true := by decide

/-- V-FD6, both geometries. -/
theorem test_forceCorners : ends 0x55000000 { loaded [] 0 5 6 with grid := memCells 0 (List.replicate 30 0) }
    (fun t => (List.range 30).filter (fun i => gridAt t i == 1) == [0, 4, 11, 23, 24, 28]) = true := by decide
theorem test_forceCorners_even : ends 0x55000000 { loaded [] 0 6 5 with grid := memCells 0 (List.replicate 30 0) }
    (fun t => (List.range 30).filter (fun i => gridAt t i == 1) == [0, 4, 20, 24, 26, 28]) = true := by decide

/-- V-RUN2: the empty message, a tie broken by LATER. -/
theorem test_run_empty : ends 0x60000000 State.reset (fun t => t.gridH == 7 && t.gridW == 10 && t.eccLen == 3 &&
    bestMaskWord t == 0x103 && t.score == 60 && msValidWord t == 0x000F && workWords t 4 == [3, 109, 36, 73]) = true := by
  decide
/-- V-RUN9. -/
theorem test_run_width : ends 0x60000000 { loaded [10, 20, 30] 0 0 0 with widthReq := 201 }
    (fun t => statusWord t == 0x00000206 && t.eccLen == 0 && t.gridH == 0) = true := by decide

/-! ### The bus, errors, the interrupt and the assembler -/

/-- The state after one host transaction. -/
def bus (addr : BusAddr) (a : Access) (s : State) : State := busTransaction ⟨addr, 0xF, a⟩ s

/-- V-CT6 to V-CT9: the most recent error wins, a clean command keeps it, and the host clears it. -/
theorem test_errors_last : ends 0x1000012C { State.reset with err := true, errCode := .rangeIdx, done := true }
    (fun t => statusWord t == 0x00000906) = true := by decide
theorem test_errors_sticky : ends 0x00000000 { State.reset with err := true, errCode := .rangePk, done := true }
    (fun t => statusWord t == 0x00000906 && statusWord (bus 0x008 (.write 4) t) == 0x00000002 &&
      statusWord (bus 0x008 (.write 0x1E) t) == 0) = true := by decide

/-- V-CT10, V-CT11, V-CT12 and a partial-width read (R69). -/
theorem test_bus_refused : ∀ t ∈ [bus 0x000002 .read State.reset, bus 0x0000C4 .read State.reset,
    bus 0x044000 (.write 5) State.reset, busTransaction ⟨0, 0x7, .read⟩ State.reset],
    t.response = some ⟨true, 0⟩ ∧ statusWord t = 0x00000010 ∧ t.src = [] := by decide

/-- V-CT13, V-CT17. -/
theorem test_bus_readOnly : (bus 0x000 .read (bus 0x000 (.write 0) State.reset)).response = some ⟨false, 0x44434C01⟩ ∧
    (bus 0x00C .read State.reset).response = some ⟨false, 0⟩ := by decide

/-- V-CT14, V-CT15: entries are cut to their width. -/
theorem test_bus_entries :
    (bus 0x040000 .read (bus 0x040000 (.write 0xFFFFFFFF) State.reset)).response = some ⟨false, 0x1FF⟩ ∧
      (bus 0x100000 .read (bus 0x100000 (.write 7) State.reset)).response = some ⟨false, 3⟩ := by decide

/-- V-CT16. -/
theorem test_bus_derived :
    readReg (bus 0x018 (.write 10) (bus 0x01C (.write 13) State.reset)) .ndots = 65 ∧
      readReg (bus 0x010 (.write 3) (bus 0x014 (.write 4) State.reset)) .minDots = 65 := by decide

/-- V-CT18, V-CT19. -/
theorem test_irq : ends 0x00000000 (bus 0x004 (.write 1) State.reset)
    (fun t => irq t && !irq (bus 0x008 (.write 2) t)) = true ∧
      irq (bus 0x000003 .read (bus 0x004 (.write 1) State.reset)) = true := by decide

/-- V-CT20: while BUSY both writes are dropped and OVR is set. -/
theorem test_busy_drop : ∀ t ∈ [bus 0x010 (.write 9) (bus 0x00C (.write 0x60000000) State.reset),
    bus 0x00C (.write 0) (bus 0x00C (.write 0x60000000) State.reset)],
    t.ovr = true ∧ t.berr = false ∧ t.dataLen = 0 ∧ t.pending = some 0x60000000#32 := by decide

/-- P1, statements 2 and 6, and P2, statement 1, as text: the transactions of the "bus" column. -/
theorem test_assembler_write : parseLine "  WR SRC[2], 30 ; third".toList = some (some (.wr (.entry .src 2) 30)) ∧
    stmtTurns (.wr (.entry .src 2) 30) = [.host ⟨0x040008, 0xF, .write 0x1E⟩] := by decide
theorem test_assembler_commands : parseLine "RS_ENCODE 4, 4".toList = some (some (.cmd (.rsEncode 4 4))) ∧
    stmtTurns (.cmd (.rsEncode 4 4)) = [.host ⟨0x00C, 0xF, .write 0x30004004⟩] ∧
    parseLine "EXEC MASK_APPLY 0x3".toList = some (some (.exec (.maskApply 3))) ∧
    parseLine "MASK_APPLY 4".toList = none ∧ parseLine "; nothing".toList = some none := by decide
theorem test_assembler_pseudo : stmtTurns (.ldsrc [10, 20]) = [.host ⟨0x040000, 0xF, .write 10⟩,
      .host ⟨0x040004, 0xF, .write 20⟩, .host ⟨0x010, 0xF, .write 2⟩] ∧
    stmtTurns (.pin 6) = [.host ⟨0x024, 0xF, .write 0x106⟩] ∧
    stmtTurns (.geom 7 10) = [.host ⟨0x018, 0xF, .write 7⟩, .host ⟨0x01C, 0xF, .write 10⟩] ∧
    parseLine "LDSRC 10, 20".toList = some (some (.ldsrc [10, 20])) ∧
    parseLine "PIN 7".toList = some (some (.pin 7)) ∧ parseLine "PIN 8".toList = none ∧
    parseLine "RD PK_OUT5".toList = some (some (.rd (.reg (.pkOut 5)))) := by decide

/-! ### Witnesses: states and operands that meet the hypotheses of the statements, each clause at a boundary -/

/-- The reset state with a pending word and a turn list. -/
def pendingWord (w : Word) (turns : List Turn) : State := { State.reset with pending := some w, turns := turns }

theorem witness_EncodeInvertsDecode : decode 0x10000000#32 = .ok (.pkPush 0) ∧ decode 0x30FFFFFF#32 = .ok (.rsEncode 4095 4095) := by
  decide

theorem witness_DecodeMatchesTheOpcodeTable : rowOf (.candidate 0) ∈ opcodeTable ∧
    0x41000007#32 &&& (rowOf (.candidate 0)).mask = (rowOf (.candidate 0)).pattern ∧
    ∀ r ∈ opcodeTable, 0x41000008#32 &&& r.mask ≠ r.pattern := by decide

theorem witness_IllegalWordsRecordIllegalCmd : (pendingWord 0x11000001 []).inReset = false ∧
    (pendingWord 0x11000001 []).pending = some 0x11000001#32 ∧ wordWf 0x11000001#32 = false ∧
    wordWf 0xFF000000#32 = false := by decide

theorem witness_StepRunsThePendingCommand :
    (pendingWord 0x60000000 [.engine]).turns = .engine :: [] ∧ (pendingWord 0x60000000 [.engine]).inReset = false ∧
      (pendingWord 0x60000000 [.engine]).pending = some 0x60000000#32 ∧ decode 0x60000000#32 = .ok .run ∧
      (pendingWord 0x60000000 []).turns = [] ∧
      (pendingWord 0 [.host ⟨0x010, 0xF, .read⟩]).turns = .host ⟨0x010, 0xF, .read⟩ :: [] := by decide

/-- The data of V-RUN1, automatic, at the smallest and at the largest pinned width. -/
theorem witness_RunIsItsFourSteps : ∀ wr ∈ [0, 5, 200],
    let s : State := { loaded [10, 20, 30] 0 0 0 with widthReq := wr }
    let hw := sizeFor s.params (dLen s) (eccAt s.params.eccFn (dLen s)) s.widthReq.toNat
    paramsWf s.params = true ∧ (s.widthReq.toNat = 0 ∨ (5 ≤ s.widthReq.toNat ∧ s.widthReq.toNat ≤ 200)) ∧
      5 ≤ hw.1 ∧ hw.1 ≤ 200 ∧ 5 ≤ hw.2 ∧ hw.2 ≤ 200 ∧ ∀ j < dLen s, (srcAt s j).toNat ≤ 112 := by decide

/-- The reset state with the packer holding `n` values, the largest they can be. -/
def packerFull (n : Nat) : State := { State.reset with acc := BitVec.ofNat 41 (259 ^ n - 1), cnt := BitVec.ofNat 3 n }

theorem packerFull_inv : ∀ n ∈ [0, 1, 3, 4], packerInv (packerFull n) := by
  simp only [packerInv]
  decide

theorem witness_PkPushAccumulates : (packerFull 0).cnt.toNat ≤ 3 ∧ (packerFull 3).cnt.toNat ≤ 3 ∧
    packerInv (packerFull 0) ∧ packerInv (packerFull 3) ∧ (258 : BitVec 9).toNat ≤ 258 ∧ 258 < (259 : BitVec 9).toNat :=
  ⟨by decide, by decide, packerFull_inv 0 (by decide), packerFull_inv 3 (by decide), by decide, by decide⟩

theorem witness_FifthPushEmitsSixCodewords : packerInv (packerFull 4) ∧ (packerFull 4).cnt.toNat = 4 ∧
    (258 : BitVec 9).toNat ≤ 258 := ⟨packerFull_inv 4 (by decide), by decide, by decide⟩

theorem witness_PkFlushEmitsThePending : packerInv (packerFull 0) ∧ (packerFull 0).cnt.toNat = 0 ∧
    packerInv (packerFull 1) ∧ packerInv (packerFull 4) ∧ (packerFull 4).cnt.toNat ≠ 0 :=
  ⟨packerFull_inv 0 (by decide), by decide, packerFull_inv 1 (by decide), packerFull_inv 4 (by decide), by decide⟩

/-- One value, and five, the first case through a flush and the second through the fifth push; two commands' states. -/
theorem witness_PackingLosesNothing : State.reset.cnt = 0 ∧ State.reset.acc = 0 ∧
    (∀ vs ∈ [[258], [258, 258, 258, 258, (258 : BitVec 9)]], 1 ≤ vs.length ∧ vs.length ≤ 5 ∧ ∀ v ∈ vs, v.toNat ≤ 258) ∧
    (∃ t, execAll (packCommands [258]) State.reset = .next t ∧ packedDigits t 2 = packedDigits t 2) :=
  ⟨by decide, by decide, by decide, _, rfl, rfl⟩

theorem witness_PackerIsIndependent : (∀ v, Instr.select ≠ .pkPush v) ∧ Instr.select ≠ .pkFlush ∧ Instr.select ≠ .sreset ∧
    ∃ t, exec .select State.reset = .next t := ⟨by simp, by decide, by decide, _, rfl⟩

theorem witness_DotLookupReadsTheRom : (112 : BitVec 8).toNat < 113 ∧ 112 < (113 : BitVec 8).toNat := by decide

/-- WORK holding the data words of a run. -/
def working (cs : List Codeword) : State := { State.reset with work := memCells 0 cs }

/-- Three words, no word at all, and one word with every entry of WORK in use. -/
theorem witness_RsEncodeIsSystematic : ((3 : BitVec 12).toNat + (3 : BitVec 12).toNat ≤ 4096 ∧
    (1 : BitVec 12).toNat + (4095 : BitVec 12).toNat ≤ 4096 ∧ (0 : BitVec 12).toNat = 0) ∧
    (∀ i < 3, (workAt (working [0, 112, 2]) i).toNat ≤ 112) ∧ (∀ i < 1, (workAt (working [0]) i).toNat ≤ 112) ∧
    ∀ i < 0, (workAt State.reset i).toNat ≤ 112 := ⟨by decide, by decide, by decide, by simp⟩

/-- The last root of the one block of V-RS1, and of the second of two blocks of 113 check words. -/
theorem witness_RsBlocksVanishAtTheRoots : ∀ c ∈ [((3 : BitVec 12), (3 : BitVec 12), (1, 0, 2)), (0, 113, (2, 1, 55))],
    c.1.toNat + c.2.1.toNat ≤ 4096 ∧ (∀ i < c.1.toNat, (workAt (working [0, 1, 2]) i).toNat ≤ 112) ∧
      c.2.2.1 = (c.1.toNat + c.2.1.toNat + 111) / 112 ∧ c.2.2.2.1 < c.2.2.1 ∧
      c.2.2.2.2 < (c.1.toNat + c.2.1.toNat + (c.2.2.1 - 1) - c.2.2.2.1) / c.2.2.1 -
        (c.1.toNat + (c.2.2.1 - 1) - c.2.2.2.1) / c.2.2.1 := by decide

/-- The data of V-RS's linearity note, and a sum that wraps; all-zero data. -/
theorem witness_RsCheckWordsAreLinear :
    (∀ i < 3, (workAt (working [1, 2, 112]) i).toNat ≤ 112 ∧ (workAt (working [4, 5, 6]) i).toNat ≤ 112 ∧
      (workAt (working [5, 7, 5]) i).toNat =
        ((workAt (working [1, 2, 112]) i).toNat + (workAt (working [4, 5, 6]) i).toNat) % 113) ∧
      (working [5, 7, 5]).params = (working [1, 2, 112]).params ∧ ∀ i < 2, workAt (working [0, 0]) i = 0 := by decide

/-- SRC with the largest field elements; no data at all. -/
theorem witness_MaskApplyWeightsTheData : SourceInRange (loaded [112, 112] 0 0 0) ∧ SourceInRange State.reset := by
  simp only [SourceInRange]
  decide

/-- The exact fit of V-CA1, and the smallest automatic grid with no data. -/
theorem witness_CandidateReady : CandidateReady (loaded [10, 20, 30] 4 10 13) ∧ CandidateReady (loaded [] 3 7 10) := by
  simp only [CandidateReady, SourceInRange]
  decide

theorem witness_CandidateIsItsSteps : CandidateReady (loaded [10, 20, 30] 4 10 13) := witness_CandidateReady.1

theorem witness_CandidateWritesOnlyItsResults : CandidateReady (loaded [10, 20, 30] 4 10 13) := witness_CandidateReady.1

theorem witness_SelectRunsThePinnedMask : CandidateReady { loaded [10, 20, 30] 4 10 13 with pinEn := true, pinMask := 7 } ∧
    { loaded [10, 20, 30] 4 10 13 with pinEn := true, pinMask := 7 }.pinEn = true := ⟨witness_CandidateReady.1, rfl⟩

theorem witness_SelectChoosesTheBestMask : CandidateReady (loaded [10, 20, 30] 4 10 13) ∧
    (loaded [10, 20, 30] 4 10 13).pinEn = false := ⟨witness_CandidateReady.1, rfl⟩

theorem witness_SelectLeavesTheWinner : CandidateReady (loaded [10, 20, 30] 4 10 13) := witness_CandidateReady.1

/-- Two states with the same data that differ in WORK, GRID and the old scores. -/
theorem witness_SelectDependsOnlyOnItsInputs :
    SameSelectInputs (loaded [10, 20, 30] 4 10 13)
      { loaded [10, 20, 30] 4 10 13 with work := [(0, 99)], grid := [(5, 1)], msValid := 0xFF, epoch := 1 } ∧
    CandidateReady (loaded [10, 20, 30] 4 10 13) :=
  ⟨⟨rfl, rfl, rfl, rfl, rfl, rfl, rfl, by decide⟩, witness_CandidateReady.1⟩

/-- The smallest and the largest legal geometries, of both parities of H. -/
theorem witness_geometry : ∀ hw ∈ [(5, 6), (6, 5), (199, 200), (200, 199)],
    geomOk (gridRows (loaded [] 0 hw.1 hw.2)) (gridCols (loaded [] 0 hw.1 hw.2)) = true := by decide

theorem witness_ScoreRejectsExactlyEmptyEdges : geomOk (gridRows (loaded [] 0 5 6)) (gridCols (loaded [] 0 5 6)) = true :=
  witness_geometry (5, 6) (by decide)

theorem witness_FullGridScoresItsWorstEdge : ∀ hw ∈ [(5, 6), (6, 5)],
    let s : State := { loaded [] 0 hw.1 hw.2 with grid := memCells 0 (List.replicate 30 1) }
    geomOk (gridRows s) (gridCols s) = true ∧
      ∀ r < gridRows s, ∀ c < gridCols s, (r + c) % 2 = 0 → gridAt s (r * gridCols s + c) = 1 := by decide

theorem witness_ScoresAreBounded : geomOk (gridRows gridSc6) (gridCols gridSc6) = true ∧
    gridSc6.params.penSat ≤ 2 ^ 62 := by decide

/-- V-SC6's grid and one that holds RESV where that one holds NONDATA, and 1 at a non-data cell. -/
theorem witness_ScoreReadsOnlyDataDots :
    let r : State := { gridSc6 with
      grid := memCells 0 ((List.range 70).map (fun i =>
        if i / 10 = 3 then 3 else if (i / 10 + i % 10) % 2 = 1 then 1 else 1)) }
    gridSc6.params = r.params ∧ gridSc6.gridH = r.gridH ∧ gridSc6.gridW = r.gridW ∧
      geomOk (gridRows gridSc6) (gridCols gridSc6) = true ∧
      ∀ y < gridRows gridSc6, ∀ x < gridCols gridSc6, (y + x) % 2 = 0 →
        (gridAt gridSc6 (y * gridCols gridSc6 + x) = 1 ↔ gridAt r (y * gridCols gridSc6 + x) = 1) := by decide

/-- A run in the middle, and one of all the interior lines; two runs and an empty one as the lines of `ks`; and V-SC6's grid,
which is not rejected. -/
theorem witness_OneClearRunCostsItsPower :
    (2 + 2 + 1 ≤ 7 ∧ ∀ y, 1 ≤ y → y + 2 ≤ 7 → (((y == 2 || y == 3) = true) ↔ 2 ≤ y ∧ y < 2 + 2)) ∧
      (1 + 5 + 1 ≤ 7 ∧ ∀ y, 1 ≤ y → y + 2 ≤ 7 → (((fun _ : Nat => true) y = true) ↔ 1 ≤ y ∧ y < 1 + 5)) ∧
      (linesOfRuns [2, 0] 1 = [true, true, false, false, true] ∧ ∀ i, (h : i < (linesOfRuns [2, 0] 1).length) →
        (fun y => decide (y ≤ 2 ∨ 5 ≤ y)) (i + 1) = (linesOfRuns [2, 0] 1)[i]) ∧
      (geomOk (gridRows gridSc6) (gridCols gridSc6) = true ∧ ∃ t, exec .score gridSc6 = .next t ∧ t.reject = false) := by
  refine ⟨⟨by decide, fun y h1 h2 => ?_⟩, ⟨by decide, fun y h1 h2 => ?_⟩, by decide, by decide, _, rfl, by decide⟩
  · simp only [Bool.or_eq_true, beq_iff_eq]
    omega
  · simp only [true_iff]
    omega

theorem witness_EccLenAppliesEccFn : eccFnWf State.reset.params.eccFn = true ∧ State.reset.params.eccFn = .affine 3 2 := by
  decide

/-- One length for each clause of the tie-break, d + e = 3, 2 (the smallest), 1481 (the largest) and 5, and the first length
of each capacity code, 1482, 3345 and 1 (R193, V-SZ4 to V-SZ10), for SIZE with `e = 0` in ECC_LEN. -/
theorem witness_AutomaticSizeFollowsTheRoots : ∀ c ∈ [(3, (6, 9), (7, 10)), (2, (5, 7), (5, 8)),
      (1481, (133, 199), (134, 199)), (5, (7, 11), (8, 13)),
      (1482, (133, 200), (134, 201)), (3345, (200, 300), (201, 300)), (1, (3, 5), (4, 7))],
    let area := 2 * (9 * (c.1 + 0) + 2)
    let s : State := { State.reset with dataLen := BitVec.ofNat 12 c.1 }
    s.widthReq.toNat = 0 ∧ s.params.sizeTie = [(0, 1), (1, 0), (1, 2)] ∧ 0 = eLen s ∧ area = 2 * (9 * (dLen s + 0) + 2) ∧
      c.2.1.1 * c.2.1.1 ≤ 2 * area / 3 ∧ 2 * area / 3 < (c.2.1.1 + 1) * (c.2.1.1 + 1) ∧
      c.2.1.2 * c.2.1.2 ≤ 3 * area / 2 ∧ 3 * area / 2 < (c.2.1.2 + 1) * (c.2.1.2 + 1) ∧
      c.2.2 = (if (c.2.1.1 + c.2.1.2) % 2 = 1 then (c.2.1.1 + 1, c.2.1.2 + 1)
        else if area ≤ c.2.1.1 * (c.2.1.2 + 1) then (c.2.1.1, c.2.1.2 + 1)
        else if area ≤ (c.2.1.1 + 1) * c.2.1.2 then (c.2.1.1 + 1, c.2.1.2)
        else (c.2.1.1 + 1, c.2.1.2 + 2)) ∧
      ((5 ≤ c.2.2.1 ∧ c.2.2.1 ≤ 200 ∧ 5 ≤ c.2.2.2 ∧ c.2.2.2 ≤ 200) ∨ (200 < c.2.2.1 ∧ 200 < c.2.2.2) ∨
        (c.2.2.1 ≤ 200 ∧ 200 < c.2.2.2) ∨ (c.2.2.1 ≤ 200 ∧ c.2.2.2 ≤ 200 ∧ (c.2.2.1 < 5 ∨ c.2.2.2 < 5))) := by decide

/-- The same for RUN with the default ECC_FN, `e = 3 + d div 2`: V-RUN1 (d = 3), the empty message, the largest that fits,
d = 986 (d + e = 1482 is one too many), the first length of each capacity code (R193), and an ECC_FN of 0 for CAP_SMALL. -/
theorem witness_AutomaticSizeFollowsTheRoots_run : ∀ c ∈ [(3, 3, (9, 13), (10, 13)), (0, 3, (6, 9), (7, 10)),
      (985, 3, (133, 199), (134, 199)), (986, 3, (133, 200), (134, 201)), (2228, 3, (200, 300), (201, 300)),
      (1, 0, (3, 5), (4, 7))],
    let s : State := { State.reset with
      dataLen := BitVec.ofNat 12 c.1, params := { defaultParams with eccFn := .affine c.2.1 2 } }
    let e := c.2.1 + c.1 / 2
    let area := 2 * (9 * (dLen s + e) + 2)
    s.widthReq.toNat = 0 ∧ s.params.sizeTie = [(0, 1), (1, 0), (1, 2)] ∧ e = eccAt s.params.eccFn (dLen s) ∧
      c.2.2.1.1 * c.2.2.1.1 ≤ 2 * area / 3 ∧ 2 * area / 3 < (c.2.2.1.1 + 1) * (c.2.2.1.1 + 1) ∧
      c.2.2.1.2 * c.2.2.1.2 ≤ 3 * area / 2 ∧ 3 * area / 2 < (c.2.2.1.2 + 1) * (c.2.2.1.2 + 1) ∧
      c.2.2.2 = (if (c.2.2.1.1 + c.2.2.1.2) % 2 = 1 then (c.2.2.1.1 + 1, c.2.2.1.2 + 1)
        else if area ≤ c.2.2.1.1 * (c.2.2.1.2 + 1) then (c.2.2.1.1, c.2.2.1.2 + 1)
        else if area ≤ (c.2.2.1.1 + 1) * c.2.2.1.2 then (c.2.2.1.1 + 1, c.2.2.1.2)
        else (c.2.2.1.1 + 1, c.2.2.1.2 + 2)) := by decide

/-- V-SZ11, V-SZ12 and V-SZ15: a fit at the smallest width, the floor at the largest, and a height above 200. -/
theorem witness_PinnedSizeFollowsTheWidth : ∀ c ∈ [(7, 5, 26, 26), (3, 200, 5, 5), (78, 5, 282, 282)],
    let area := 2 * (9 * c.1 + 2)
    let s : State := { State.reset with dataLen := BitVec.ofNat 12 c.1, widthReq := BitVec.ofNat 8 c.2.1 }
    5 ≤ s.widthReq.toNat ∧ s.widthReq.toNat ≤ 200 ∧ 0 = eLen s ∧ area = 2 * (9 * (dLen s + 0) + 2) ∧
      c.2.2.1 = max ((area + s.widthReq.toNat - 1) / s.widthReq.toNat) 5 ∧
      c.2.2.2 = (if (c.2.2.1 + s.widthReq.toNat) % 2 = 0 then c.2.2.1 + 1 else c.2.2.1) := by decide

/-- RUN at pinned widths: 3 data codewords at width 5, which fit, and 50 of them, which with 28 check codewords do not. -/
theorem witness_PinnedSizeFollowsTheWidth_run : ∀ c ∈ [(3, 4, 5, 26, 26), (50, 28, 5, 282, 282)],
    let area := 2 * (9 * (c.1 + c.2.1) + 2)
    let s : State := { State.reset with dataLen := BitVec.ofNat 12 c.1, widthReq := BitVec.ofNat 8 c.2.2.1, src := [] }
    5 ≤ s.widthReq.toNat ∧ s.widthReq.toNat ≤ 200 ∧ c.2.1 = eccAt s.params.eccFn (dLen s) ∧ dLen s = c.1 ∧
      c.2.2.2.1 = max ((area + s.widthReq.toNat - 1) / s.widthReq.toNat) 5 ∧
      c.2.2.2.2 = (if (c.2.2.2.1 + s.widthReq.toNat) % 2 = 0 then c.2.2.2.1 + 1 else c.2.2.2.1) := by decide

/-- Data codewords that are in range, for the completions of RUN. -/
theorem witness_sourceInRange : SourceInRange (loaded [10, 20, 112] 0 0 0) := by
  simp only [SourceInRange]
  decide

theorem witness_SizeLeavesALegalGeometry : sizeTieWf State.reset.params.sizeTie = true := by decide

theorem witness_IllegalWidthRaisesCfgWidth : ∀ wr ∈ [(1 : BitVec 8), 4, 201, 255],
    { State.reset with widthReq := wr }.widthReq.toNat ≠ 0 ∧
      ({ State.reset with widthReq := wr }.widthReq.toNat < 5 ∨ 200 < { State.reset with widthReq := wr }.widthReq.toNat) := by
  decide

/-- V-PD1, where two pads fit, and the exact fit of V-PD5, where none does. -/
theorem witness_PadFillsTheFreeSlots : ∀ s ∈ [loaded [10, 20, 30] 4 5 40, loaded [10, 20, 30] 4 10 13],
    eccFnWf s.params.eccFn = true ∧ geomOk (gridRows s) (gridCols s) = true ∧
      9 * (dLen s + eLen s) + 2 ≤ gridRows s * gridCols s / 2 := by decide

theorem witness_DotStreamExpandsWork : geomOk (gridRows streamDs1) (gridCols streamDs1) = true ∧
    9 * (dLen streamDs1 + eLen streamDs1) + 2 ≤ gridRows streamDs1 * gridCols streamDs1 / 2 ∧
    (workAt streamDs1 0).toNat ≤ 3 ∧
    ∀ i < 4, 1 ≤ i → i ≤ dLen streamDs1 + eLen streamDs1 → (workAt streamDs1 i).toNat ≤ 112 := by decide

theorem witness_FoldPlacesEachBit : geomOk (gridRows (loaded [] 0 5 6)) (gridCols (loaded [] 0 5 6)) = true ∧
    geomOk (gridRows (loaded [] 0 6 5)) (gridCols (loaded [] 0 6 5)) = true := by decide

theorem witness_FoldIsABijection : geomOk 5 6 = true ∧ gridRows (loaded [] 0 5 6) = 5 ∧ gridCols (loaded [] 0 5 6) = 6 := by
  decide

theorem witness_ForceCornersSetsSixCells : geomOk (gridRows (loaded [] 0 5 6)) (gridCols (loaded [] 0 5 6)) = true ∧
    geomOk (gridRows (loaded [] 0 6 5)) (gridCols (loaded [] 0 6 5)) = true := by decide

/-- V-FD7 and V-PD9: each way a geometry can be illegal; and a legal pair for the second clause. -/
theorem witness_BadGeometryRaisesCfgGeom : (∀ hw ∈ [(4, 7), (201, 6), (6, 4), (6, 201), (7, 9), (0, 0)],
    ¬(5 ≤ gridRows (loaded [] 0 hw.1 hw.2) ∧ gridRows (loaded [] 0 hw.1 hw.2) ≤ 200 ∧
      5 ≤ gridCols (loaded [] 0 hw.1 hw.2) ∧ gridCols (loaded [] 0 hw.1 hw.2) ≤ 200 ∧
      (gridRows (loaded [] 0 hw.1 hw.2) + gridCols (loaded [] 0 hw.1 hw.2)) % 2 = 1)) ∧
    (5 ≤ 5 ∧ 5 ≤ 200 ∧ 5 ≤ 200 ∧ 200 ≤ 200 ∧ (5 + 200) % 2 = 1) := by decide

/-- V-CA2, and a grid of 9 × 14 = 126 cells, two dots short; RS_ENCODE one entry too long. -/
theorem witness_OverlongArraysRaiseLen : (∀ s ∈ [loaded [10, 20, 30] 4 7 10, loaded [10, 20, 30] 4 9 14],
    geomOk (gridRows s) (gridCols s) = true ∧ gridRows s * gridCols s / 2 < 9 * (dLen s + eLen s) + 2) ∧
    4096 < (2 : BitVec 12).toNat + (4095 : BitVec 12).toNat := by
  decide

/-- V-MA7; V-CA1 with 113 in SRC; V-RS12; V-DS3 and V-DS1 with 113 as the last codeword; V-RUN10's kind, automatic and at a
pinned width. -/
theorem witness_LargeCodewordsRaiseRangeCw :
    (1 < dLen (loaded [10, 200, 30] 0 0 0) ∧ 112 < (srcAt (loaded [10, 200, 30] 0 0 0) 1).toNat) ∧
    (2 < dLen (loaded [10, 20, 113] 4 10 13) ∧ 112 < (srcAt (loaded [10, 20, 113] 4 10 13) 2).toNat ∧
      geomOk 10 13 = true ∧ 9 * (3 + 4) + 2 ≤ 10 * 13 / 2) ∧
    ((3 : BitVec 12).toNat + (3 : BitVec 12).toNat ≤ 4096 ∧ 1 < (3 : BitVec 12).toNat ∧
      112 < (workAt (working [0, 113, 2]) 1).toNat) ∧
    (∀ c ∈ [([4, 109, 36, 73], 0), ([3, 109, 36, (113 : Codeword)], 3)],
      let s : State := { loaded [] 3 7 10 with work := memCells 0 c.1 }
      geomOk (gridRows s) (gridCols s) = true ∧ 9 * (dLen s + eLen s) + 2 ≤ gridRows s * gridCols s / 2 ∧
        c.2 ≤ dLen s + eLen s ∧ (if c.2 = 0 then 3 else 112) < (workAt s c.2).toNat) ∧
    (∀ c ∈ [((0 : BitVec 8), 10, 13), (5, 26, 5)],
      let s : State := { loaded [10, 20, 113] 0 0 0 with widthReq := c.1 }
      (s.widthReq.toNat = 0 ∨ (5 ≤ s.widthReq.toNat ∧ s.widthReq.toNat ≤ 200)) ∧
        c.2 = sizeFor s.params (dLen s) (eccAt s.params.eccFn (dLen s)) s.widthReq.toNat ∧
        2 < dLen s ∧ 112 < (srcAt s 2).toNat) := by decide

theorem witness_CommandsKeepTheHostsRegisters : Instr.run ≠ .sreset := by decide

/-- An illegal word, and a push of 300, at the instant of a STATUS write. -/
theorem witness_StatusWriteOneToClear : State.reset.inReset = false ∧ wordWf 0x02000000#32 = false ∧
    decode 0x1000012C#32 = .ok (.pkPush 300) ∧
    (pendingWord 0x1000012C [.together ⟨0x008, 0xF, .write 0x1E⟩]).pending = some 0x1000012C#32 ∧
    (pendingWord 0x1000012C [.together ⟨0x008, 0xF, .write 0x1E⟩]).turns =
      .together ⟨0x008, 0xF, .write 0x1E⟩ :: [] := by decide

/-- The race of R291: ERR is 1 with another code, the write clears it, and the push of 300 sets it anew; a push of 5 does
not. -/
theorem witness_StatusWriteOneToClear_error :
    let s : State := { pendingWord 0x1000012C [.together ⟨0x008, 0xF, .write 0x04⟩] with err := true, errCode := .len }
    exec (.pkPush 300) { s with err := false, errCode := .none } =
        .next { s with err := true, errCode := .rangePk, done := true, pending := none } ∧
      (∃ t, step s = .next t ∧ t.err = true ∧ t.errCode = .rangePk) ∧
      ∃ u, exec (.pkPush 5) { s with err := false, errCode := .none } = .next u ∧ u.err = false :=
  ⟨rfl, ⟨_, rfl, rfl, rfl⟩, _, rfl, rfl⟩

/-- Every kind of place: a register, CMD and an entry of a buffer. -/
theorem witness_WritesWhileBusyAreDropped : (pendingWord 0 []).inReset = false ∧ busy (pendingWord 0 []) = true ∧
    (∀ c ∈ [((0x010 : BusAddr), Place.reg .dataLen), (0x00C, .reg .cmd), (0x1270FC, .entry .grid 39999)],
      admitted ⟨c.1, 0xF, .write 9⟩ = some c.2 ∧ c.2 ≠ .reg .ctrl ∧ c.2 ≠ .reg .status) := by decide

theorem witness_ReadsWhileBusy : (pendingWord 0 []).inReset = false ∧ busy (pendingWord 0 []) = true ∧
    (∀ c ∈ [((0x038 : BusAddr), Place.reg .scoreLo), (0x040000, .entry .src 0)],
      admitted ⟨c.1, 0xF, .read⟩ = some c.2 ∧ c.2 ≠ .reg .id ∧ c.2 ≠ .reg .ctrl ∧ c.2 ≠ .reg .status) := by decide

/-- Misaligned, partial, and both ends of every unmapped range. -/
theorem witness_RefusedTransactionsSetBerr : ∀ x ∈ [(⟨3, 0xF, .read⟩ : Txn), ⟨0, 0xE, .read⟩, ⟨0xC4, 0xF, .read⟩,
      ⟨0x3FFFC, 0xF, .read⟩, ⟨0x44000, 0xF, .read⟩, ⟨0x7FFFC, 0xF, .read⟩, ⟨0x84000, 0xF, .read⟩, ⟨0xBFFFC, 0xF, .read⟩,
      ⟨0xD3880, 0xF, .read⟩, ⟨0xFFFFC, 0xF, .read⟩, ⟨0x127100, 0xF, .read⟩, ⟨0x1FFFFC, 0xF, .read⟩],
    State.reset.inReset = false ∧ (x.addr.toNat % 4 ≠ 0 ∨ x.lanes ≠ 0xF#4 ∨ (0xC4 ≤ x.addr.toNat ∧ x.addr.toNat < 0x40000) ∨
      (0x44000 ≤ x.addr.toNat ∧ x.addr.toNat < 0x80000) ∨ (0x84000 ≤ x.addr.toNat ∧ x.addr.toNat < 0xC0000) ∨
      (0xD3880 ≤ x.addr.toNat ∧ x.addr.toNat < 0x100000) ∨ 0x127100 ≤ x.addr.toNat) := by decide

theorem witness_RegisterMapReadsAndWrites : regAt 0x0C0 = some .msValid ∧ regAt 0x000 = some .id ∧
    State.reset.inReset = false ∧ State.reset.pending = none ∧ Reg.maskCfg ≠ .status ∧ Reg.maskCfg ≠ .cmd ∧
    writableBits .maskCfg ≠ 0 ∧ Reg.scoreLo ≠ .status ∧ Reg.scoreLo ≠ .cmd ∧ writableBits .scoreLo = 0 := by decide

theorem witness_BufferEntriesReadBack : State.reset.inReset = false ∧ State.reset.pending = none ∧ 0 < depth .src ∧
    39999 < depth .grid ∧ (loaded [511] 0 7 10).pending = none ∧ srcAt (loaded [511] 0 7 10) 0 = 511 := by decide

theorem witness_CmdWriteIssuesOneCommand : State.reset.inReset = false ∧ State.reset.pending = none ∧
    (pendingWord 7 []).inReset = false ∧ (pendingWord 7 []).pending = some 7#32 := by decide

/-- Both ends of the range of the dimensions, and an idle state. -/
theorem witness_DerivedRegistersFollowAtOnce : (∀ hw ∈ [(5, 5), (200, 200)],
    5 ≤ (loaded [] 0 hw.1 hw.2).gridH.toNat ∧ (loaded [] 0 hw.1 hw.2).gridH.toNat ≤ 200 ∧
      5 ≤ (loaded [] 0 hw.1 hw.2).gridW.toNat ∧ (loaded [] 0 hw.1 hw.2).gridW.toNat ≤ 200) ∧
    State.reset.inReset = false ∧ State.reset.pending = none := by decide

theorem witness_IrqFollowsStatus : State.reset.inReset = false := rfl

theorem witness_BusyHostDoesNotDisturbTheCommand : (pendingWord 0x60000000 []).inReset = false ∧
    (pendingWord 0x60000000 []).pending = some 0x60000000#32 ∧ Instr.run ≠ .sreset := by decide

theorem witness_HardwareResetStartsAfresh :
    (pendingWord 0x60000000 [.resetAssert, .resetRelease]).turns = .resetAssert :: .resetRelease :: [] ∧
      (assertReset State.reset).inReset = true := by decide

/-- A state after an error, with a value in the packer and a pending command, meets the invariant. -/
theorem witness_EveryStepKeepsTheInvariant :
    Inv { packerFull 4 with err := true, errCode := .len, pending := some 0x60000000, src := [(0, 5), (4095, 6)] } where
  params := by decide
  memory := by decide
  packer := packerFull_inv 4 (by decide)
  outCount := .inl (by decide)
  digits := by decide
  errors := by decide
  steps := by decide
  streamLen := by decide
  idleInReset := by decide

end Sys2Proof.Tests
end

/-! The register map (R23) and the rules of one host transaction (R61): what an address names, and what a read or a write
of a register does while the DCLE is idle and while it is busy. -/

namespace Sys2Proof.Machine

theorem regAt_pkOut : ∀ k : Fin 6, regAt (regOffset (.pkOut k)) = some (.pkOut k) := by decide

theorem regAt_mscoreLo : ∀ m : Fin 8, regAt (regOffset (.mscoreLo m)) = some (.mscoreLo m) := by decide

theorem regAt_mscoreHi : ∀ m : Fin 8, regAt (regOffset (.mscoreHi m)) = some (.mscoreHi m) := by decide

/-- The map finds every register at its own offset: the offsets of R23 are pairwise different. -/
theorem regAt_regOffset (r : Reg) : regAt (regOffset r) = some r := by
  cases r with
  | pkOut k => exact regAt_pkOut k
  | mscoreLo m => exact regAt_mscoreLo m
  | mscoreHi m => exact regAt_mscoreHi m
  | _ => rfl

theorem regOffset_of_regAt {a : Nat} {r : Reg} (h : regAt a = some r) : regOffset r = a :=
  beq_iff_eq.1 (List.find?_some (p := fun q => regOffset q == a) h)

/-- MS_VALID is the last register of the block (R23). -/
theorem regOffset_lt (r : Reg) : regOffset r < 0xC4 := by
  cases r <;> simp only [regOffset] <;> omega

theorem regOffset_mod_four (r : Reg) : regOffset r % 4 = 0 := by
  cases r <;> simp only [regOffset] <;> omega

theorem regAt_eq_none {a : Nat} (h : 0xC4 ≤ a) : regAt a = none := by
  refine Option.eq_none_iff_forall_not_mem.2 fun r hr => ?_
  have hlt := regOffset_lt r
  rw [regOffset_of_regAt hr] at hlt
  omega

theorem entryAt_eq_none {b : Buffer} {a : Nat} (h : a < windowBase b ∨ windowBase b + 4 * depth b ≤ a) :
    entryAt b a = none :=
  if_neg (by omega)

/-- An address past the registers and outside the four windows names nothing (R62, R71). -/
theorem placeAt_eq_none {a : Nat} (hreg : 0xC4 ≤ a)
    (hwin : ∀ b, a < windowBase b ∨ windowBase b + 4 * depth b ≤ a) : placeAt a = none := by
  simp [placeAt, regAt_eq_none hreg, entryAt_eq_none (hwin _)]

/-- A full-width transaction at a register's offset reaches the register (R23, R61). -/
theorem admitted_reg (r : Reg) (x : Access) :
    admitted ⟨BitVec.ofNat 21 (regOffset r), 0xF, x⟩ = some (.reg r) := by
  have ha : (BitVec.ofNat 21 (regOffset r)).toNat = regOffset r :=
    Nat.mod_eq_of_lt (by have := regOffset_lt r; omega)
  simp [admitted, placeAt, ha, regOffset_mod_four, regAt_regOffset]

theorem busTransaction_refused {s : State} {t : Txn} (hr : s.inReset = false) (ha : admitted t = none) :
    busTransaction t s = refuse s := by
  simp [busTransaction, hr, ha]

theorem busTransaction_read {s : State} {t : Txn} {p : Place} (hr : s.inReset = false) (ha : admitted t = some p)
    (hx : t.access = .read) : busTransaction t s = busRead p s := by
  simp [busTransaction, hr, ha, hx]

theorem busTransaction_write {s : State} {t : Txn} {p : Place} {v : Word} (hr : s.inReset = false)
    (ha : admitted t = some p) (hx : t.access = .write v) : busTransaction t s = busWrite p v s := by
  simp [busTransaction, hr, ha, hx]

theorem busRead_idle {s : State} (hp : s.pending = none) (p : Place) :
    busRead p s = { s with response := some ⟨false, readPlace s p⟩ } := by
  simp [busRead, busy, hp]

theorem busWrite_idle {s : State} (hp : s.pending = none) (p : Place) (v : Word) :
    busWrite p v s = { writePlace s v p with response := some ⟨false, 0⟩ } := by
  simp [busWrite, busy, hp]

/-- While BUSY is 1 a write to any place but CTRL and STATUS is dropped (R75, R258). -/
theorem busWrite_busy {s : State} {w : Word} (hp : s.pending = some w) {p : Place} (hw : writesWhileBusy p = false)
    (v : Word) : busWrite p v s = { s with ovr := true, response := some ⟨false, 0⟩ } := by
  simp [busWrite, busy, hp, hw]

/-- A write to a place that R75 exempts takes effect, busy or idle. -/
theorem busWrite_exempt {p : Place} (hw : writesWhileBusy p = true) (v : Word) (s : State) :
    busWrite p v s = { writePlace s v p with response := some ⟨false, 0⟩ } := by
  simp [busWrite, hw]

/-- An idle host's read of a register answers its value and changes nothing else (R70, R73). -/
theorem readReg_idle {s : State} (hr : s.inReset = false) (hp : s.pending = none) (r : Reg) :
    busTransaction ⟨BitVec.ofNat 21 (regOffset r), 0xF, .read⟩ s =
      { s with response := some ⟨false, readReg s r⟩ } :=
  (busTransaction_read hr (admitted_reg r _) rfl).trans (busRead_idle hp _)

/-- An idle host's write to a register has the register's effect and answers done (R70). -/
theorem writeReg_idle {s : State} (hr : s.inReset = false) (hp : s.pending = none) (r : Reg) (v : Word) :
    busTransaction ⟨BitVec.ofNat 21 (regOffset r), 0xF, .write v⟩ s =
      { writeReg s v r with response := some ⟨false, 0⟩ } :=
  (busTransaction_write hr (admitted_reg r _) rfl).trans (busWrite_idle hp _ v)

/-- A host write to STATUS clears its flags by ones at any time (R26, R75). -/
theorem writeStatus_anytime {s : State} (hr : s.inReset = false) (v : Word) :
    busTransaction ⟨0x008, 0xF, .write v⟩ s = { clearStatus v s with response := some ⟨false, 0⟩ } :=
  (busTransaction_write hr (admitted_reg .status _) rfl).trans (busWrite_exempt rfl v s)

/-- Settles O49: none of the refused transactions reaches a place, so each is `refuse`. -/
theorem refusedTransactionsSetBerr : Obligations.RefusedTransactionsSetBerr := by
  intro s t hr h
  refine busTransaction_refused hr ?_
  unfold admitted
  split
  · rename_i hadm
    obtain ⟨haligned, hlanes⟩ := hadm
    have hunmapped := (h.resolve_left (not_not.2 haligned)).resolve_left (not_not.2 hlanes)
    refine placeAt_eq_none (by omega) fun b => ?_
    cases b <;> simp only [windowBase, depth] <;> omega
  · rfl

/-- Bit 0 of STATUS is BUSY (R25). -/
theorem statusWord_busy (s : State) : (statusWord s).getLsbD 0 = s.pending.isSome := by
  simp only [statusWord, BitVec.getLsbD_append, bit, busy]
  simp

/-- Settles O52: the write rules of an idle and a busy DCLE at CMD, and bit 0 of STATUS. -/
theorem cmdWriteIssuesOneCommand : Obligations.CmdWriteIssuesOneCommand := by
  refine ⟨fun s w hr hp => ?_, fun s w x hr hp => ?_, fun s hr hp => ?_, fun s => ?_⟩
  · exact writeReg_idle hr hp .cmd w
  · exact (busTransaction_write hr (admitted_reg .cmd _) rfl).trans (busWrite_busy hp rfl w)
  · exact readReg_idle hr hp .cmd
  · exact statusWord_busy s

/-- Settles O53: the cuts to 15 and 17 bits are remainders, and 200 * 200 / 2 is below the first. -/
theorem derivedRegistersFollowAtOnce : Obligations.DerivedRegistersFollowAtOnce := by
  refine ⟨fun s => ?_, by decide, fun s v hr hp => ⟨writeReg_idle hr hp .ndots v, writeReg_idle hr hp .minDots v⟩⟩
  have hndots : (readReg s .ndots).toNat = s.gridH.toNat * s.gridW.toNat / 2 % 2 ^ 15 :=
    BitVec.toNat_setWidth_of_le (by decide)
  have hminDots : (readReg s .minDots).toNat = (9 * (s.dataLen.toNat + s.eccLen.toNat) + 2) % 2 ^ 17 :=
    BitVec.toNat_setWidth_of_le (by decide)
  refine ⟨hndots, fun _ hh _ hw => ?_, hminDots⟩
  have harea : s.gridH.toNat * s.gridW.toNat ≤ 200 * 200 := Nat.mul_le_mul hh hw
  rw [hndots]
  omega

end Sys2Proof.Machine

/-! What each register reads as, field by field (R23), and what a write leaves in each register (R24–R33, R44, R47). -/

namespace Sys2Proof.Machine

/-- A word made of a high and a low field is the number made of both. -/
theorem toNat_append_eq {m n : Nat} (x : BitVec m) (y : BitVec n) :
    (x ++ y).toNat = 2 ^ n * x.toNat + y.toNat := by
  rw [BitVec.toNat_append, ← Nat.shiftLeft_add_eq_or_of_lt y.isLt, Nat.shiftLeft_eq, Nat.mul_comm]

@[simp] theorem bit_toNat (b : Bool) : (bit b).toNat = b.toNat := BitVec.toNat_ofBool b

@[simp] theorem errCodeBits_toNat (c : ErrCode) : (errCodeBits c).toNat = errCodeNumber c := by
  cases c <;> rfl

theorem statusWord_toNat (s : State) : (statusWord s).toNat =
    256 * errCodeNumber s.errCode + 16 * s.berr.toNat + 8 * s.ovr.toNat + 4 * s.err.toNat + 2 * s.done.toNat +
      s.pending.isSome.toNat := by
  simp only [statusWord, toNat_append_eq, bit_toNat, errCodeBits_toNat, BitVec.toNat_zero, busy]
  omega

theorem ctrlWord_toNat (s : State) : (ctrlWord s).toNat = s.irqEn.toNat := by
  simp only [ctrlWord, toNat_append_eq, bit_toNat, BitVec.toNat_zero]
  omega

theorem maskCfgWord_toNat (s : State) : (maskCfgWord s).toNat = 256 * s.pinEn.toNat + s.pinMask.toNat := by
  simp only [maskCfgWord, toNat_append_eq, bit_toNat, BitVec.toNat_zero]
  omega

theorem padCfgWord_toNat (s : State) : (padCfgWord s).toNat = s.binFinish.toNat := by
  simp only [padCfgWord, toNat_append_eq, bit_toNat, BitVec.toNat_zero]
  omega

theorem bestMaskWord_toNat (s : State) : (bestMaskWord s).toNat = 256 * s.bmValid.toNat + s.bestMask.toNat := by
  simp only [bestMaskWord, toNat_append_eq, bit_toNat, BitVec.toNat_zero]
  omega

theorem scoreFlagsWord_toNat (s : State) : (scoreFlagsWord s).toNat = 2 * s.scValid.toNat + s.reject.toNat := by
  simp only [scoreFlagsWord, toNat_append_eq, bit_toNat, BitVec.toNat_zero]
  omega

theorem msValidWord_toNat (s : State) : (msValidWord s).toNat = 256 * s.msRej.toNat + s.msValid.toNat := by
  simp only [msValidWord, toNat_append_eq, BitVec.toNat_zero]
  omega

/-- No register shows the answer to the last transaction, which is the model's own (log 17). -/
theorem readReg_response (s : State) (a : Option Response) (r : Reg) :
    readReg { s with response := a } r = readReg s r := by
  cases r <;> rfl

/-- A word cut to its low `k` bits is the word under the mask of those bits. -/
theorem cut_eq_and_mask (v : Word) (k : Nat) :
    (v.setWidth k).setWidth 32 = v &&& BitVec.ofNat 32 (2 ^ k - 1) := by
  apply BitVec.eq_of_getLsbD_eq
  intro i hi
  simp only [BitVec.getLsbD_setWidth, BitVec.getLsbD_and, BitVec.getLsbD_ofNat, Nat.testBit_two_pow_sub_one, hi,
    decide_true, Bool.true_and, Bool.and_comm]

theorem bit_zero_eq_and_one (v : Word) : 0#31 ++ bit (v.getLsbD 0) = v &&& 1#32 := by
  apply BitVec.eq_of_getLsbD_eq
  intro i hi
  simp only [bit, BitVec.getLsbD_append, BitVec.getLsbD_and]
  rcases i with _ | i <;> simp [BitVec.getLsbD_one]

theorem pinFields_eq_and_mask (v : Word) :
    0#23 ++ bit (v.getLsbD 8) ++ 0#5 ++ v.setWidth 3 = v &&& 0x107#32 := by
  apply BitVec.eq_of_getLsbD_eq
  intro i hi
  simp only [bit, BitVec.getLsbD_append, BitVec.getLsbD_and]
  interval_cases i <;> simp

/-- A write to a read-only register is ignored (R47). -/
theorem writeReg_readOnly (s : State) (v : Word) {r : Reg} (h : writableBits r = 0) (hs : r ≠ .status)
    (hc : r ≠ .cmd) : writeReg s v r = s := by
  cases r with
  | ctrl | dataLen | eccLen | gridH | gridW | widthReq | maskCfg | padCfg => exact absurd h (by decide)
  | status => exact absurd rfl hs
  | cmd => exact absurd rfl hc
  | _ => rfl

/-- A register with writable bits reads back what was written to them, and 0 in its reserved bits (R47). -/
theorem readReg_writeReg_same (s : State) (v : Word) {r : Reg} (h : writableBits r ≠ 0) :
    readReg (writeReg s v r) r = v &&& writableBits r := by
  cases r with
  | ctrl | padCfg => exact bit_zero_eq_and_one v
  | dataLen | eccLen => exact cut_eq_and_mask v 12
  | gridH | gridW | widthReq => exact cut_eq_and_mask v 8
  | maskCfg => exact pinFields_eq_and_mask v
  | _ => exact absurd rfl h

/-- A write to a register other than STATUS and CMD leaves every other register as it reads, but for those derived from it
(R34, R35, R47). -/
theorem readReg_writeReg_other (s : State) (v : Word) {r q : Reg} (hs : r ≠ .status) (hc : r ≠ .cmd) (hq : q ≠ r)
    (hn : q ≠ .ndots) (hm : q ≠ .minDots) : readReg (writeReg s v r) q = readReg s q := by
  by_cases h : writableBits r = 0
  · rw [writeReg_readOnly s v h hs hc]
  · cases r with
    | ctrl | dataLen | eccLen | gridH | gridW | widthReq | maskCfg | padCfg =>
      -- `q` does not show the written field, or is one of the excluded registers.
      cases q <;> first | rfl | contradiction
    | _ => exact absurd rfl h

/-- A register write touches no buffer. -/
theorem writeReg_buffers (s : State) (v : Word) (r : Reg) :
    (writeReg s v r).src = s.src ∧ (writeReg s v r).work = s.work ∧ (writeReg s v r).stream = s.stream ∧
      (writeReg s v r).grid = s.grid := by
  cases r <;> exact ⟨rfl, rfl, rfl, rfl⟩

/-- Only a write to CMD issues a command (R27). -/
theorem writeReg_pending (s : State) (v : Word) {r : Reg} (hc : r ≠ .cmd) : (writeReg s v r).pending = s.pending := by
  cases r with
  | cmd => exact absurd rfl hc
  | _ => rfl

theorem writeReg_inReset (s : State) (v : Word) (r : Reg) : (writeReg s v r).inReset = s.inReset := by
  cases r <;> rfl

/-- Settles O50: the map by its offsets, reads and writes by the rules of an idle DCLE, fields and writable bits by the
register's lemmas. -/
theorem registerMapReadsAndWrites : Obligations.RegisterMapReadsAndWrites := by
  refine ⟨by decide, fun _ => rfl, fun _ => ⟨rfl, rfl⟩, regAt_regOffset, fun _ _ => regOffset_of_regAt,
    fun s r hr hp => readReg_idle hr hp r, fun s => ?_, fun s r v hr hp hs hc => ?_⟩
  · have widened : ∀ {w : Nat} (x : BitVec w), w ≤ 32 → (x.setWidth 32).toNat = x.toNat :=
      fun _ h => BitVec.toNat_setWidth_of_le h
    exact ⟨rfl, rfl, ctrlWord_toNat s, statusWord_toNat s, widened _ (by decide), widened _ (by decide),
      widened _ (by decide), widened _ (by decide), widened _ (by decide), maskCfgWord_toNat s, padCfgWord_toNat s,
      bestMaskWord_toNat s, scoreFlagsWord_toNat s, widened _ (by decide), widened _ (by decide),
      widened _ (by decide), widened _ (by decide), widened _ (by decide), fun _ => widened _ (by decide),
      msValidWord_toNat s⟩
  · obtain ⟨hsrc, hwork, hstream, hgrid⟩ := writeReg_buffers s v r
    have hpend : (writeReg s v r).pending = none := (writeReg_pending s v hc).trans hp
    have hread := readReg_idle (s := { writeReg s v r with response := some ⟨false, 0⟩ })
      ((writeReg_inReset s v r).trans hr) hpend r
    refine ⟨_, writeReg_idle hr hp r v, rfl, ?_, fun hro => ?_, fun q hq hn hm => ?_, hsrc, hwork, hstream, hgrid, hpend⟩
    · rw [hread]
      split
      · rfl
      · rename_i hwritable
        rw [readReg_response, readReg_writeReg_same s v hwritable]
    · rw [writeReg_readOnly s v hro hs hc]
    · rw [readReg_response, readReg_writeReg_other s v hs hc hq hn hm]

end Sys2Proof.Machine

/-! The words that decode are the legal ones (R84, R90); every command is a check phase and a commit phase (R13); the check
phase reads nothing that a host may change while BUSY is 1. -/

namespace Sys2Proof.Machine

/-- The opcode and the operand bits make the word (R80). -/
theorem opcodeField_append (w : Word) : opcodeField w ++ w.extractLsb' 0 24 = w :=
  (BitVec.extractLsb'_append_extractLsb'_eq_extractLsb' rfl).trans BitVec.extractLsb'_eq_self

/-- The opcode and the two fields that fill the operand bits make the word (R81). -/
theorem opcodeField_append_fields (w : Word) {low high : Nat} (hw : 8 + high + low = 32) :
    (opcodeField w ++ w.extractLsb' low high ++ w.extractLsb' 0 low).cast hw = w := by
  rw [opcodeField, BitVec.extractLsb'_append_extractLsb'_eq_extractLsb' (by omega),
    BitVec.extractLsb'_append_extractLsb'_eq_extractLsb' (by omega)]
  apply BitVec.eq_of_toNat_eq
  rw [BitVec.toNat_cast, BitVec.extractLsb'_toNat, hw, Nat.shiftRight_zero, Nat.mod_eq_of_lt w.isLt]

/-- A word of format N that decodes is the word of its command (R81). -/
theorem encode_of_formatN {w : Word} {c : BitVec 8} {i j : Instr} (ho : opcodeField w = c) (he : encode i = c ++ 0#24)
    (h : formatN w i = .ok j) : encode j = w := by
  unfold formatN at h
  split at h
  · rename_i hz
    obtain rfl : i = j := by simpa using h
    rw [he, ← ho, ← (show w.extractLsb' 0 24 = 0#24 from hz)]
    exact opcodeField_append w
  · cases h

/-- A word of a format with one operand `f` and must-be-zero bits that decodes is the word of its command (R81, R84). -/
theorem encode_of_format {w : Word} {c : BitVec 8} {low high : Nat} {f : BitVec low → Instr} {j : Instr}
    (hw : 8 + high + low = 32) (ho : opcodeField w = c) (he : ∀ v, encode (f v) = (c ++ 0#high ++ v).cast hw)
    (h : (if w.extractLsb' low high = 0 then .ok (f (w.extractLsb' 0 low)) else .error Illegal.mustBeZero) =
      Except.ok j) : encode j = w := by
  split at h
  · rename_i hz
    obtain rfl : f (w.extractLsb' 0 low) = j := by simpa using h
    rw [he, ← ho, ← (show w.extractLsb' low high = 0#high from hz)]
    exact opcodeField_append_fields w hw
  · cases h

/-- No bit of a legal word is ignored: the word of its command is the word (R81, R84). -/
theorem encode_of_decode {w : Word} {i : Instr} (h : decode w = .ok i) : encode i = w := by
  unfold decode at h
  split at h
  case h_3 ho => exact encode_of_format (low := 9) (high := 15) rfl ho (fun _ => rfl) h
  case h_5 ho => exact encode_of_format (low := 8) (high := 16) rfl ho (fun _ => rfl) h
  case h_6 ho =>
    cases h
    exact (congrArg (· ++ w.extractLsb' 12 12 ++ w.extractLsb' 0 12) ho).symm.trans
     (opcodeField_append_fields w (low := 12) (high := 12) rfl)
  case h_7 ho => exact encode_of_format (low := 2) (high := 22) rfl ho (fun _ => rfl) h
  case h_8 ho => exact encode_of_format (low := 3) (high := 21) rfl ho (fun _ => rfl) h
  case h_18 => cases h
  all_goals exact encode_of_formatN ‹_› rfl h

/-- Every command's word has the fixed bits of the command's row (R90). -/
theorem encodeHitsRow (i : Instr) : Laws.EncodeHitsRow.Statement i := by
  cases i with
  | nop => exact Laws.EncodeHitsRow.nop
  | sreset => exact Laws.EncodeHitsRow.sreset
  | pkPush v => exact Laws.EncodeHitsRow.pkPush v
  | pkFlush => exact Laws.EncodeHitsRow.pkFlush
  | dotLookup idx => exact Laws.EncodeHitsRow.dotLookup idx
  | rsEncode nd nc => exact Laws.EncodeHitsRow.rsEncode nd nc
  | maskApply m => exact Laws.EncodeHitsRow.maskApply m
  | candidate m => exact Laws.EncodeHitsRow.candidate m
  | score => exact Laws.EncodeHitsRow.score
  | select => exact Laws.EncodeHitsRow.select
  | eccLen => exact Laws.EncodeHitsRow.eccLen
  | size => exact Laws.EncodeHitsRow.size
  | pad => exact Laws.EncodeHitsRow.pad
  | dotStream => exact Laws.EncodeHitsRow.dotStream
  | fold => exact Laws.EncodeHitsRow.fold
  | forceCorners => exact Laws.EncodeHitsRow.forceCorners
  | run => exact Laws.EncodeHitsRow.run

/-- A word that decodes is legal (R90). -/
theorem wordWf_of_decode {w : Word} {i : Instr} (h : decode w = .ok i) : wordWf w = true := by
  obtain ⟨hhits, hrow⟩ := encodeHitsRow i
  rw [encode_of_decode h] at hhits
  exact List.any_eq_true.2 ⟨rowOf i, hrow, hhits⟩

/-! The two phases of a command. -/

/-- The check phase of a command (R13, R251): the code it finds, if any. -/
def checkPhase : Instr → State → Option ErrCode
  | .nop, _ => none
  | .sreset, _ => none
  | .pkPush v, _ => firstError [(decide (258 < v.toNat), .rangePk)]
  | .pkFlush, _ => none
  | .dotLookup idx, _ => firstError [(decide (cwMax < idx.toNat), .rangeIdx)]
  | .rsEncode nd nc, s =>
    firstError [(decide (depth .work < nd.toNat + nc.toNat), .len), (anyAbove (workWords s nd.toNat), .rangeCw)]
  | .maskApply _, s => firstError [(badSource s, .rangeCw)]
  | .candidate _, s => candidateCheck s
  | .score, s => firstError [(badGeom s, .cfgGeom)]
  | .select, s => candidateCheck s
  | .eccLen, _ => none
  | .size, s => firstError (sizeErrors s.params (dLen s) (eLen s) s.widthReq.toNat)
  | .pad, s => firstError [(badGeom s, .cfgGeom), (streamTooLong s, .len)]
  | .dotStream, s => firstError [(badGeom s, .cfgGeom), (streamTooLong s, .len), (badStreamWord s, .rangeCw)]
  | .fold, s => firstError [(badGeom s, .cfgGeom)]
  | .forceCorners, s => firstError [(badGeom s, .cfgGeom)]
  | .run, s => runCheck s

/-- The commit phase of a command (R13), without its completion. -/
def commitPhase : Instr → State → State
  | .nop, s => s
  | .sreset, s => resetRegisters s
  | .pkPush v, s => pushBody v s
  | .pkFlush, s => flushBody s
  | .dotLookup idx, s => { s with dotResult := romAt s.params idx.toNat }
  | .rsEncode nd nc, s => rsBody nd.toNat nc.toNat s
  | .maskApply m, s => maskBody m.toNat s
  | .candidate m, s => candidateBody m s
  | .score, s => scoreBody s
  | .select, s => selectBody s
  | .eccLen, s => eccLenBody s
  | .size, s => setSize (sizeFor s.params (dLen s) (eLen s) s.widthReq.toNat) s
  | .pad, s => padBody s
  | .dotStream, s => dotStreamBody s
  | .fold, s => foldBody s
  | .forceCorners, s => forceCornersBody s
  | .run, s => runBody s

/-- Every command lives the one life of `runCommand`, with its own two phases (R13, R230). -/
theorem exec_eq_runCommand (i : Instr) (s : State) : exec i s = runCommand (checkPhase i s) (commitPhase i s) s := by
  cases i <;> rfl

/-- What a command ends in: the completion of its commit phase, or the error its check phase found. -/
theorem exec_eq_next {i : Instr} {s t : State} :
    exec i s = .next t ↔ (checkPhase i s = none ∧ t = complete (commitPhase i s)) ∨
      (∃ c, checkPhase i s = some c ∧ t = raiseError c s) := by
  rw [exec_eq_runCommand, runCommand_next]

/-- Every command sets DONE and lets BUSY fall (R230). -/
theorem exec_completes {i : Instr} {s t : State} (h : exec i s = .next t) : t.done = true ∧ t.pending = none := by
  obtain ⟨-, rfl⟩ | ⟨c, -, rfl⟩ := exec_eq_next.1 h <;> exact ⟨rfl, rfl⟩

/-- What a commit phase other than SRESET's may write: the lengths, the geometry, the buffers and the result registers.
It keeps the flags, the pending command, the registers that only the host writes (R235), and the model's own fields. -/
theorem commitPhase_frame {i : Instr} (hi : i ≠ .sreset) (s : State) : commitPhase i s =
    { s with
      src := (commitPhase i s).src
      dataLen := (commitPhase i s).dataLen
      eccLen := (commitPhase i s).eccLen
      gridH := (commitPhase i s).gridH
      gridW := (commitPhase i s).gridW
      work := (commitPhase i s).work
      rsStep := (commitPhase i s).rsStep
      stream := (commitPhase i s).stream
      streamLen := (commitPhase i s).streamLen
      grid := (commitPhase i s).grid
      score := (commitPhase i s).score
      reject := (commitPhase i s).reject
      scValid := (commitPhase i s).scValid
      maskScore := (commitPhase i s).maskScore
      msValid := (commitPhase i s).msValid
      msRej := (commitPhase i s).msRej
      bestMask := (commitPhase i s).bestMask
      bmValid := (commitPhase i s).bmValid
      dotResult := (commitPhase i s).dotResult
      acc := (commitPhase i s).acc
      cnt := (commitPhase i s).cnt
      pkOutN := (commitPhase i s).pkOutN
      pkOut := (commitPhase i s).pkOut } := by
  cases i with
  | sreset => exact absurd rfl hi
  | pkPush v => dsimp only [commitPhase]; rw [pushBody_frame]
  | pkFlush => dsimp only [commitPhase]; rw [flushBody_frame]
  | candidate m => dsimp only [commitPhase]; rw [candidateBody_same m s]
  | select => dsimp only [commitPhase]; rw [selectBody_frame]
  | forceCorners => dsimp only [commitPhase]; rw [forceCornersBody_frame]
  | run => dsimp only [commitPhase]; rw [runBody_frame]
  | _ => rfl

/-- A commit phase leaves ERR and ERRCODE alone, but for SRESET's. -/
theorem commitPhase_errors {i : Instr} (hi : i ≠ .sreset) (s : State) :
    (commitPhase i s).err = s.err ∧ (commitPhase i s).errCode = s.errCode := by
  rw [commitPhase_frame hi s]
  exact ⟨rfl, rfl⟩

/-- No commit phase sets ERR (R256): only taking an error does. -/
theorem commitPhase_err_false (i : Instr) {s : State} (h : s.err = false) : (commitPhase i s).err = false := by
  by_cases hi : i = .sreset
  · rw [hi]; rfl
  · rw [(commitPhase_errors hi s).1, h]

/-- The states differ at most in what a host may change while a command is pending: STATUS's flags, IRQ_EN and the model's
own fields of the host's side. -/
def SameForCommands (s t : State) : Prop :=
  t = { s with
    irqEn := t.irqEn
    done := t.done
    err := t.err
    errCode := t.errCode
    ovr := t.ovr
    berr := t.berr
    response := t.response
    draws := t.draws
    turns := t.turns }

/-- A check phase reads no flag and nothing of the host's side. -/
theorem checkPhase_sameForCommands {s t : State} (h : SameForCommands s t) (i : Instr) :
    checkPhase i t = checkPhase i s := by
  rw [h]
  cases i <;> rfl

/-- Outside reset, a pending word that decodes is executed (R230). -/
theorem engineTurn_decoded {s : State} {w : Word} {i : Instr} (hr : s.inReset = false) (hp : s.pending = some w)
    (hd : decode w = .ok i) : engineTurn s = exec i s := by
  simp [engineTurn, hr, hp, hd]

/-- Outside reset, a pending word that does not decode ends with ILLEGAL_CMD (R84, R85). -/
theorem engineTurn_illegal {s : State} {w : Word} {k : Illegal} (hr : s.inReset = false) (hp : s.pending = some w)
    (hd : decode w = .error k) : engineTurn s = .next (raiseError .illegalCmd s) := by
  simp [engineTurn, hr, hp, hd]

/-- Outside reset, the engine's move completes a pending command, legal or not (R237). -/
theorem engineTurn_completes {s : State} {w : Word} (hr : s.inReset = false) (hp : s.pending = some w) :
    ∃ t, engineTurn s = .next t ∧ t.done = true ∧ t.pending = none := by
  cases hd : decode w with
  | error k => exact ⟨_, engineTurn_illegal hr hp hd, rfl, rfl⟩
  | ok i =>
    obtain ⟨t, ht⟩ := exec_next i s
    exact ⟨t, (engineTurn_decoded hr hp hd).trans ht, exec_completes ht⟩

/-- A command that ends with an error from a state with ERR 0 ends with the same error from any state that differs only in
flags (R253): the check phase found it. -/
theorem exec_error_of_same {i : Instr} {s u v : State} (hs : s.err = false) (h : exec i s = .next v)
    (hv : v.err = true) (hu : SameForCommands s u) : exec i u = .next (raiseError v.errCode u) := by
  obtain ⟨-, rfl⟩ | ⟨d, hcheck, rfl⟩ := exec_eq_next.1 h
  · exact absurd (commitPhase_err_false i hs) (by simpa using hv)
  · exact exec_eq_next.2 (.inr ⟨d, (checkPhase_sameForCommands hu i).trans hcheck, rfl⟩)

/-- A command other than SRESET that ends without an error leaves ERR and ERRCODE as they are, from any state that differs
only in flags (R261). -/
theorem exec_errors_of_same {i : Instr} {s u v t : State} (hi : i ≠ .sreset) (h : exec i s = .next v)
    (hv : v.err = false) (hu : SameForCommands s u) (ht : exec i u = .next t) :
    t.err = u.err ∧ t.errCode = u.errCode := by
  obtain ⟨hcheck, -⟩ | ⟨c, -, rfl⟩ := exec_eq_next.1 h
  · obtain ⟨-, rfl⟩ | ⟨c, hfound, -⟩ := exec_eq_next.1 ht
    · exact commitPhase_errors hi u
    · rw [checkPhase_sameForCommands hu i, hcheck] at hfound
      cases hfound
  · cases hv

/-- A STATUS write in the instant of a completion (R26, R291; log 10): the engine moves from a state that differs from the
one before only in flags, with ERR and ERRCODE as the write leaves them. -/
theorem step_together_statusWrite {s : State} {v : Word} {rest : List Turn} (hr : s.inReset = false)
    (ht : s.turns = .together ⟨0x008, 0xF, .write v⟩ :: rest) :
    ∃ u, step s = engineTurn u ∧ u.inReset = false ∧ u.pending = s.pending ∧
      SameForCommands { s with err := false, errCode := .none } u ∧
      u.err = (s.err && !v.getLsbD 2) ∧ u.errCode = if v.getLsbD 2 then .none else s.errCode := by
  refine ⟨{ clearStatus v { s with turns := rest } with response := some ⟨false, 0⟩ }, ?_, hr, rfl, rfl, rfl, rfl⟩
  simp only [step, ht]
  rw [writeStatus_anytime (s := { s with turns := rest }) hr v]

/-- Settles O46: the write comes first, and the command then completes from a state that differs only in flags, so its
check phase finds the same error and the completion wins. -/
theorem statusWriteOneToClear : Obligations.StatusWriteOneToClear := by
  refine ⟨fun s v hr => writeStatus_anytime hr v, fun s v w rest hr hp hturns => ?_⟩
  obtain ⟨u, hstep, hur, hup, hsame, herr, hcode⟩ := step_together_statusWrite hr hturns
  rw [hp] at hup
  obtain ⟨t, ht, hdone, hpend⟩ := engineTurn_completes hur hup
  refine ⟨t, hstep.trans ht, hdone, hpend, fun hbad => ?_, fun i c hd hexec => ?_, fun i x hd hi hexec hx => ?_⟩
  · cases hd : decode w with
    | ok i => rw [wordWf_of_decode hd] at hbad; cases hbad
    | error k =>
      rw [engineTurn_illegal hur hup hd] at ht
      cases ht
      exact ⟨rfl, rfl⟩
  · rw [engineTurn_decoded hur hup hd, exec_error_of_same rfl hexec rfl hsame] at ht
    cases ht
    exact ⟨rfl, rfl⟩
  · rw [engineTurn_decoded hur hup hd] at ht
    rw [← herr, ← hcode]
    exact exec_errors_of_same hi hexec hx hsame ht

end Sys2Proof.Machine

/-! The buffer windows (R62): what an address inside a window names, and what a host's read and write of an entry do while
the DCLE is idle (R63–R66, R70). -/

namespace Sys2Proof.Machine

theorem entryAt_window {b : Buffer} {i : Nat} (hi : i < depth b) :
    entryAt b (windowBase b + 4 * i) = some (.entry b i) := by
  have hindex : (windowBase b + 4 * i - windowBase b) / 4 = i := by omega
  rw [entryAt, if_pos (by omega), hindex]

/-- Of two windows one ends before the other begins (R62). -/
theorem windows_disjoint : ∀ b c : Buffer, c ≠ b →
    windowBase c + 4 * depth c ≤ windowBase b ∨ windowBase b + 4 * depth b ≤ windowBase c := by
  intro b c
  cases b <;> cases c <;> decide

/-- An entry's address lies outside the windows of the other buffers (R62). -/
theorem entryAt_window_other {b c : Buffer} {i : Nat} (hi : i < depth b) (hc : c ≠ b) :
    entryAt c (windowBase b + 4 * i) = none :=
  entryAt_eq_none (by have := windows_disjoint b c hc; omega)

/-- Every window starts past the registers, word-aligned (R23, R62). -/
theorem windowBase_past_registers (b : Buffer) : 0xC4 ≤ windowBase b ∧ windowBase b % 4 = 0 := by
  cases b <;> decide

/-- The windows end inside the address space (R60, R62). -/
theorem window_addr_lt {b : Buffer} {i : Nat} (hi : i < depth b) : windowBase b + 4 * i < 2 ^ 21 := by
  cases b <;> simp only [windowBase, depth] at hi ⊢ <;> omega

/-- The address of an entry names the entry and nothing else: no register and no other window is there (R62). -/
theorem placeAt_window {b : Buffer} {i : Nat} (hi : i < depth b) :
    placeAt (windowBase b + 4 * i) = some (.entry b i) := by
  have hreg : regAt (windowBase b + 4 * i) = none :=
    regAt_eq_none (by have := (windowBase_past_registers b).1; omega)
  have hself := entryAt_window hi
  have hother := fun c => entryAt_window_other (c := c) hi
  cases b with
  | src => simp [placeAt, hreg, hself]
  | work => simp [placeAt, hreg, hself, hother .src]
  | stream => simp [placeAt, hreg, hself, hother .src, hother .work]
  | grid => simp [placeAt, hreg, hself, hother .src, hother .work, hother .stream]

/-- A full-width transaction at an entry's address reaches the entry (R61, R62). -/
theorem admitted_entry {b : Buffer} {i : Nat} (hi : i < depth b) (x : Access) :
    admitted ⟨BitVec.ofNat 21 (windowBase b + 4 * i), 0xF, x⟩ = some (.entry b i) := by
  have ha : (BitVec.ofNat 21 (windowBase b + 4 * i)).toNat = windowBase b + 4 * i :=
    Nat.mod_eq_of_lt (window_addr_lt hi)
  have haligned : (windowBase b + 4 * i) % 4 = 0 := by have := (windowBase_past_registers b).2; omega
  simp [admitted, ha, haligned, placeAt_window hi]

/-- An idle host's read of an entry answers its value and changes nothing else (R70, R73). -/
theorem readEntry_idle {s : State} (hr : s.inReset = false) (hp : s.pending = none) {b : Buffer} {i : Nat}
    (hi : i < depth b) : busTransaction ⟨BitVec.ofNat 21 (windowBase b + 4 * i), 0xF, .read⟩ s =
      { s with response := some ⟨false, entryWord s b i⟩ } :=
  (busTransaction_read hr (admitted_entry hi _) rfl).trans (busRead_idle hp _)

/-- An idle host's write to an entry stores the word's low bits and answers done (R63–R66, R70). -/
theorem writeEntry_idle {s : State} (hr : s.inReset = false) (hp : s.pending = none) {b : Buffer} {i : Nat}
    (hi : i < depth b) (v : Word) : busTransaction ⟨BitVec.ofNat 21 (windowBase b + 4 * i), 0xF, .write v⟩ s =
      { putEntry s b i v with response := some ⟨false, 0⟩ } :=
  (busTransaction_write hr (admitted_entry hi _) rfl).trans (busWrite_idle hp _ v)

/-- No entry shows the answer to the last transaction, which is the model's own (log 17). -/
theorem entryWord_response (s : State) (a : Option Response) (b : Buffer) (i : Nat) :
    entryWord { s with response := a } b i = entryWord s b i := by
  cases b <;> rfl

/-- A stored entry reads back the low bits of the word, cut to the entry's width (R63–R66). -/
theorem entryWord_putEntry_same (s : State) {b : Buffer} {i : Nat} (hi : i < depth b) (v : Word) :
    entryWord (putEntry s b i v) b i = (v.setWidth (entryWidth b)).setWidth 32 := by
  cases b with
  | src => simp [entryWord, putEntry, entryWidth, srcAt_putSrc s i [v.setWidth 9] i hi]
  | work => simp [entryWord, putEntry, entryWidth, workAt_putWork s i [v.setWidth 9] i hi]
  | stream => simp [entryWord, putEntry, entryWidth, streamAt_putStream s i [v.setWidth 1] i hi]
  | grid => simp [entryWord, putEntry, entryWidth, gridAt_putGrid s i [v.setWidth 2] i hi]

/-- A store to an entry is not seen in another buffer. -/
theorem entryWord_putEntry_otherBuffer (s : State) {b c : Buffer} (hc : c ≠ b) (i j : Nat) (v : Word) :
    entryWord (putEntry s b i v) c j = entryWord s c j := by
  cases b <;> cases c <;> first | rfl | contradiction

/-- A store to an entry is not seen in the buffer's other entries. -/
theorem entryWord_putEntry_otherIndex (s : State) {b : Buffer} {i j : Nat} (hi : i < depth b) (hj : j ≠ i) (v : Word) :
    entryWord (putEntry s b i v) b j = entryWord s b j := by
  have hout : ¬(i ≤ j ∧ j ≤ i) := by omega
  cases b with
  | src => simp [entryWord, putEntry, srcAt_putSrc s i [v.setWidth 9] j hi, hout]
  | work => simp [entryWord, putEntry, workAt_putWork s i [v.setWidth 9] j hi, hout]
  | stream => simp [entryWord, putEntry, streamAt_putStream s i [v.setWidth 1] j hi, hout]
  | grid => simp [entryWord, putEntry, gridAt_putGrid s i [v.setWidth 2] j hi, hout]

/-- A store to an entry writes no register and none of the model's own fields. -/
theorem putEntry_frame (s : State) (b : Buffer) (i : Nat) (v : Word) : putEntry s b i v =
    { s with
      src := (putEntry s b i v).src
      work := (putEntry s b i v).work
      stream := (putEntry s b i v).stream
      grid := (putEntry s b i v).grid } := by
  cases b <;> rfl

/-- Settles O51: an entry's address reaches the entry, and a store is read back in that entry alone. -/
theorem bufferEntriesReadBack : Obligations.BufferEntriesReadBack := by
  refine ⟨by decide, fun s b i hr hp hi => ⟨_, readEntry_idle hr hp hi, ?_⟩, fun s b i v hr hp hi =>
    ⟨_, writeEntry_idle hr hp hi v, ?_, fun c j hother => ?_, ?_⟩⟩
  · cases b <;> exact BitVec.toNat_setWidth_of_le (by decide)
  · have hframe := putEntry_frame s b i v
    have hr' : (putEntry s b i v).inReset = false := by rw [hframe]; exact hr
    have hp' : (putEntry s b i v).pending = none := by rw [hframe]; exact hp
    rw [readEntry_idle (s := { putEntry s b i v with response := some ⟨false, 0⟩ }) hr' hp' hi, entryWord_response,
      entryWord_putEntry_same s hi v]
    cases b <;> rfl
  · rw [entryWord_response]
    by_cases hc : c = b
    · subst hc
      exact entryWord_putEntry_otherIndex s hi (hother.resolve_left (not_not.2 rfl)) v
    · exact entryWord_putEntry_otherBuffer s hc i j v
  · exact congrArg (fun u : State => { u with response := some ⟨false, 0⟩ }) (putEntry_frame s b i v)

end Sys2Proof.Machine

/-! Transactions while BUSY is 1 (R74, R75), and the registers that a host reads as two words (R67). -/

namespace Sys2Proof.Machine

theorem busy_iff {s : State} : busy s = true ↔ ∃ w, s.pending = some w :=
  Option.isSome_iff_exists

/-- Of all places only CTRL and STATUS take writes while BUSY is 1 (R75). -/
theorem writesWhileBusy_eq_false {p : Place} (hc : p ≠ .reg .ctrl) (hs : p ≠ .reg .status) :
    writesWhileBusy p = false := by
  unfold writesWhileBusy
  split
  · exact absurd rfl hc
  · exact absurd rfl hs
  · rfl

/-- Of all places only ID, CTRL and STATUS give their value while BUSY is 1 (R74). -/
theorem readsWhileBusy_eq_false {p : Place} (hi : p ≠ .reg .id) (hc : p ≠ .reg .ctrl) (hs : p ≠ .reg .status) :
    readsWhileBusy p = false := by
  unfold readsWhileBusy
  split
  · exact absurd rfl hi
  · exact absurd rfl hc
  · exact absurd rfl hs
  · rfl

/-- While BUSY is 1 a read of any other place answers a free value and spends one draw of the model (R74; log 5). -/
theorem busRead_busy {s : State} (hb : busy s = true) {p : Place} (hp : readsWhileBusy p = false) :
    busRead p s = { s with response := some ⟨false, busyValue s.draws p⟩, draws := s.draws + 1 } := by
  simp [busRead, hb, hp]

/-- A read of a place that R74 exempts gives its value, busy or idle. -/
theorem busRead_exempt {p : Place} (hp : readsWhileBusy p = true) (s : State) :
    busRead p s = { s with response := some ⟨false, readPlace s p⟩ } := by
  simp [busRead, hp]

/-- A host's read of a register that R74 exempts gives its value at any time. -/
theorem readReg_anytime {s : State} (hr : s.inReset = false) {r : Reg} (he : readsWhileBusy (.reg r) = true) :
    busTransaction ⟨BitVec.ofNat 21 (regOffset r), 0xF, .read⟩ s =
      { s with response := some ⟨false, readReg s r⟩ } :=
  (busTransaction_read hr (admitted_reg r _) rfl).trans (busRead_exempt he s)

/-- CTRL reads IRQ_EN in bit 0 and zeros above it (R24). -/
theorem ctrlWord_eq (s : State) : ctrlWord s = (BitVec.ofBool s.irqEn).setWidth 32 :=
  (BitVec.setWidth_eq_append (w := 32) (by decide)).symm

/-- Settles O47: every place but CTRL and STATUS drops the write, and those two take it at any time. -/
theorem writesWhileBusyAreDropped : Obligations.WritesWhileBusyAreDropped := by
  refine ⟨fun s t p v hr hb ha hx hctrl hstatus => ?_, fun s v hr => ?_, fun s v hr => writeStatus_anytime hr v⟩
  · obtain ⟨w, hw⟩ := busy_iff.1 hb
    exact (busTransaction_write hr ha hx).trans (busWrite_busy hw (writesWhileBusy_eq_false hctrl hstatus) v)
  · exact (busTransaction_write hr (admitted_reg .ctrl _) rfl).trans (busWrite_exempt rfl v s)

/-- Settles O48: ID, CTRL and STATUS are exempt, and every other read only draws a free value
(`readsWhileBusy` is the model's own name). -/
theorem readsWhileBusyAreAnswered : Obligations.ReadsWhileBusy := by
  refine ⟨fun s hr => ⟨readReg_anytime hr (r := .id) rfl, ?_, readReg_anytime hr (r := .status) rfl⟩,
    fun s t p hr hb ha hx hid hctrl hstatus => ⟨busyValue s.draws p, ?_⟩⟩
  · rw [← ctrlWord_eq]
    exact readReg_anytime hr (r := .ctrl) rfl
  · exact (busTransaction_read hr ha hx).trans (busRead_busy hb (readsWhileBusy_eq_false hid hctrl hstatus))

/-- The high and the low field of a value make the value. -/
theorem high_append_low {m n : Nat} (x : BitVec (m + n)) : x.extractLsb' n m ++ x.extractLsb' 0 n = x := by
  rw [BitVec.extractLsb'_append_extractLsb'_eq_extractLsb' (by omega)]
  exact BitVec.extractLsb'_eq_self

/-- ACC's 41 bits are the nine of PK_ACC_HI above the 32 of PK_ACC_LO (R39, R67). -/
theorem accWords_toNat (s : State) :
    (readReg s .pkAccHi).toNat * 2 ^ 32 + (readReg s .pkAccLo).toNat = s.acc.toNat := by
  have hhigh : (readReg s .pkAccHi).toNat = (s.acc.extractLsb' 32 9).toNat :=
    BitVec.toNat_setWidth_of_le (by decide)
  calc (readReg s .pkAccHi).toNat * 2 ^ 32 + (readReg s .pkAccLo).toNat
      = 2 ^ 32 * (s.acc.extractLsb' 32 9).toNat + (s.acc.extractLsb' 0 32).toNat := by
        rw [hhigh, Nat.mul_comm]; rfl
    _ = (s.acc.extractLsb' 32 9 ++ s.acc.extractLsb' 0 32).toNat := (toNat_append_eq _ _).symm
    _ = s.acc.toNat := congrArg BitVec.toNat (high_append_low (m := 9) (n := 32) s.acc)

/-- Settles O54: a value split at bit 32 is its two words, and the offsets are those of R23. -/
theorem splitRegistersRecombine : Obligations.SplitRegistersRecombine := by
  intro s
  refine ⟨high_append_low (m := 32) (n := 32) s.score, fun m => high_append_low (m := 32) (n := 32) s.maskScore[m],
    accWords_toNat s, rfl, rfl, fun m => ?_⟩
  simp only [regOffset]
  omega

end Sys2Proof.Machine

/-! The decoder and the encoder (R80–R85, R90): the fields of a word are the ones it was put together from, so a
command's word decodes to the command; the fixed bits of a row make a word that of one of the row's commands. -/

namespace Sys2Proof.Machine

/-- The opcode and the fields of a word put together from them (R80, R81). -/
theorem fields_of_append {low high : Nat} (hw : 8 + high + low = 32) (c : BitVec 8) (z : BitVec high) (v : BitVec low) :
    opcodeField ((c ++ z ++ v).cast hw) = c ∧ ((c ++ z ++ v).cast hw).extractLsb' low high = z ∧
      ((c ++ z ++ v).cast hw).extractLsb' 0 low = v := by
  -- A cast keeps the bits, so a field of the cast word is that field of the word.
  refine ⟨?_, ?_, BitVec.extractLsb'_append_eq_right⟩
  · calc (c ++ z ++ v).extractLsb' 24 8
        = (c ++ z).extractLsb' (24 - low) 8 := BitVec.extractLsb'_append_eq_of_le (by omega)
      _ = c := by
        rw [show 24 - low = high by omega]
        exact BitVec.extractLsb'_append_eq_left
  · calc (c ++ z ++ v).extractLsb' low high
        = (c ++ z).extractLsb' (low - low) high := BitVec.extractLsb'_append_eq_of_le (Nat.le_refl low)
      _ = z := by
        rw [Nat.sub_self]
        exact BitVec.extractLsb'_append_eq_right

/-- The word of a command of a format with one operand decodes to the command (R81, R82). -/
theorem decode_encode_of_format {c : BitVec 8} {low high : Nat} {f : BitVec low → Instr} (hw : 8 + high + low = 32)
    (hd : ∀ w, opcodeField w = c → decode w =
      if w.extractLsb' low high = 0 then .ok (f (w.extractLsb' 0 low)) else .error .mustBeZero)
    (he : ∀ v, encode (f v) = (c ++ 0#high ++ v).cast hw) (v : BitVec low) : decode (encode (f v)) = .ok (f v) := by
  obtain ⟨hopcode, hzero, hoperand⟩ := fields_of_append hw c 0#high v
  rw [he, hd _ hopcode, hoperand]
  exact if_pos hzero

/-- Settles O1: the word of a command without operand is a fixed word, and the others have the fields they were put
together from. -/
theorem decodeInvertsEncode : Obligations.DecodeInvertsEncode := by
  intro i
  cases i with
  | pkPush v =>
    exact decode_encode_of_format (low := 9) (high := 15) rfl (fun w ho => by rw [decode, ho]; rfl) (fun _ => rfl) v
  | dotLookup idx =>
    exact decode_encode_of_format (low := 8) (high := 16) rfl (fun w ho => by rw [decode, ho]; rfl) (fun _ => rfl) idx
  | rsEncode nd nc =>
    obtain ⟨hopcode, hnc, hnd⟩ := fields_of_append (low := 12) (high := 12) rfl 0x30#8 nc nd
    calc decode (encode (.rsEncode nd nc))
        = formatRS (encode (.rsEncode nd nc)) .rsEncode := by
          rw [decode, show opcodeField (encode (.rsEncode nd nc)) = 0x30#8 from hopcode]; rfl
      _ = .ok (.rsEncode nd nc) := congrArg Except.ok (congrArg₂ Instr.rsEncode hnd hnc)
  | maskApply m =>
    exact decode_encode_of_format (low := 2) (high := 22) rfl (fun w ho => by rw [decode, ho]; rfl) (fun _ => rfl) m
  | candidate m =>
    exact decode_encode_of_format (low := 3) (high := 21) rfl (fun w ho => by rw [decode, ho]; rfl) (fun _ => rfl) m
  | _ => rfl

/-- Settles O2: the lemma that no bit of a legal word is ignored. -/
theorem encodeInvertsDecode : Obligations.EncodeInvertsDecode :=
  fun _ _ => encode_of_decode

/-- A word whose upper bits are fixed is those bits and its own lower ones. -/
theorem eq_append_of_masked {n k : Nat} {w : BitVec (n + k)} {p : BitVec n}
    (h : w &&& (BitVec.allOnes n ++ 0#k) = p ++ 0#k) : w = p ++ w.extractLsb' 0 k := by
  have hsplit : w.extractLsb' k n ++ w.extractLsb' 0 k = w := BitVec.extractLsb'_append_extractLsb'
  have hfixed : w.extractLsb' k n = p := by
    rw [← hsplit, BitVec.and_append, BitVec.and_allOnes, BitVec.and_zero] at h
    exact (BitVec.append_left_inj _).1 h
  rw [← hfixed]
  exact hsplit.symm

/-- A word with the fixed bits of a command's row is the word of a command of that row: the bits outside the mask are
exactly the operands (R81, R83). -/
theorem exists_encode_of_masked {w : Word} (i : Instr) (h : w &&& (rowOf i).mask = (rowOf i).pattern) :
    ∃ j, rowOf j = rowOf i ∧ encode j = w := by
  cases i with
  | pkPush _ =>
    exact ⟨.pkPush (w.extractLsb' 0 9), rfl, (eq_append_of_masked (n := 23) (p := 0x10#8 ++ 0#15) h).symm⟩
  | dotLookup _ =>
    exact ⟨.dotLookup (w.extractLsb' 0 8), rfl, (eq_append_of_masked (n := 24) (p := 0x20#8 ++ 0#16) h).symm⟩
  | rsEncode _ _ =>
    have hopcode : opcodeField w = 0x30#8 := by
      rw [eq_append_of_masked (n := 8) (k := 24) (p := 0x30#8) h]
      exact BitVec.extractLsb'_append_eq_left
    refine ⟨.rsEncode (w.extractLsb' 0 12) (w.extractLsb' 12 12), rfl, ?_⟩
    rw [encode, ← hopcode]
    exact opcodeField_append_fields w (low := 12) (high := 12) rfl
  | maskApply _ =>
    exact ⟨.maskApply (w.extractLsb' 0 2), rfl, (eq_append_of_masked (n := 30) (p := 0x40#8 ++ 0#22) h).symm⟩
  | candidate _ =>
    exact ⟨.candidate (w.extractLsb' 0 3), rfl, (eq_append_of_masked (n := 29) (p := 0x41#8 ++ 0#21) h).symm⟩
  | _ => exact ⟨_, rfl, h.symm.trans BitVec.and_allOnes⟩

/-- A word has the fixed bits of a row of the table exactly when it decodes to a command of the row (R90). -/
theorem masked_iff_decode (w : Word) {r : OpRow} (hr : r ∈ opcodeTable) :
    w &&& r.mask = r.pattern ↔ ∃ i, decode w = .ok i ∧ rowOf i = r := by
  obtain ⟨i, -, rfl⟩ := List.mem_map.1 hr
  constructor
  · intro h
    obtain ⟨j, hrow, rfl⟩ := exists_encode_of_masked i h
    exact ⟨j, decodeInvertsEncode j, hrow⟩
  · rintro ⟨j, hj, hrow⟩
    rw [← hrow, ← encode_of_decode hj]
    exact beq_iff_eq.1 (encodeHitsRow j).1

/-- Settles O3: the rows a word matches are the row of the command it decodes to, and a word decodes to one command at
most. -/
theorem decodeMatchesTheOpcodeTable : Obligations.DecodeMatchesTheOpcodeTable := by
  refine ⟨fun w r hr => masked_iff_decode w hr, fun w r hr q hq hwr hwq => ?_, fun w => ⟨?_, fun hnone => ?_⟩⟩
  · obtain ⟨i, hi, rfl⟩ := (masked_iff_decode w hr).1 hwr
    obtain ⟨j, hj, rfl⟩ := (masked_iff_decode w hq).1 hwq
    obtain rfl : i = j := Except.ok.inj (hi.symm.trans hj)
    rfl
  · rintro ⟨k, hk⟩ r hr hwr
    obtain ⟨i, hi, -⟩ := (masked_iff_decode w hr).1 hwr
    cases hk.symm.trans hi
  · cases hd : decode w with
    | error k => exact ⟨k, rfl⟩
    | ok i =>
      have hrow : rowOf i ∈ opcodeTable := (encodeHitsRow i).2
      exact absurd ((masked_iff_decode w hrow).2 ⟨i, hd, rfl⟩) (hnone _ hrow)

/-- Settles O4: the decoder runs on each of the ten words. -/
theorem writtenOutWordsDecode : Obligations.WrittenOutWordsDecode := by
  unfold Obligations.WrittenOutWordsDecode
  decide

/-- A word that is not legal does not decode (R84, R85, R90). -/
theorem decode_error_of_not_wordWf {w : Word} (h : wordWf w = false) : ∃ k, decode w = .error k := by
  cases hd : decode w with
  | error k => exact ⟨k, rfl⟩
  | ok i => rw [wordWf_of_decode hd] at h; cases h

/-- STATUS[15:8] is ERRCODE (R25). -/
theorem statusWord_errCode (s : State) : (statusWord s).extractLsb' 8 8 = errCodeBits s.errCode := by
  apply BitVec.eq_of_toNat_eq
  have hstatus := statusWord_toNat s
  have hcode := (errCodeBits s.errCode).isLt
  have hberr := s.berr.toNat_lt
  have hovr := s.ovr.toNat_lt
  have herr := s.err.toNat_lt
  have hdone := s.done.toNat_lt
  have hbusy := s.pending.isSome.toNat_lt
  rw [errCodeBits_toNat] at hcode ⊢
  rw [BitVec.extractLsb'_toNat, Nat.shiftRight_eq_div_pow]
  omega

/-- Settles O5: the word does not decode, so the engine takes ILLEGAL_CMD, and STATUS shows its code. -/
theorem illegalWordsRecordIllegalCmd : Obligations.IllegalWordsRecordIllegalCmd := by
  refine ⟨fun s w hr hp hw => ?_, by decide⟩
  obtain ⟨k, hk⟩ := decode_error_of_not_wordWf hw
  exact ⟨_, engineTurn_illegal hr hp hk, rfl, statusWord_errCode _⟩

end Sys2Proof.Machine

/-! The dot-pattern ROM (R100, R103): the check phase of DOT_LOOKUP has one condition, the range of its index. -/

namespace Sys2Proof.Machine

/-- Inside the ROM, a lookup gives the entry of the parameter array (R100). -/
theorem romAt_of_lt (p : Config.Params) {c : Nat} (h : c < 113) : romAt p c = p.dotRom[c] :=
  dif_pos h

/-- A check phase with one condition finds that condition's code exactly when it holds (R251). -/
theorem firstError_singleton (P : Prop) [Decidable P] (c : ErrCode) :
    firstError [(decide P, c)] = if P then some c else none := by
  simp only [firstError, decide_eq_true_eq]

/-- Settles O15: an index in range passes the check and is inside the ROM, and any other fails it. -/
theorem dotLookupReadsTheRom : Obligations.DotLookupReadsTheRom := by
  refine ⟨fun idx s h => exec_eq_next.2 (.inl ⟨?_, ?_⟩), fun idx s h => exec_eq_next.2 (.inr ⟨.rangeIdx, ?_, rfl⟩)⟩
  · have hpass : ¬ cwMax < idx.toNat := Nat.not_lt.2 (Nat.le_of_lt_succ h)
    exact (firstError_singleton _ _).trans (if_neg hpass)
  · rw [← romAt_of_lt s.params h]
    rfl
  · exact (firstError_singleton _ _).trans (if_pos h)

end Sys2Proof.Machine

/-! The packer's registers (R39–R41, R112, R116): what an emission stores in PK_OUT, and what one push adds to ACC. -/

namespace Sys2Proof.Machine

/-- A number's base-`b` digits, most significant first, are those of the library's `Nat.ofDigits` in reverse. -/
theorem valueBase_eq_ofDigits (b : Nat) (l : List Nat) : valueBase b l = Nat.ofDigits b l.reverse := by
  rw [Nat.ofDigits_eq_foldr, List.foldr_reverse, valueBase]
  congr 1
  funext a c
  simp only [Nat.cast_id]
  ring

/-- Among lists of one length with digits below the base, the value determines the digits. -/
theorem valueBase_injective {b : Nat} (hb : 1 < b) {l m : List Nat} (hlen : l.length = m.length)
    (hl : ∀ x ∈ l, x < b) (hm : ∀ x ∈ m, x < b) (h : valueBase b l = valueBase b m) : l = m := by
  rw [valueBase_eq_ofDigits, valueBase_eq_ofDigits] at h
  refine List.reverse_injective (Nat.ofDigits_inj_of_len_eq hb ?_ ?_ ?_ h)
  · simpa using hlen
  · simpa using hl
  · simpa using hm

/-- The digits of a repeated division, most significant first, have the value divided (R112). -/
theorem valueBase_radixDigits {n a : Nat} (h : a < 103 ^ n) : valueBase 103 (radixDigits n a).reverse = a := by
  rw [valueBase_eq_ofDigits, List.reverse_reverse, Nat.ofDigits_eq_foldr]
  exact radixDigits_value n a h

theorem storeDigits_of_lt (old : Vector (BitVec 7) 6) {ds : List Nat} {k : Nat} (h6 : k < 6) (hk : k < ds.length) :
    (storeDigits old ds)[k] = BitVec.ofNat 7 ds[k] := by
  simp [storeDigits, hk]

theorem storeDigits_of_le (old : Vector (BitVec 7) 6) {ds : List Nat} {k : Nat} (h6 : k < 6) (hk : ds.length ≤ k) :
    (storeDigits old ds)[k] = old[k] := by
  simp [storeDigits, hk]

/-- What an emission leaves in the registers it writes (R112). -/
theorem emit_pkOut_of_le {s : State} {k : Fin 6} (hk : k.val ≤ s.cnt.toNat) :
    ∃ d ∈ radixDigits (s.cnt.toNat + 1) s.acc.toNat, (emit s).pkOut[k] = BitVec.ofNat 7 d := by
  have hlen : k.val < (radixDigits (s.cnt.toNat + 1) s.acc.toNat).reverse.length := by
    rw [List.length_reverse, radixDigits_length]; omega
  exact ⟨_, List.mem_reverse.1 (List.getElem_mem hlen), storeDigits_of_lt s.pkOut k.isLt hlen⟩

/-- An emission writes base-103 digits (R112). -/
theorem emit_pkOut_digit {s : State} {k : Fin 6} (hk : k.val ≤ s.cnt.toNat) : (emit s).pkOut[k].toNat ≤ 102 := by
  obtain ⟨d, hd, hout⟩ := emit_pkOut_of_le hk
  have hlt := radixDigits_lt _ _ d hd
  rw [hout, BitVec.toNat_ofNat]
  omega

/-- An emission leaves the registers past its last codeword as they were (R41). -/
theorem emit_pkOut_of_lt {s : State} {k : Fin 6} (hk : s.cnt.toNat < k.val) : (emit s).pkOut[k] = s.pkOut[k] :=
  storeDigits_of_le s.pkOut k.isLt (by rw [List.length_reverse, radixDigits_length]; omega)

/-- The codewords an emission leaves are the digits of ACC (R112). -/
theorem packedDigits_emit {s : State} (hc : s.cnt.toNat ≤ 5) :
    packedDigits (emit s) (s.cnt.toNat + 1) = (radixDigits (s.cnt.toNat + 1) s.acc.toNat).reverse := by
  have hlen : (radixDigits (s.cnt.toNat + 1) s.acc.toNat).reverse.length = s.cnt.toNat + 1 := by
    rw [List.length_reverse, radixDigits_length]
  refine List.ext_getElem (by simp [packedDigits, hlen]; omega) fun k hk hk' => ?_
  have hdigit := radixDigits_lt _ _ _ (List.mem_reverse.1 (List.getElem_mem hk'))
  have hout : (emit s).pkOut[k] = BitVec.ofNat 7 (radixDigits (s.cnt.toNat + 1) s.acc.toNat).reverse[k] :=
    storeDigits_of_lt s.pkOut (by omega) hk'
  calc (packedDigits (emit s) (s.cnt.toNat + 1))[k] = (emit s).pkOut[k].toNat := by simp [packedDigits]
    _ = (radixDigits (s.cnt.toNat + 1) s.acc.toNat).reverse[k] := by
      rw [hout, BitVec.toNat_ofNat]
      omega

/-- CNT + 1 base-103 codewords hold CNT base-259 values, for every count an emission sees (R7, R114). -/
theorem pow_inRadix_le : ∀ n ≤ 5, 259 ^ n ≤ 103 ^ (n + 1) := by decide

/-- An emission's codewords have the value of ACC (R112, R114). -/
theorem valueBase_emit {s : State} (hc : s.cnt.toNat ≤ 5) (ha : s.acc.toNat < 259 ^ s.cnt.toNat) :
    valueBase 103 (packedDigits (emit s) (s.cnt.toNat + 1)) = s.acc.toNat := by
  rw [packedDigits_emit hc]
  exact valueBase_radixDigits (ha.trans_le (pow_inRadix_le _ hc))

theorem emit_pkOutN {s : State} (hc : s.cnt.toNat ≤ 5) : (emit s).pkOutN.toNat = s.cnt.toNat + 1 :=
  Nat.mod_eq_of_lt (by omega)

theorem emit_packerInv (s : State) : packerInv (emit s) := ⟨Nat.zero_le 4, Nat.one_pos⟩

theorem accumulate_cnt {s : State} (hs : packerInv s) (v : BitVec 9) :
    (accumulate v s).cnt.toNat = s.cnt.toNat + 1 := by
  obtain ⟨hc, -⟩ := hs
  exact (BitVec.toNat_add _ _).trans (Nat.mod_eq_of_lt (by simp; omega))

/-- One more value still fits ACC's range for the count (R116). -/
theorem accumulate_lt {s : State} (hs : packerInv s) {v : BitVec 9} (hv : v.toNat ≤ 258) :
    s.acc.toNat * 259 + v.toNat < 259 ^ (s.cnt.toNat + 1) := by
  obtain ⟨-, ha⟩ := hs
  rw [pow_succ]
  generalize 259 ^ s.cnt.toNat = bound at ha ⊢
  omega

/-- A push shifts the value into ACC in base 259; ACC's 41 bits cut nothing (R39, R111, R116). -/
theorem accumulate_acc {s : State} (hs : packerInv s) {v : BitVec 9} (hv : v.toNat ≤ 258) :
    (accumulate v s).acc.toNat = s.acc.toNat * 259 + v.toNat := by
  have hfits : 259 ^ (s.cnt.toNat + 1) ≤ 259 ^ 5 := Nat.pow_le_pow_right (by decide) (by obtain ⟨hc, -⟩ := hs; omega)
  have hlt := (accumulate_lt hs hv).trans_le hfits
  exact Nat.mod_eq_of_lt (hlt.trans (by decide))

/-- A push that is not the fifth only accumulates (R111). -/
theorem pushBody_of_le_three {s : State} (hs : packerInv s) (hc : s.cnt.toNat ≤ 3) (v : BitVec 9) :
    pushBody v s = accumulate v s :=
  if_neg (by rw [accumulate_cnt hs, pkGroup]; omega)

/-- The fifth push emits (R111). -/
theorem pushBody_of_eq_four {s : State} (hs : packerInv s) (hc : s.cnt.toNat = 4) (v : BitVec 9) :
    pushBody v s = emit (accumulate v s) :=
  if_pos (by rw [accumulate_cnt hs, pkGroup]; omega)

theorem flushBody_of_cnt_zero {s : State} (hc : s.cnt.toNat = 0) : flushBody s = { s with pkOutN := 0 } :=
  if_pos (BitVec.eq_of_toNat_eq hc)

theorem flushBody_of_cnt_ne_zero {s : State} (hc : s.cnt.toNat ≠ 0) : flushBody s = emit s :=
  if_neg fun h => hc (congrArg BitVec.toNat h)

/-- PK_PUSH of a value in range commits (R111). -/
theorem exec_pkPush_of_le {v : BitVec 9} (hv : v.toNat ≤ 258) (s : State) :
    exec (.pkPush v) s = .next (complete (pushBody v s)) :=
  exec_eq_next.2 (.inl ⟨(firstError_singleton _ _).trans (if_neg (Nat.not_lt.2 hv)), rfl⟩)

/-- PK_FLUSH has no check (R113). -/
theorem exec_pkFlush (s : State) : exec .pkFlush s = .next (complete (flushBody s)) :=
  exec_eq_next.2 (.inl ⟨rfl, rfl⟩)

/-- Settles O10: below the fifth the push is `accumulate`, and its one check is the range of the value. -/
theorem pkPushAccumulates : Obligations.PkPushAccumulates := by
  refine ⟨fun v s hs hc hv => ⟨complete (accumulate v s), ?_, accumulate_acc hs hv, accumulate_cnt hs v, rfl, rfl⟩,
    fun v s hv => exec_eq_next.2 (.inr ⟨.rangePk, (firstError_singleton _ _).trans (if_pos hv), rfl⟩)⟩
  rw [exec_pkPush_of_le hv, pushBody_of_le_three hs hc]

/-- The fifth push leaves six codewords with the value of ACC and the value pushed (R111, R112). -/
theorem valueBase_fifthPush {s : State} (hs : packerInv s) (hc : s.cnt.toNat = 4) {v : BitVec 9}
    (hv : v.toNat ≤ 258) :
    valueBase 103 (packedDigits (emit (accumulate v s)) 6) = s.acc.toNat * 259 + v.toNat := by
  have hcnt : (accumulate v s).cnt.toNat = 5 := by rw [accumulate_cnt hs, hc]
  have hacc := accumulate_acc hs hv
  have hlt := accumulate_lt hs hv
  have hvalue := valueBase_emit (s := accumulate v s) (by omega) (by rw [hacc, hcnt]; rwa [hc] at hlt)
  rwa [hcnt, hacc] at hvalue

/-- Settles O11: the fifth push is an emission of the accumulator with the value shifted in. -/
theorem fifthPushEmitsSixCodewords : Obligations.FifthPushEmitsSixCodewords := by
  intro v s hs hc hv
  have hcnt : (accumulate v s).cnt.toNat = 5 := by rw [accumulate_cnt hs, hc]
  have hcount : (emit (accumulate v s)).pkOutN = 6 := BitVec.eq_of_toNat_eq (by rw [emit_pkOutN (by omega), hcnt]; rfl)
  refine ⟨complete (emit (accumulate v s)), ?_, valueBase_fifthPush hs hc hv, fun k => emit_pkOut_digit (by omega), ?_⟩
  · rw [exec_pkPush_of_le hv, pushBody_of_eq_four hs hc]
  · rw [← hcount]
    rfl

/-- Settles O12: a flush clears PK_OUTN when nothing is pending, and is an emission otherwise. -/
theorem pkFlushEmitsThePending : Obligations.PkFlushEmitsThePending := by
  intro s hs
  split
  · rename_i hc
    rw [exec_pkFlush, flushBody_of_cnt_zero hc]
    rfl
  · rename_i hc
    obtain ⟨hle, hacc⟩ := hs
    have hfive : s.cnt.toNat ≤ 5 := by omega
    refine ⟨complete (emit s), ?_, emit_pkOutN hfive, valueBase_emit hfive hacc, fun k => emit_pkOut_digit,
      fun k => emit_pkOut_of_lt, rfl⟩
    rw [exec_pkFlush, flushBody_of_cnt_ne_zero hc]

end Sys2Proof.Machine

/-! Losslessness of the packer (R114): pushes in a row shift their values into ACC, and the emission keeps its value. -/

namespace Sys2Proof.Machine

/-- A list of commands runs its first part, then the rest from the state that part left. -/
theorem execAll_append {l m : List Instr} {s t : State} (h : execAll l s = .next t) :
    execAll (l ++ m) s = execAll m t := by
  induction l generalizing s with
  | nil => cases h; rfl
  | cons i l ih =>
    obtain ⟨u, hu⟩ := exec_next i s
    rw [execAll, hu] at h
    rw [List.cons_append, execAll, hu]
    exact ih h

theorem execAll_singleton (i : Instr) (s : State) : execAll [i] s = exec i s := by
  obtain ⟨u, hu⟩ := exec_next i s
  rw [execAll, hu]
  rfl

theorem packerInv_accumulate {s : State} (hs : packerInv s) (hc : s.cnt.toNat ≤ 3) {v : BitVec 9}
    (hv : v.toNat ≤ 258) : packerInv (accumulate v s) := by
  rw [packerInv, accumulate_acc hs hv, accumulate_cnt hs]
  exact ⟨by omega, accumulate_lt hs hv⟩

/-- Pushes that do not reach the fifth shift their values into ACC, first value first (R111). -/
theorem execAll_pushes {vs : List (BitVec 9)} {s : State} (hs : packerInv s) (hc : s.cnt.toNat + vs.length ≤ 4)
    (hv : ∀ v ∈ vs, v.toNat ≤ 258) :
    ∃ t, execAll (vs.map .pkPush) s = .next t ∧ packerInv t ∧ t.cnt.toNat = s.cnt.toNat + vs.length ∧
      t.acc.toNat = (vs.map BitVec.toNat).foldl (fun a c => a * 259 + c) s.acc.toNat := by
  induction vs generalizing s with
  | nil => exact ⟨s, rfl, hs, rfl, rfl⟩
  | cons v vs ih =>
    obtain ⟨hv, hvs⟩ := List.forall_mem_cons.1 hv
    rw [List.length_cons] at hc
    have hthree : s.cnt.toNat ≤ 3 := by omega
    have hcnt := accumulate_cnt hs v
    obtain ⟨t, ht, hinv, htcnt, htacc⟩ := ih (s := complete (accumulate v s))
      (packerInv_accumulate hs hthree hv) (by rw [complete_cnt]; omega) hvs
    rw [complete_cnt] at htcnt
    rw [complete_acc, accumulate_acc hs hv] at htacc
    refine ⟨t, ?_, hinv, by rw [List.length_cons]; omega, htacc⟩
    rw [List.map_cons, execAll, exec_pkPush_of_le hv, pushBody_of_le_three hs hthree]
    exact ht

theorem packerInv_of_empty {s : State} (hc : s.cnt = 0) (ha : s.acc = 0) : packerInv s := by
  simp [packerInv, hc, ha]

/-- The state holds the values as codewords, one more than the values, and its packer is empty (R114). -/
def Packed (vs : List (BitVec 9)) (t : State) : Prop :=
  t.pkOutN.toNat = vs.length + 1 ∧ t.cnt = 0 ∧ t.acc = 0 ∧
    valueBase 103 (packedDigits t (vs.length + 1)) = valueBase 259 (vs.map BitVec.toNat)

/-- Fewer than five values are packed by the flush (R113). -/
theorem packed_by_flush {s : State} (hc : s.cnt = 0) (ha : s.acc = 0) {vs : List (BitVec 9)} (h1 : 1 ≤ vs.length)
    (h4 : vs.length ≤ 4) (hv : ∀ v ∈ vs, v.toNat ≤ 258) :
    ∃ t, execAll (packCommands vs) s = .next t ∧ Packed vs t := by
  obtain ⟨u, hu, ⟨-, hlt⟩, hcnt, hacc⟩ := execAll_pushes (packerInv_of_empty hc ha) (by simpa [hc] using h4) hv
  have hn : u.cnt.toNat = vs.length := by simpa [hc] using hcnt
  refine ⟨complete (emit u), ?_, ?_, rfl, rfl, ?_⟩
  · rw [packCommands, if_pos (by omega), List.append_eq, execAll_append hu, execAll_singleton, exec_pkFlush,
      flushBody_of_cnt_ne_zero (by omega)]
  · rw [← hn]
    exact emit_pkOutN (by omega)
  · rw [← hn]
    exact (valueBase_emit (by omega) hlt).trans (by rw [hacc, ha]; rfl)

/-- Five values are packed by the fifth push itself (R111). -/
theorem packed_by_fifthPush {s : State} (hc : s.cnt = 0) (ha : s.acc = 0) {vs : List (BitVec 9)} {v : BitVec 9}
    (h4 : vs.length = 4) (hvs : ∀ x ∈ vs ++ [v], x.toNat ≤ 258) :
    ∃ t, execAll (packCommands (vs ++ [v])) s = .next t ∧ Packed (vs ++ [v]) t := by
  obtain ⟨hinit, hlast⟩ := List.forall_mem_append.1 hvs
  have hv : v.toNat ≤ 258 := hlast v List.mem_cons_self
  obtain ⟨u, hu, hinv, hcnt, hacc⟩ := execAll_pushes (packerInv_of_empty hc ha) (by simp [hc, h4]) hinit
  have hfour : u.cnt.toNat = 4 := by simpa [hc, h4] using hcnt
  have hfive : (accumulate v u).cnt.toNat = 5 := by rw [accumulate_cnt hinv, hfour]
  have hlen : (vs ++ [v]).length = 5 := by simp [h4]
  refine ⟨complete (emit (accumulate v u)), ?_, ?_, rfl, rfl, ?_⟩
  · rw [packCommands, if_neg (by omega), List.append_eq, List.append_nil, List.map_append, execAll_append hu,
      List.map_singleton, execAll_singleton, exec_pkPush_of_le hv, pushBody_of_eq_four hinv hfour]
  · rw [hlen]
    exact (emit_pkOutN (by omega)).trans (by rw [hfive])
  · rw [hlen]
    refine (valueBase_fifthPush hinv hfour hv).trans ?_
    rw [hacc, ha, valueBase, List.map_append, List.foldl_append]
    rfl

/-- Packing 1 to 5 values from an empty packer keeps their value (R114). -/
theorem packed_of_packCommands {s : State} (hc : s.cnt = 0) (ha : s.acc = 0) {vs : List (BitVec 9)}
    (h1 : 1 ≤ vs.length) (h5 : vs.length ≤ 5) (hv : ∀ v ∈ vs, v.toNat ≤ 258) :
    ∃ t, execAll (packCommands vs) s = .next t ∧ Packed vs t := by
  by_cases h4 : vs.length ≤ 4
  · exact packed_by_flush hc ha h1 h4 hv
  · obtain rfl | ⟨init, last, rfl⟩ := vs.eq_nil_or_concat'
    · exact absurd (Nat.zero_le 4) h4
    · rw [List.length_append, List.length_singleton] at h4 h5
      exact packed_by_fifthPush hc ha (by omega) hv

/-- Settles O13: the codewords have the value of the values in base 259, and in that base the value determines them. -/
theorem packingLosesNothing : Obligations.PackingLosesNothing := by
  refine ⟨fun s vs hc ha h1 h5 hv => packed_of_packCommands hc ha h1 h5 hv,
    fun s t u vs ws hc ha h1 h5 hlen hv hw ht hu hsame => ?_⟩
  obtain ⟨t', ht', -, -, -, hvalue⟩ := packed_of_packCommands hc ha h1 h5 hv
  obtain ⟨u', hu', -, -, -, hvalue'⟩ := packed_of_packCommands hc ha (hlen ▸ h1) (hlen ▸ h5) hw
  obtain rfl : t' = t := Host.Outcome.next.inj (ht'.symm.trans ht)
  obtain rfl : u' = u := Host.Outcome.next.inj (hu'.symm.trans hu)
  have heq : valueBase 259 (vs.map BitVec.toNat) = valueBase 259 (ws.map BitVec.toNat) := by
    rw [← hvalue, ← hvalue', hlen, hsame]
  have below : ∀ {l : List (BitVec 9)}, (∀ v ∈ l, v.toNat ≤ 258) → ∀ x ∈ l.map BitVec.toNat, x < 259 :=
    fun h => List.forall_mem_map.2 fun v hmem => Nat.lt_succ_of_le (h v hmem)
  exact List.map_injective_iff.2 (fun a b => BitVec.eq_of_toNat_eq)
    (valueBase_injective (by decide) (by simpa using hlen.symm) (below hv) (below hw) heq)

end Sys2Proof.Machine

/-! The packer's independence (R115): every other operation of the machine commutes with replacing the packer's registers,
and so neither reads nor writes them. -/

namespace Sys2Proof.Machine

/-- The packer's registers: ACC, CNT, PK_OUTN and PK_OUT (R39–R41). -/
structure PackerRegs where
  /-- ACC (R39). -/
  acc : BitVec 41
  /-- CNT (R40). -/
  cnt : BitVec 3
  /-- PK_OUTN (R41). -/
  outN : BitVec 3
  /-- PK_OUT0..PK_OUT5 (R41). -/
  out : Vector (BitVec 7) 6

/-- The packer's registers of a state. -/
def packerRegs (s : State) : PackerRegs := ⟨s.acc, s.cnt, s.pkOutN, s.pkOut⟩

/-- The state with other packer registers. -/
def withPacker (p : PackerRegs) (s : State) : State :=
  { s with acc := p.acc, cnt := p.cnt, pkOutN := p.outN, pkOut := p.out }

/-- An operation that neither reads nor writes the packer's registers. -/
def PackerBlind (f : State → State) : Prop := ∀ p s, f (withPacker p s) = withPacker p (f s)

/-- A blind operation writes no packer register: replace them by their own values. -/
theorem PackerBlind.packerRegs_eq {f : State → State} (hf : PackerBlind f) (s : State) :
    packerRegs (f s) = packerRegs s :=
  (congrArg packerRegs (hf (packerRegs s) s) :)

theorem PackerBlind.comp {f g : State → State} (hg : PackerBlind g) (hf : PackerBlind f) :
    PackerBlind (fun s => g (f s)) := fun p s => by
  dsimp only
  rw [hf, hg]

theorem foldl_putGrid_blind (l : List (Nat × Nat)) (f : Nat × Nat → Nat) (vs : List CellCode) :
    PackerBlind (fun s => l.foldl (fun t rc => putGrid t (f rc) vs) s) := by
  induction l with
  | nil => exact fun _ _ => rfl
  | cons c l ih => exact ih.comp (f := fun s => putGrid s (f c) vs) fun _ _ => rfl

theorem forceCornersBody_blind : PackerBlind forceCornersBody := fun p s =>
  foldl_putGrid_blind (corners (gridRows s) (gridCols s)) (fun rc => rc.1 * gridCols s + rc.2) [cellSet] p s

theorem forceIfHigh_blind (m : BitVec 3) : PackerBlind (forceIfHigh m) := fun p s => by
  unfold forceIfHigh
  split
  · exact forceCornersBody_blind p s
  · rfl

/-- The operations of a candidate up to its grid (R153). -/
theorem candidateGrid_blind (m : BitVec 3) : PackerBlind fun s =>
    foldBody (dotStreamBody (rsBody (dLen s + 1) (eLen s) (maskBody (m.toNat % 4) s))) :=
  fun _ _ => rfl

theorem candidateBody_blind (m : BitVec 3) : PackerBlind (candidateBody m) :=
  PackerBlind.comp (g := fun s => recordScore m (scoreBody s)) (fun _ _ => rfl)
    ((forceIfHigh_blind m).comp (candidateGrid_blind m))

/-- A search whose state has other packer registers. -/
def Search.withPacker (p : PackerRegs) (r : Search) : Search := { r with state := Machine.withPacker p r.state }

@[simp] theorem Search.withPacker_state (p : PackerRegs) (r : Search) :
    (r.withPacker p).state = Machine.withPacker p r.state := rfl

@[simp] theorem Search.withPacker_best (p : PackerRegs) (r : Search) : (r.withPacker p).best = r.best := rfl

@[simp] theorem Search.withPacker_mask (p : PackerRegs) (r : Search) : (r.withPacker p).mask = r.mask := rfl

theorem tryMask_withPacker (p : PackerRegs) (r : Search) (m : BitVec 3) :
    tryMask (r.withPacker p) m = (tryMask r m).withPacker p := by
  unfold tryMask
  dsimp only
  rw [apply_ite (Search.withPacker p)]
  simp only [Search.withPacker, candidateBody_blind m p r.state]
  rfl

theorem foldl_tryMask_withPacker (l : List (BitVec 3)) (p : PackerRegs) (r : Search) :
    l.foldl tryMask (r.withPacker p) = (l.foldl tryMask r).withPacker p := by
  induction l generalizing r with
  | nil => rfl
  | cons m l ih => rw [List.foldl_cons, tryMask_withPacker, ih, List.foldl_cons]

theorem searchPlain_withPacker (p : PackerRegs) (s : State) :
    searchPlain (withPacker p s) = (searchPlain s).withPacker p := by
  unfold searchPlain
  rw [candidateBody_blind 0 p s]
  exact foldl_tryMask_withPacker _ p ⟨candidateBody 0 s, _, 0⟩

theorem searchAll_withPacker (p : PackerRegs) (s : State) :
    searchAll (withPacker p s) = (searchAll s).withPacker p := by
  unfold searchAll
  dsimp only
  rw [searchPlain_withPacker, foldl_tryMask_withPacker, Search.withPacker_best,
    show dotCapacity (withPacker p s) = dotCapacity s from rfl, apply_ite (Search.withPacker p)]

/-- A pinned mask is the only candidate (R178). -/
theorem chosen_pinned {s : State} (h : s.pinEn = true) : chosen s = (s.pinMask, candidateBody s.pinMask s) :=
  if_pos h

/-- Without a pinned mask the winner of the search is built again (R175, R179). -/
theorem chosen_searched {s : State} (h : s.pinEn = false) :
    chosen s = ((searchAll s).mask, candidateBody (searchAll s).mask (searchAll s).state) :=
  if_neg (by simp [h])

theorem chosen_withPacker (p : PackerRegs) (s : State) :
    chosen (withPacker p s) = ((chosen s).1, withPacker p (chosen s).2) := by
  cases h : s.pinEn with
  | true =>
    rw [chosen_pinned h, chosen_pinned (s := withPacker p s) h]
    exact congrArg (Prod.mk _) (candidateBody_blind _ p s)
  | false =>
    rw [chosen_searched h, chosen_searched (s := withPacker p s) h, searchAll_withPacker,
      Search.withPacker_mask, Search.withPacker_state, candidateBody_blind]

theorem selectBody_blind : PackerBlind selectBody := fun p s => by
  have h := chosen_withPacker p { s with msValid := 0, msRej := 0 }
  unfold selectBody
  exact congrArg (fun c : BitVec 3 × State => { c.2 with bestMask := c.1, bmValid := true }) h

theorem runBody_blind : PackerBlind runBody :=
  selectBody_blind.comp
    (f := fun s => padBody (setSize (sizeFor s.params (dLen s) (runEcc s) s.widthReq.toNat) (eccLenBody s)))
    fun _ _ => rfl

/-- Only the two packer commands and SRESET have a commit phase that sees the packer (R115). -/
theorem commitPhase_blind {i : Instr} (hpush : ∀ v, i ≠ .pkPush v) (hflush : i ≠ .pkFlush) (hreset : i ≠ .sreset) :
    PackerBlind (commitPhase i) := by
  cases i with
  | pkPush v => exact absurd rfl (hpush v)
  | pkFlush => exact absurd rfl hflush
  | sreset => exact absurd rfl hreset
  | candidate m => exact candidateBody_blind m
  | select => exact selectBody_blind
  | forceCorners => exact forceCornersBody_blind
  | run => exact runBody_blind
  | _ => exact fun _ _ => rfl

/-- No check phase reads the packer, not even PK_PUSH's (R111, R115). -/
theorem checkPhase_withPacker (i : Instr) (p : PackerRegs) (s : State) :
    checkPhase i (withPacker p s) = checkPhase i s := by
  cases i <;> rfl

/-- A command with a blind commit phase runs the same with other packer registers, and keeps them (R115). -/
theorem exec_withPacker {i : Instr} (hi : PackerBlind (commitPhase i)) {s t : State} (h : exec i s = .next t)
    (p : PackerRegs) : packerRegs t = packerRegs s ∧ exec i (withPacker p s) = .next (withPacker p t) := by
  obtain ⟨hcheck, rfl⟩ | ⟨c, hcheck, rfl⟩ := exec_eq_next.1 h
  · refine ⟨hi.packerRegs_eq s, exec_eq_next.2 (.inl ⟨(checkPhase_withPacker i p s).trans hcheck, ?_⟩)⟩
    rw [hi p s]
    rfl
  · exact ⟨rfl, exec_eq_next.2 (.inr ⟨c, (checkPhase_withPacker i p s).trans hcheck, rfl⟩)⟩

/-- A command writes SRC only in its commit phase (R13). -/
theorem exec_src_of_commitPhase {i : Instr} {s t : State} (h : exec i s = .next t)
    (hi : (commitPhase i s).src = s.src) : t.src = s.src := by
  obtain ⟨-, rfl⟩ | ⟨c, -, rfl⟩ := exec_eq_next.1 h
  · exact hi
  · rfl

/-- Settles O14: every other commit phase is blind to the packer, and the packer's own write no buffer. -/
theorem packerIsIndependent : Obligations.PackerIsIndependent := by
  refine ⟨fun i s t acc cnt outN out hpush hflush hreset h => ?_, fun s v => ?_⟩
  · obtain ⟨hregs, hexec⟩ := exec_withPacker (commitPhase_blind hpush hflush hreset) h ⟨acc, cnt, outN, out⟩
    obtain ⟨hacc, hcnt, houtN, hout⟩ := PackerRegs.mk.inj hregs
    exact ⟨hacc, hcnt, houtN, hout, hexec⟩
  · obtain ⟨t, ht⟩ := exec_next (.pkPush v) s
    obtain ⟨u, hu⟩ := exec_next .pkFlush s
    exact ⟨t, u, ht, hu, exec_src_of_commitPhase ht (congrArg State.src (pushBody_frame v s) :),
      exec_src_of_commitPhase hu (congrArg State.src (flushBody_frame s) :)⟩

end Sys2Proof.Machine

/-! The sizes SIZE computes hold the stream (R191, R192), and RS_STEP and STREAM_LEN stay within what the depths of the
buffers allow (R43, R45). -/

namespace Sys2Proof.Machine

/-- One more than the two integer roots always gives enough area (R191). -/
theorem minArea_le_roots (d e : Nat) :
    minArea d e ≤ (isqrt (2 * minArea d e / 3) + 1) * (isqrt (3 * minArea d e / 2) + 1) := by
  obtain ⟨-, hh⟩ := isqrt_spec (2 * minArea d e / 3)
  obtain ⟨-, hw⟩ := isqrt_spec (3 * minArea d e / 2)
  have heven : minArea d e % 2 = 0 := Nat.mul_mod_right 2 _
  generalize minArea d e = a at *
  generalize isqrt (2 * a / 3) + 1 = h at *
  generalize isqrt (3 * a / 2) + 1 = w at *
  have hrows : 2 * a ≤ 3 * (h * h) := by omega
  have hcols : 3 * a ≤ 2 * (w * w) := by omega
  have hsquare : 6 * (a * a) ≤ 6 * ((h * w) * (h * w)) :=
    calc 6 * (a * a) = 2 * a * (3 * a) := by ring
      _ ≤ 3 * (h * h) * (2 * (w * w)) := Nat.mul_le_mul hrows hcols
      _ = 6 * ((h * w) * (h * w)) := by ring
  exact Nat.mul_self_le_mul_self_iff.1 (Nat.le_of_mul_le_mul_left hsquare (by decide))

/-- A SIZE_TIE that meets R8 has a last candidate, and it enlarges both dimensions (log 13). -/
theorem sizeTieWf_last {l : List (Int × Int)} (h : sizeTieWf l = true) :
    ∃ c, l.getLast? = some c ∧ 1 ≤ c.1 ∧ 1 ≤ c.2 := by
  unfold sizeTieWf at h
  rw [Bool.and_eq_true] at h
  obtain ⟨-, hlast⟩ := h
  split at hlast
  · rename_i c hc
    exact ⟨c, hc, by simpa using hlast⟩
  · cases hlast

theorem le_adjust {n : Nat} {k : Int} (hk : 1 ≤ k) : n + 1 ≤ adjust n k := by
  unfold adjust
  omega

/-- The tie-break answers a size of enough area when the roots are one short each (R191; log 13). -/
theorem tieBreak_area {l : List (Int × Int)} (hl : sizeTieWf l = true) {area h w : Nat}
    (ha : area ≤ (h + 1) * (w + 1)) : area ≤ (tieBreak area h w l).1 * (tieBreak area h w l).2 := by
  obtain ⟨last, hlast, hrows, hcols⟩ := sizeTieWf_last hl
  obtain ⟨c, -, hc, henough | hc'⟩ := tieBreak_spec area h w l (by rintro rfl; cases hlast)
  · rwa [hc]
  · obtain rfl : c = last := Option.some.inj (hc'.symm.trans hlast)
    rw [hc]
    exact ha.trans (Nat.mul_le_mul (le_adjust hrows) (le_adjust hcols))

/-- Automatic sizing gives enough area (R191). -/
theorem autoSize_area {p : Config.Params} (hp : sizeTieWf p.sizeTie = true) (d e : Nat) :
    minArea d e ≤ (autoSize p d e).1 * (autoSize p d e).2 := by
  unfold autoSize
  dsimp only
  split
  · split
    · exact minArea_le_roots d e
    · rename_i h
      exact Nat.le_of_not_lt h
  · exact tieBreak_area hp (minArea_le_roots d e)

/-- A pinned width gives enough area (R192). -/
theorem pinnedSize_area (d e : Nat) {w : Nat} (hw : 0 < w) :
    minArea d e ≤ (pinnedSize d e w).1 * (pinnedSize d e w).2 := by
  have hceil : minArea d e ≤ (minArea d e + w - 1) / w * w := by
    have := Nat.div_add_mod (minArea d e + w - 1) w
    have := Nat.mod_lt (minArea d e + w - 1) hw
    rw [Nat.mul_comm]
    omega
  have hmax := hceil.trans (Nat.mul_le_mul_right w (Nat.le_max_left _ minDim))
  unfold pinnedSize
  dsimp only
  split
  · exact hmax.trans (Nat.mul_le_mul_right w (Nat.le_succ _))
  · exact hmax

/-- The size SIZE computes holds the stream, for parameters that meet R8 (R190). -/
theorem sizeFor_area {p : Config.Params} (hp : paramsWf p = true) (d e wr : Nat) :
    minArea d e ≤ (sizeFor p d e wr).1 * (sizeFor p d e wr).2 := by
  simp only [paramsWf, Bool.and_eq_true] at hp
  obtain ⟨-, htie⟩ := hp
  unfold sizeFor
  split
  · exact autoSize_area htie d e
  · exact pinnedSize_area d e (Nat.pos_of_ne_zero ‹_›)

/-- SIZE's checks leave both dimensions in 5..200 (R193). -/
theorem sizeFor_in_range {p : Config.Params} {d e wr : Nat} (h : ∀ c ∈ sizeErrors p d e wr, c.1 = false) :
    5 ≤ (sizeFor p d e wr).1 ∧ (sizeFor p d e wr).1 ≤ 200 ∧ 5 ≤ (sizeFor p d e wr).2 ∧ (sizeFor p d e wr).2 ≤ 200 := by
  simp only [sizeErrors, List.forall_mem_cons, Bool.or_eq_false_iff, decide_eq_false_iff_not] at h
  obtain ⟨-, -, hrows, hcols, ⟨hrows', hcols'⟩, -⟩ := h
  exact ⟨Nat.le_of_not_lt hrows', Nat.le_of_not_lt hrows, Nat.le_of_not_lt hcols', Nat.le_of_not_lt hcols⟩

/-- The computed size in the geometry registers, when SIZE's checks pass, has a dot capacity that holds the stream and
fits STREAM (R7, R190, R193). -/
theorem dotCapacity_setSize {s : State} (hp : paramsWf s.params = true) {d e wr : Nat}
    (h : ∀ c ∈ sizeErrors s.params d e wr, c.1 = false) :
    minDots d e ≤ dotCapacity (setSize (sizeFor s.params d e wr) s) ∧
      dotCapacity (setSize (sizeFor s.params d e wr) s) ≤ 20000 := by
  obtain ⟨-, hh, -, hw⟩ := sizeFor_in_range h
  have hrows : gridRows (setSize (sizeFor s.params d e wr) s) = (sizeFor s.params d e wr).1 :=
    Nat.mod_eq_of_lt (by omega)
  have hcols : gridCols (setSize (sizeFor s.params d e wr) s) = (sizeFor s.params d e wr).2 :=
    Nat.mod_eq_of_lt (by omega)
  have harea := sizeFor_area hp d e wr
  have hlimit : (sizeFor s.params d e wr).1 * (sizeFor s.params d e wr).2 ≤ 200 * 200 := Nat.mul_le_mul hh hw
  unfold minArea at harea
  rw [dotCapacity, ndots, hrows, hcols]
  omega

/-- The padded stream still fits the grid (R197). -/
theorem minDots_padBody_le {s : State} (h : minDots (dLen s) (eLen s) ≤ dotCapacity s) :
    minDots (dLen (padBody s)) (eLen (padBody s)) ≤ dotCapacity s := by
  obtain ⟨left, -, -, -, hspent⟩ :=
    padLoop_spec s.params.eccFn (freeSlots s + 1) (freeSlots s) (dLen s) (eLen s) (Nat.lt_succ_self _)
  change _ + left = _ + freeSlots s at hspent
  have hd : dLen (padBody s) ≤ (paddedLengths s).1 := Nat.mod_le _ _
  have he : eLen (padBody s) ≤ (paddedLengths s).2 := Nat.mod_le _ _
  unfold paddedLengths at hd he
  unfold freeSlots minDots at *
  omega

/-- The blocks of at most 4096 codewords are at most 37 (R45, R134). -/
theorem rsSteps_le {n : Nat} (h : n ≤ 4096) : rsSteps n ≤ 37 := by
  unfold rsSteps blkMax
  omega

theorem rsBody_rsStep_le {nd nc : Nat} (h : nd + nc ≤ 4096) (s : State) : (rsBody nd nc s).rsStep.toNat ≤ 37 :=
  (Nat.mod_le _ _).trans (rsSteps_le h)

theorem dotStreamBody_streamLen_le {s : State} (h : minDots (dLen s) (eLen s) ≤ 20000) :
    (dotStreamBody s).streamLen.toNat ≤ 20000 :=
  (Nat.mod_le _ _).trans h

/-- After a candidate RS_STEP is that of its RS_ENCODE (R153). -/
theorem candidateBody_rsStep (m : BitVec 3) (s : State) :
    (candidateBody m s).rsStep = BitVec.ofNat 6 (rsSteps (dLen s + 1 + eLen s)) := by
  simp only [candidateBody, recordScore_rsStep, scoreBody_rsStep]
  rw [forceIfHigh_frame]
  rfl

/-- After a candidate STREAM_LEN is that of its DOTSTREAM (R153). -/
theorem candidateBody_streamLen (m : BitVec 3) (s : State) :
    (candidateBody m s).streamLen = BitVec.ofNat 15 (minDots (dLen s) (eLen s)) := by
  simp only [candidateBody, recordScore_streamLen, scoreBody_streamLen]
  rw [forceIfHigh_frame]
  rfl

/-- SELECT leaves the candidate of its winner, built from a state that differs in what candidates write (R179). -/
theorem chosen_eq_candidateBody (s : State) :
    ∃ m u, SameButCandidate s u ∧ (chosen s).2 = candidateBody m u := by
  cases h : s.pinEn with
  | true => exact ⟨s.pinMask, s, rfl, congrArg Prod.snd (chosen_pinned h)⟩
  | false => exact ⟨_, _, searchAll_same s, congrArg Prod.snd (chosen_searched h)⟩

theorem SameButCandidate.lengths {s t : State} (h : SameButCandidate s t) : dLen t = dLen s ∧ eLen t = eLen s := by
  rw [h]
  exact ⟨rfl, rfl⟩

end Sys2Proof.Machine

/-! The invariant of the machine (R25, R39–R45, R72, R116, R280): what each commit phase, an error, a host transaction and
a reset edge keep of it, and so every step. -/

namespace Sys2Proof.Machine

/-- Completion keeps the invariant: nothing is pending any more. -/
theorem Inv.complete {s : State} (h : Inv s) : Inv (complete s) :=
  { h with idleInReset := fun _ => rfl }

/-- Taking an error records its code with ERR (R25, R256). -/
theorem Inv.raiseError {s : State} (h : Inv s) {c : ErrCode} (hc : c ≠ .none) : Inv (raiseError c s) :=
  { h with
    errors := ⟨fun herr => Bool.noConfusion herr, fun hcode => absurd hcode hc⟩
    idleInReset := fun _ => rfl }

/-- The code a check phase finds is one of its list. -/
theorem mem_of_firstError {l : List (Bool × ErrCode)} {c : ErrCode} (h : firstError l = some c) :
    c ∈ l.map Prod.snd := by
  obtain ⟨before, after, rfl, -⟩ := firstError_eq_some.1 h
  simp

/-- A command ends only with an error that R253 lists for it. -/
theorem checkPhase_mem_errorsOf {i : Instr} {s : State} {c : ErrCode} (h : checkPhase i s = some c) :
    c ∈ errorsOf i := by
  cases i with
  | nop | sreset | pkFlush | eccLen => cases h
  | _ => exact mem_of_firstError h

/-- No error that R253 lists is the code of no error. -/
theorem ne_none_of_mem_errorsOf {i : Instr} {c : ErrCode} (h : c ∈ errorsOf i) : c ≠ .none := by
  rintro rfl
  revert h
  cases i <;> exact of_decide_eq_false rfl

/-! The commit phases. -/

theorem Inv.resetRegisters {s : State} (h : Inv s) : Inv (resetRegisters s) where
  params := h.params
  memory := h.memory
  packer := packerInv_of_empty rfl rfl
  outCount := .inl rfl
  digits := by simp [State.reset]
  errors := by simp [State.reset]
  steps := Nat.zero_le 37
  streamLen := Nat.zero_le 20000
  idleInReset := fun _ => rfl

/-- A push below the fifth keeps the packer's invariant (R116). -/
theorem Inv.accumulate {s : State} (h : Inv s) (hc : s.cnt.toNat ≤ 3) {v : BitVec 9} (hv : v.toNat ≤ 258) :
    Inv (accumulate v s) :=
  { h with
    packer := packerInv_accumulate h.packer hc hv
    outCount := .inl rfl }

/-- The registers keep base-103 digits through an emission (R112). -/
theorem emit_digits {s : State} (h : ∀ k : Fin 6, s.pkOut[k].toNat ≤ 102) (k : Fin 6) :
    (emit s).pkOut[k].toNat ≤ 102 := by
  by_cases hk : k.val ≤ s.cnt.toNat
  · exact emit_pkOut_digit hk
  · rw [emit_pkOut_of_lt (Nat.lt_of_not_le hk)]
    exact h k

/-- An emission of 1 to 5 values writes a count of 2 to 6 (R41). -/
theorem emit_pkOutNInv {s : State} (h1 : 1 ≤ s.cnt.toNat) (h5 : s.cnt.toNat ≤ 5) : pkOutNInv (emit s) := by
  have := emit_pkOutN h5
  unfold pkOutNInv
  omega

theorem Inv.pushBody {s : State} (h : Inv s) {v : BitVec 9} (hv : v.toNat ≤ 258) : Inv (pushBody v s) := by
  obtain ⟨hle, -⟩ := h.packer
  by_cases hc : s.cnt.toNat ≤ 3
  · rw [pushBody_of_le_three h.packer hc]
    exact h.accumulate hc hv
  · have hfive := accumulate_cnt h.packer v
    rw [pushBody_of_eq_four h.packer (by omega)]
    exact { h with
      packer := emit_packerInv _
      outCount := emit_pkOutNInv (by omega) (by omega)
      digits := emit_digits (s := Machine.accumulate v s) h.digits }

theorem Inv.flushBody {s : State} (h : Inv s) : Inv (flushBody s) := by
  obtain ⟨hle, -⟩ := h.packer
  by_cases hc : s.cnt.toNat = 0
  · rw [flushBody_of_cnt_zero hc]
    exact { h with outCount := .inl rfl }
  · rw [flushBody_of_cnt_ne_zero hc]
    exact { h with
      packer := emit_packerInv s
      outCount := emit_pkOutNInv (by omega) (by omega)
      digits := emit_digits h.digits }

theorem Inv.forceCornersBody {s : State} (h : Inv s) : Inv (forceCornersBody s) := by
  have hwf : Memory.wf (Machine.forceCornersBody s) :=
    foldl_putGrid_wf (corners (gridRows s) (gridCols s)) (fun rc => rc.1 * gridCols s + rc.2) [cellSet] h.memory
  rw [forceCornersBody_frame] at hwf ⊢
  exact { h with memory := hwf }

/-- What differs in what candidates write meets the invariant when its buffers, RS_STEP and STREAM_LEN do. -/
theorem Inv.of_sameButCandidate {s t : State} (h : Inv s) (hs : SameButCandidate s t) (hwf : Memory.wf t)
    (hsteps : t.rsStep.toNat ≤ 37) (hlen : t.streamLen.toNat ≤ 20000) : Inv t := by
  rw [hs] at hwf ⊢
  exact { h with memory := hwf, steps := hsteps, streamLen := hlen }

/-- RS_STEP of a candidate whose stream fits the largest grid (R45, R153). -/
theorem candidateBody_steps_le {s : State} (hfit : minDots (dLen s) (eLen s) ≤ 20000) (m : BitVec 3) :
    (candidateBody m s).rsStep.toNat ≤ 37 := by
  rw [candidateBody_rsStep]
  exact (Nat.mod_le _ _).trans (rsSteps_le (by unfold minDots at hfit; omega))

/-- STREAM_LEN of a candidate whose stream fits the largest grid (R43, R153). -/
theorem candidateBody_len_le {s : State} (hfit : minDots (dLen s) (eLen s) ≤ 20000) (m : BitVec 3) :
    (candidateBody m s).streamLen.toNat ≤ 20000 := by
  rw [candidateBody_streamLen]
  exact (Nat.mod_le _ _).trans hfit

theorem Inv.candidateBody {s : State} (h : Inv s) (hfit : minDots (dLen s) (eLen s) ≤ 20000) (m : BitVec 3) :
    Inv (candidateBody m s) :=
  h.of_sameButCandidate (candidateBody_same m s) (candidateBody_wf h.memory m) (candidateBody_steps_le hfit m)
    (candidateBody_len_le hfit m)

theorem Inv.chosen {s : State} (h : Inv s) (hfit : minDots (dLen s) (eLen s) ≤ 20000) : Inv (chosen s).2 := by
  obtain ⟨m, u, hu, hchosen⟩ := chosen_eq_candidateBody s
  obtain ⟨hd, he⟩ := hu.lengths
  rw [← hd, ← he] at hfit
  refine h.of_sameButCandidate (chosen_same s) (chosen_wf h.memory) ?_ ?_ <;> rw [hchosen]
  · exact candidateBody_steps_le hfit m
  · exact candidateBody_len_le hfit m

theorem Inv.selectBody {s : State} (h : Inv s) (hfit : minDots (dLen s) (eLen s) ≤ 20000) : Inv (selectBody s) :=
  have hcleared : Inv { s with msValid := 0, msRej := 0 } := { h with }
  { hcleared.chosen hfit with }

/-- A stream that fits a legal grid fits STREAM (R7, R254). -/
theorem minDots_le_of_fits {s : State} (hgeom : badGeom s = false) (hstream : streamTooLong s = false) :
    minDots (dLen s) (eLen s) ≤ 20000 := by
  obtain ⟨-, hcapacity, -⟩ := geom_area (by simpa [badGeom] using hgeom)
  exact (Nat.le_of_not_lt (decide_eq_false_iff_not.1 hstream)).trans hcapacity

/-- CANDIDATE's checks, which are SELECT's, leave a stream that fits STREAM (R153). -/
theorem minDots_le_of_candidateCheck {s : State} (h : candidateCheck s = none) :
    minDots (dLen s) (eLen s) ≤ 20000 := by
  have hchecks := firstError_eq_none.1 h
  simp only [List.forall_mem_cons, Bool.or_eq_false_iff] at hchecks
  obtain ⟨hgeom, ⟨hstream, -⟩, -⟩ := hchecks
  exact minDots_le_of_fits hgeom hstream

/-- RUN's SELECT finds a stream that fits STREAM: the size holds the stream and PAD fills no more than it (R233). -/
theorem Inv.runBody {s : State} (h : Inv s) (hcheck : runCheck s = none) : Inv (runBody s) := by
  have hsize : ∀ c ∈ sizeErrors s.params (dLen s) (runEcc s) s.widthReq.toNat, c.1 = false :=
    fun c hc => firstError_eq_none.1 hcheck c (List.mem_append_left _ hc)
  obtain ⟨hholds, hlimit⟩ := dotCapacity_setSize (s := eccLenBody s) h.params hsize
  generalize hu : setSize (sizeFor s.params (dLen s) (runEcc s) s.widthReq.toNat) (eccLenBody s) = u
  have hinv : Inv u := by rw [← hu]; exact { h with }
  have hfit : minDots (dLen u) (eLen u) ≤ dotCapacity u := by
    have hd : dLen u = dLen s := by rw [← hu]; rfl
    have he : eLen u ≤ runEcc s := by rw [← hu]; exact Nat.mod_le _ _
    rw [← hu] at hd he ⊢
    exact le_trans (by unfold minDots; omega) hholds
  have hpad : Inv (padBody u) := { hinv with memory := padBody_wf hinv.memory }
  have hcapacity : dotCapacity u ≤ 20000 := by rw [← hu]; exact hlimit
  unfold Machine.runBody
  rw [hu]
  exact hpad.selectBody ((minDots_padBody_le hfit).trans hcapacity)

/-- Every commit phase keeps the invariant when its check phase found nothing. -/
theorem Inv.commitPhase {s : State} (h : Inv s) {i : Instr} (hcheck : checkPhase i s = none) :
    Inv (commitPhase i s) := by
  cases i with
  | nop => exact h
  | sreset => exact h.resetRegisters
  | pkPush v =>
    have hv : ¬ 258 < v.toNat := by simpa using firstError_eq_none.1 hcheck
    exact h.pushBody (Nat.le_of_not_lt hv)
  | pkFlush => exact h.flushBody
  | dotLookup idx => exact { h with }
  | rsEncode nd nc =>
    have hchecks := firstError_eq_none.1 hcheck
    simp only [List.forall_mem_cons, decide_eq_false_iff_not] at hchecks
    obtain ⟨hdepth, -⟩ := hchecks
    exact { h with memory := rsBody_wf h.memory _ _, steps := rsBody_rsStep_le (Nat.le_of_not_lt hdepth) s }
  | maskApply m => exact { h with memory := maskBody_wf h.memory _ }
  | candidate m => exact h.candidateBody (minDots_le_of_candidateCheck hcheck) m
  | score => exact { h with }
  | select => exact h.selectBody (minDots_le_of_candidateCheck hcheck)
  | eccLen => exact { h with }
  | size => exact { h with }
  | pad => exact { h with memory := padBody_wf h.memory }
  | dotStream =>
    have hchecks := firstError_eq_none.1 hcheck
    simp only [List.forall_mem_cons] at hchecks
    obtain ⟨hgeom, hstream, -⟩ := hchecks
    have hlen := dotStreamBody_streamLen_le (minDots_le_of_fits hgeom hstream)
    exact { h with memory := dotStreamBody_wf h.memory, streamLen := hlen }
  | fold => exact { h with memory := foldBody_wf h.memory }
  | forceCorners => exact h.forceCornersBody
  | run => exact h.runBody hcheck

/-- No commit phase changes the parameters, SRESET's included (R100). -/
theorem commitPhase_params (i : Instr) (s : State) : (commitPhase i s).params = s.params := by
  by_cases hi : i = .sreset
  · rw [hi]
    rfl
  · rw [commitPhase_frame hi s]

/-! The turns. -/

/-- The state meets the invariant and has the given parameters. -/
def InvWith (p : Config.Params) (t : State) : Prop := Inv t ∧ t.params = p

/-- A step or a move answers a next state that meets the invariant with the given parameters. -/
def AnswersInv (p : Config.Params) (o : Host.Outcome State Fault Refusal) : Prop := ∃ t, o = .next t ∧ InvWith p t

theorem exec_answersInv (i : Instr) {s : State} (h : Inv s) : AnswersInv s.params (exec i s) := by
  obtain ⟨t, ht⟩ := exec_next i s
  refine ⟨t, ht, ?_⟩
  obtain ⟨hcheck, rfl⟩ | ⟨c, hcheck, rfl⟩ := exec_eq_next.1 ht
  · exact ⟨(h.commitPhase hcheck).complete, commitPhase_params i s⟩
  · exact ⟨h.raiseError (ne_none_of_mem_errorsOf (checkPhase_mem_errorsOf hcheck)), rfl⟩

theorem engineTurn_answersInv {s : State} (h : Inv s) : AnswersInv s.params (engineTurn s) := by
  unfold engineTurn
  split
  · exact ⟨s, rfl, h, rfl⟩
  · split
    · exact ⟨s, rfl, h, rfl⟩
    · split
      · exact exec_answersInv _ h
      · exact ⟨_, rfl, h.raiseError (by decide), rfl⟩

/-- A host write to a register outside reset keeps the invariant: of its fields the write reaches only ERR with ERRCODE,
and the pending command. -/
theorem writeReg_invWith {s : State} (h : Inv s) (hr : s.inReset = false) (v : Word) (r : Reg) :
    InvWith s.params (writeReg s v r) := by
  cases r with
  | status =>
    refine ⟨{ h with errors := ?_ }, rfl⟩
    show (s.err && !v.getLsbD 2) = false ↔ (if v.getLsbD 2 then ErrCode.none else s.errCode) = .none
    cases v.getLsbD 2 <;> simp [h.errors]
  | cmd => exact ⟨{ h with idleInReset := fun hreset => absurd (hr.symm.trans hreset) Bool.false_ne_true }, rfl⟩
  | _ => exact ⟨{ h with }, rfl⟩

theorem writePlace_invWith {s : State} (h : Inv s) (hr : s.inReset = false) (v : Word) (p : Place) :
    InvWith s.params (writePlace s v p) := by
  cases p with
  | reg r => exact writeReg_invWith h hr v r
  | entry b i =>
    have hwf := putEntry_wf h.memory b i v
    show InvWith s.params (putEntry s b i v)
    rw [putEntry_frame] at hwf ⊢
    exact ⟨{ h with memory := hwf }, rfl⟩

/-- The answer to a transaction is the model's own and no part of the invariant (log 17). -/
theorem InvWith.response {p : Config.Params} {s : State} (h : InvWith p s) (a : Option Response) :
    InvWith p { s with response := a } := by
  obtain ⟨hinv, hparams⟩ := h
  exact ⟨{ hinv with }, hparams⟩

theorem busTransaction_invWith (x : Txn) {s : State} (h : Inv s) : InvWith s.params (busTransaction x s) := by
  obtain ⟨-, hx⟩ | ⟨-, -, hx⟩ | ⟨p, -, -, -, hx⟩ | ⟨p, v, hr, -, -, hx⟩ := busTransaction_cases x s <;> rw [hx]
  · exact ⟨{ h with }, rfl⟩
  · exact ⟨{ h with }, rfl⟩
  · unfold busRead
    split <;> exact ⟨{ h with }, rfl⟩
  · unfold busWrite
    split
    · exact ⟨{ h with }, rfl⟩
    · exact (writePlace_invWith h hr v p).response _

theorem Inv.assertReset {s : State} (h : Inv s) : Inv (assertReset s) :=
  { h.resetRegisters with memory := assertReset_memory_wf s, idleInReset := fun _ => rfl }

theorem Inv.releaseReset {s : State} (h : Inv s) : Inv (releaseReset s) :=
  { h with idleInReset := fun hreset => absurd hreset Bool.false_ne_true }

/-- Settles O60: by the turn the step takes, which is an engine move, a host transaction, both, or a reset edge. -/
theorem everyStepKeepsTheInvariant : Obligations.EveryStepKeepsTheInvariant := by
  intro s h
  have taken : ∀ rest, Inv { s with turns := rest } := fun rest => { h with }
  unfold step
  split
  case h_1 => exact engineTurn_answersInv h
  case h_2 rest _ => exact engineTurn_answersInv (taken rest)
  case h_3 x rest _ => exact ⟨_, rfl, busTransaction_invWith x (taken rest)⟩
  case h_4 x rest _ =>
    obtain ⟨hinv, hparams⟩ := busTransaction_invWith x (taken rest)
    have hanswer := engineTurn_answersInv hinv
    rwa [hparams] at hanswer
  case h_5 rest _ =>
    unfold waitTurn
    split
    · exact engineTurn_answersInv h
    · exact ⟨_, rfl, busTransaction_invWith statusRead (taken rest)⟩
  case h_6 rest _ => exact ⟨_, rfl, (taken rest).assertReset, rfl⟩
  case h_7 rest _ => exact ⟨_, rfl, (taken rest).releaseReset, rfl⟩

end Sys2Proof.Machine

/-! Polynomials over GF(113) as coefficient lists, highest order first, and their values (R133, R135, R138): the generator
is the product of its linear factors, and a division step changes the remainder's value at a root by the word shifted in. -/

namespace Sys2Proof.Machine

open Fin.CommRing

theorem hornerAt_append_singleton (r : GF) (cs : List GF) (c : GF) :
    hornerAt r (cs ++ [c]) = hornerAt r cs * r + c :=
  List.foldl_append

theorem hornerAt_append (r : GF) (cs ds : List GF) :
    hornerAt r (cs ++ ds) = hornerAt r cs * r ^ ds.length + hornerAt r ds := by
  induction ds using List.reverseRecOn with
  | nil => simp [hornerAt]
  | append_singleton ds d ih =>
    rw [← List.append_assoc, hornerAt_append_singleton, ih, hornerAt_append_singleton, List.length_append,
      List.length_singleton]
    ring

theorem hornerAt_cons (r c : GF) (cs : List GF) : hornerAt r (c :: cs) = c * r ^ cs.length + hornerAt r cs := by
  have hsingle : hornerAt r [c] = c := by simp [hornerAt]
  rw [← List.singleton_append, hornerAt_append, hsingle]

theorem hornerAt_replicate_zero (r : GF) (n : Nat) : hornerAt r (List.replicate n 0) = 0 := by
  induction n with
  | zero => rfl
  | succ n ih => rw [List.replicate_succ, hornerAt_cons, ih, zero_mul, zero_add]

theorem hornerAt_map_neg (r : GF) (cs : List GF) : hornerAt r (cs.map fun a => -a) = -hornerAt r cs := by
  induction cs with
  | nil => simp [hornerAt]
  | cons c cs ih =>
    rw [List.map_cons, hornerAt_cons, hornerAt_cons, ih, List.length_map]
    ring

/-- The value of a difference of polynomials, the second one scaled. -/
theorem hornerAt_zipWith_sub (r k : GF) : ∀ {as bs : List GF}, as.length = bs.length →
    hornerAt r (List.zipWith (fun a b => a - k * b) as bs) = hornerAt r as - k * hornerAt r bs
  | [], [], _ => by simp [hornerAt]
  | a :: as, b :: bs, h => by
    have hlen : as.length = bs.length := Nat.succ.inj h
    rw [List.zipWith_cons_cons, hornerAt_cons, hornerAt_cons, hornerAt_cons, hornerAt_zipWith_sub r k hlen,
      List.length_zipWith, hlen, Nat.min_self]
    ring

/-- One round of the convolution where the last coefficient is still 0: `h` times `x` less `root` times `h` (R133). -/
theorem convolve_append_zero (root : GF) (h : List GF) :
    convolve root (h ++ [0]) = List.zipWith (fun a b => a - root * b) (h ++ [0]) (0 :: h) := by
  have hzip := List.zipWith_append (f := fun a b : GF => a - root * b) (l₁ := h ++ [0]) (l₁' := [])
    (l₂ := 0 :: h) (l₂' := [0]) (by simp)
  simpa [convolve] using hzip

/-- Such a round multiplies the polynomial by `x - root` (R133). -/
theorem hornerAt_convolve (x root : GF) (h : List GF) :
    hornerAt x (convolve root (h ++ [0])) = hornerAt x h * (x - root) := by
  rw [convolve_append_zero, hornerAt_zipWith_sub x root (by simp), hornerAt_append_singleton, hornerAt_cons]
  ring

/-- A round of the convolution reaches one place into the zeros that follow the coefficients computed so far. -/
theorem convolve_append_zeros (root : GF) (h : List GF) (n : Nat) :
    convolve root (h ++ List.replicate (n + 1) 0) = convolve root (h ++ [0]) ++ List.replicate n 0 := by
  have hzip := List.zipWith_append (f := fun a b : GF => a - root * b) (l₁ := h ++ [0]) (l₁' := List.replicate n 0)
    (l₂ := 0 :: h) (l₂' := List.replicate (n + 1) 0) (by simp)
  have hzeros : List.zipWith (fun a b : GF => a - root * b) (List.replicate n 0) (List.replicate (n + 1) 0) =
      List.replicate n 0 := by simp
  rw [hzeros, ← convolve_append_zero] at hzip
  simpa [convolve, List.replicate_succ] using hzip

/-- The coefficients `1 :: tail` are those of the product of the first `j` linear factors of the generator (R133). -/
def IsFactorProduct (p : Config.Params) (j : Nat) (tail : List GF) : Prop :=
  tail.length = j ∧ ∀ x, hornerAt x (1 :: tail) = ∏ t ∈ Finset.range j, (x - genRoot p t)

theorem IsFactorProduct.convolve {p : Config.Params} {j : Nat} {tail : List GF} (h : IsFactorProduct p j tail) :
    ∃ grown, Machine.convolve (genRoot p j) ((1 :: tail) ++ [0]) = 1 :: grown ∧ IsFactorProduct p (j + 1) grown := by
  obtain ⟨hlen, hvalue⟩ := h
  have hhead : ∃ grown, Machine.convolve (genRoot p j) ((1 :: tail) ++ [0]) = 1 :: grown ∧ grown.length = j + 1 := by
    simp [Machine.convolve, hlen]
  obtain ⟨grown, hround, hlen'⟩ := hhead
  refine ⟨grown, hround, hlen', fun x => ?_⟩
  rw [← hround, hornerAt_convolve, hvalue, Finset.prod_range_succ]

/-- After `j` rounds of the convolution: the product of the first `j` factors, followed by the zeros not yet reached. -/
theorem foldl_convolve (p : Config.Params) {nc j : Nat} (hj : j ≤ nc) :
    ∃ tail, IsFactorProduct p j tail ∧
      (List.range j).foldl (fun g t => convolve (genRoot p t) g) (1 :: List.replicate nc 0) =
        (1 :: tail) ++ List.replicate (nc - j) 0 := by
  induction j with
  | zero => exact ⟨[], ⟨rfl, fun x => by simp [hornerAt]⟩, rfl⟩
  | succ j ih =>
    obtain ⟨tail, htail, hfold⟩ := ih (Nat.le_of_succ_le hj)
    obtain ⟨grown, hround, hproduct⟩ := htail.convolve
    have hzeros : nc - j = nc - (j + 1) + 1 := by omega
    refine ⟨grown, hproduct, ?_⟩
    rw [List.range_succ, List.foldl_append, hfold, List.foldl_cons, List.foldl_nil, hzeros, convolve_append_zeros, hround]

/-- The generator polynomial is the product of its linear factors (R133). -/
theorem genPoly_eq (p : Config.Params) (nc : Nat) : ∃ tail, genPoly p nc = 1 :: tail ∧ IsFactorProduct p nc tail := by
  obtain ⟨tail, htail, hfold⟩ := foldl_convolve p (Nat.le_refl nc)
  exact ⟨tail, by simpa [genPoly] using hfold, htail⟩

theorem IsFactorProduct.vanishes {p : Config.Params} {nc k : Nat} {tail : List GF} (h : IsFactorProduct p nc tail)
    (hk : k < nc) : hornerAt (genRoot p k) (1 :: tail) = 0 := by
  obtain ⟨-, hvalue⟩ := h
  rw [hvalue]
  exact Finset.prod_eq_zero (Finset.mem_range.2 hk) (sub_self _)

theorem divideStep_length {g e : List GF} {n : Nat} (hg : g.length = n + 1) (he : e.length = n) (x : GF) :
    (divideStep g e x).length = n := by
  simp only [divideStep, List.length_zipWith, List.length_append, List.length_tail, List.length_singleton, hg, he]
  omega

/-- A division step keeps the remainder's value at a root of the divisor, up to the shift (R135). -/
theorem hornerAt_divideStep {r : GF} {tail e : List GF} (hroot : hornerAt r (1 :: tail) = 0)
    (hlen : e.length = tail.length) (hpos : 0 < tail.length) (x : GF) :
    hornerAt r (divideStep (1 :: tail) e x) = hornerAt r e * r + x * r ^ tail.length := by
  obtain ⟨a, e, rfl⟩ := List.exists_cons_of_length_pos (hlen ▸ hpos)
  have hstep : divideStep (1 :: tail) (a :: e) x =
      List.zipWith (fun c b => c - (x + a) * b) (e ++ [0]) tail := by
    simp [divideStep, mul_comm]
  have htail : hornerAt r tail = -r ^ tail.length := by
    rw [hornerAt_cons, one_mul, add_comm] at hroot
    exact eq_neg_of_add_eq_zero_left hroot
  have hshift : e.length + 1 = tail.length := hlen
  rw [hstep, hornerAt_zipWith_sub r _ (by simpa using hlen), hornerAt_append_singleton, hornerAt_cons, htail, ← hshift]
  ring

theorem foldl_divideStep_length {g : List GF} {n : Nat} (hg : g.length = n + 1) (data : List GF) :
    (data.foldl (divideStep g) (List.replicate n 0)).length = n := by
  induction data using List.reverseRecOn with
  | nil => exact List.length_replicate
  | append_singleton data x ih =>
    rw [List.foldl_append]
    exact divideStep_length hg ih x

/-- At a root of the divisor the remainder has the value of the data polynomial times `x ^ n` (R135). -/
theorem hornerAt_foldl_divideStep {r : GF} {tail : List GF} (hroot : hornerAt r (1 :: tail) = 0)
    (hpos : 0 < tail.length) (data : List GF) :
    hornerAt r (data.foldl (divideStep (1 :: tail)) (List.replicate tail.length 0)) =
      hornerAt r data * r ^ tail.length := by
  induction data using List.reverseRecOn with
  | nil => rw [List.foldl_nil, hornerAt_replicate_zero, hornerAt, List.foldl_nil, zero_mul]
  | append_singleton data x ih =>
    rw [List.foldl_append, List.foldl_cons, List.foldl_nil,
      hornerAt_divideStep hroot (foldl_divideStep_length List.length_cons data) hpos, ih, hornerAt_append_singleton]
    ring

theorem genPoly_length (p : Config.Params) (nc : Nat) : (genPoly p nc).length = nc + 1 := by
  obtain ⟨tail, hgen, hlen, -⟩ := genPoly_eq p nc
  rw [hgen, List.length_cons, hlen]

theorem blockChecks_length (p : Config.Params) (nc : Nat) (data : List GF) : (blockChecks p nc data).length = nc := by
  rw [blockChecks, List.length_map]
  exact foldl_divideStep_length (genPoly_length p nc) data

/-- A block's data words followed by its check words vanish at every root of the generator (R138). -/
theorem hornerAt_append_blockChecks (p : Config.Params) {nc k : Nat} (hk : k < nc) (data : List GF) :
    hornerAt (genRoot p k) (data ++ blockChecks p nc data) = 0 := by
  obtain ⟨tail, hgen, hproduct⟩ := genPoly_eq p nc
  have hroot := hproduct.vanishes hk
  obtain ⟨rfl, -⟩ := hproduct
  have hremainder := hornerAt_foldl_divideStep hroot (Nat.zero_lt_of_lt hk) data
  rw [hornerAt_append, blockChecks_length, blockChecks, hgen, hornerAt_map_neg, hremainder, add_neg_cancel]

/-! Linearity of the division (R139). -/

theorem getD_zipWith_add {as bs : List GF} (h : as.length = bs.length) (j : Nat) :
    (List.zipWith (· + ·) as bs).getD j 0 = as.getD j 0 + bs.getD j 0 := by
  rcases Nat.lt_or_ge j bs.length with hj | hj <;> simp [h, hj]

theorem zipWith_sub_mul_add (k l : GF) : ∀ as bs g : List GF,
    List.zipWith (fun a b => a - b * (k + l)) (List.zipWith (· + ·) as bs) g =
      List.zipWith (· + ·) (List.zipWith (fun a b => a - b * k) as g) (List.zipWith (fun a b => a - b * l) bs g)
  | [], _, _ => by simp
  | _ :: _, [], _ => by simp
  | _ :: _, _ :: _, [] => by simp
  | a :: as, b :: bs, c :: g => by
    simp only [List.zipWith_cons_cons, zipWith_sub_mul_add k l as bs g, List.cons.injEq, and_true]
    ring

theorem divideStep_add (g : List GF) {e f : List GF} (h : e.length = f.length) (x y : GF) :
    divideStep g (List.zipWith (· + ·) e f) (x + y) =
      List.zipWith (· + ·) (divideStep g e x) (divideStep g f y) := by
  have hhead : (List.zipWith (· + ·) e f).headD 0 = e.headD 0 + f.headD 0 := by
    cases e <;> cases f <;> simp_all
  have htail : (List.zipWith (· + ·) e f).tail ++ [0] = List.zipWith (· + ·) (e.tail ++ [0]) (f.tail ++ [0]) := by
    rw [List.zipWith_append (by simp [h]), List.tail_zipWith]
    rfl
  simp only [divideStep, hhead, htail]
  rw [add_add_add_comm, zipWith_sub_mul_add]

theorem foldl_divideStep_add {g : List GF} {n : Nat} (hg : g.length = n + 1) :
    ∀ {xs ys e f : List GF}, xs.length = ys.length → e.length = n → f.length = n →
      (List.zipWith (· + ·) xs ys).foldl (divideStep g) (List.zipWith (· + ·) e f) =
        List.zipWith (· + ·) (xs.foldl (divideStep g) e) (ys.foldl (divideStep g) f)
  | [], [], _, _, _, _, _ => rfl
  | x :: xs, y :: ys, e, f, h, he, hf => by
    rw [List.zipWith_cons_cons, List.foldl_cons, divideStep_add g (he.trans hf.symm)]
    exact foldl_divideStep_add hg (Nat.succ.inj h) (divideStep_length hg he x) (divideStep_length hg hf y)

/-- The check words of the sum of two blocks are the sums of their check words (R139). -/
theorem blockChecks_add (p : Config.Params) (nc : Nat) {xs ys : List GF} (h : xs.length = ys.length) :
    blockChecks p nc (List.zipWith (· + ·) xs ys) =
      List.zipWith (· + ·) (blockChecks p nc xs) (blockChecks p nc ys) := by
  have hzero : List.replicate nc (0 : GF) = List.zipWith (· + ·) (List.replicate nc 0) (List.replicate nc 0) := by
    simp
  have hlen : (List.replicate nc (0 : GF)).length = nc := List.length_replicate
  have hfold := foldl_divideStep_add (genPoly_length p nc) h hlen hlen
  rw [← hzero] at hfold
  rw [blockChecks, hfold, List.map_zipWith, blockChecks, blockChecks, List.zipWith_map]
  simp only [neg_add]

end Sys2Proof.Machine

/-! What RS_ENCODE leaves in WORK (R134, R136): each check word's place, block and value. -/

namespace Sys2Proof.Machine

theorem ofGF_toNat (a : GF) : (ofGF a).toNat = a.val :=
  Nat.mod_eq_of_lt (a.isLt.trans (by decide))

theorem toGF_ofGF (a : GF) : toGF (ofGF a) = a :=
  Fin.ext ((congrArg (· % 113) (ofGF_toNat a)).trans (Nat.mod_eq_of_lt a.isLt))

/-- The positions of block `b` below `n` are those of its first `blockShare n step b` words (R134). -/
theorem lt_blockShare_iff {n step b i : Nat} (hb : b < step) : i < blockShare n step b ↔ b + i * step < n := by
  rw [blockShare, ← Nat.succ_le_iff, Nat.le_div_iff_mul_le (Nat.zero_lt_of_lt hb), Nat.succ_mul]
  omega

theorem blockShare_mono {m n step b : Nat} (h : m ≤ n) : blockShare m step b ≤ blockShare n step b :=
  Nat.div_le_div_right (by omega)

/-- The check words of block `b` (R134, R135). -/
def blockCheckWords (s : State) (nd nc b : Nat) : List GF :=
  blockChecks s.params (blockShare (nd + nc) (rsSteps (nd + nc)) b - blockShare nd (rsSteps (nd + nc)) b)
    (blockData s nd (rsSteps (nd + nc)) b)

/-- The check word of position `q` (R134). -/
def checkWord (s : State) (nd nc q : Nat) : GF :=
  (blockCheckWords s nd nc (q % rsSteps (nd + nc))).getD
    (q / rsSteps (nd + nc) - blockShare nd (rsSteps (nd + nc)) (q % rsSteps (nd + nc))) 0

theorem rsSteps_pos {n : Nat} (h : 0 < n) : 0 < rsSteps n :=
  Nat.div_pos (show 112 ≤ n + 111 by omega) (by decide)

theorem wovenChecks_length (s : State) (nd nc : Nat) : (wovenChecks s nd nc).length = nc := by
  simp [wovenChecks]

theorem wovenChecks_getD (s : State) {nd nc t : Nat} (ht : t < nc) :
    (wovenChecks s nd nc).getD t 0 = ofGF (checkWord s nd nc (nd + t)) := by
  have hblock : (nd + t) % rsSteps (nd + nc) < rsSteps (nd + nc) := Nat.mod_lt _ (rsSteps_pos (by omega))
  simp [wovenChecks, allChecks, checkWord, blockCheckWords, ht, hblock]

/-- WORK after the commit phase: the check words at `nd .. nd + nc - 1`, and every other entry as it was (R136). -/
theorem workAt_rsBody {nd nc : Nat} (hfit : nd + nc ≤ 4096) (s : State) (i : Nat) :
    workAt (rsBody nd nc s) i = if nd ≤ i ∧ i < nd + nc then ofGF (checkWord s nd nc i) else workAt s i := by
  have hlen := wovenChecks_length s nd nc
  have hput := workAt_putWork s nd (wovenChecks s nd nc) i (by rw [hlen]; exact hfit)
  rw [hlen] at hput
  refine Eq.trans hput (if_ctx_congr Iff.rfl (fun ⟨hlow, hhigh⟩ => ?_) fun _ => rfl)
  rw [wovenChecks_getD s (by omega), Nat.add_sub_cancel' hlow]

theorem workAt_rsBody_check {nd nc i : Nat} (hfit : nd + nc ≤ 4096) (s : State) (h1 : nd ≤ i) (h2 : i < nd + nc) :
    workAt (rsBody nd nc s) i = ofGF (checkWord s nd nc i) :=
  (workAt_rsBody hfit s i).trans (if_pos ⟨h1, h2⟩)

theorem workAt_rsBody_le {nd nc i : Nat} (hfit : nd + nc ≤ 4096) (s : State) (h1 : nd ≤ i) (h2 : i < nd + nc) :
    (workAt (rsBody nd nc s) i).toNat ≤ 112 := by
  rw [workAt_rsBody_check hfit s h1 h2, ofGF_toNat]
  exact Nat.le_of_lt_succ (Fin.isLt _)

theorem workAt_rsBody_other {nd nc i : Nat} (hfit : nd + nc ≤ 4096) (s : State) (h : i < nd ∨ nd + nc ≤ i) :
    workAt (rsBody nd nc s) i = workAt s i :=
  (workAt_rsBody hfit s i).trans (if_neg (by omega))

theorem rsBody_rsStep {nd nc : Nat} (hfit : nd + nc ≤ 4096) (s : State) :
    (rsBody nd nc s).rsStep.toNat = rsSteps (nd + nc) :=
  Nat.mod_eq_of_lt (Nat.lt_of_le_of_lt (rsSteps_le hfit) (by decide))

/-- With operands that fit WORK and data words in range RS_ENCODE commits (R136). -/
theorem exec_rsEncode {nd nc : BitVec 12} {s : State} (hfit : nd.toNat + nc.toNat ≤ 4096)
    (hdata : ∀ i < nd.toNat, (workAt s i).toNat ≤ 112) :
    exec (.rsEncode nd nc) s = .next (complete (rsBody nd.toNat nc.toNat s)) := by
  have hlen : decide (depth .work < nd.toNat + nc.toNat) = false := decide_eq_false (Nat.not_lt.2 hfit)
  have hrange : anyAbove (workWords s nd.toNat) = false := List.any_eq_false.2 fun c hc => by
    obtain ⟨i, hi, rfl⟩ := List.mem_map.1 hc
    exact fun habove => absurd (of_decide_eq_true habove) (Nat.not_lt.2 (hdata i (List.mem_range.1 hi)))
  refine exec_eq_next.2 (.inl ⟨firstError_eq_none.2 ?_, rfl⟩)
  simp [hlen, hrange]

theorem blockCheckWords_length (s : State) (nd nc b : Nat) : (blockCheckWords s nd nc b).length =
    blockShare (nd + nc) (rsSteps (nd + nc)) b - blockShare nd (rsSteps (nd + nc)) b :=
  blockChecks_length _ _ _

/-- After its data words, block `b` has its check words in order (R134). -/
theorem checkWord_position {s : State} {nd nc step b : Nat} (hstep : rsSteps (nd + nc) = step) (hb : b < step) (j : Nat) :
    checkWord s nd nc (b + (blockShare nd step b + j) * step) = (blockCheckWords s nd nc b).getD j 0 := by
  have hblock : (b + (blockShare nd step b + j) * step) % step = b := by
    rw [Nat.add_mul_mod_self_right, Nat.mod_eq_of_lt hb]
  have hindex : (b + (blockShare nd step b + j) * step) / step = blockShare nd step b + j := by
    rw [Nat.add_mul_div_right _ _ (Nat.zero_lt_of_lt hb), Nat.div_eq_of_lt hb, Nat.zero_add]
  rw [checkWord, hstep, hblock, hindex, Nat.add_sub_cancel_left]

/-- The words of block `b` after RS_ENCODE: its data words and its check words (R134). -/
theorem blockData_rsBody {nd nc b : Nat} (hfit : nd + nc ≤ 4096) (s : State) (hb : b < rsSteps (nd + nc)) :
    blockData (rsBody nd nc s) (nd + nc) (rsSteps (nd + nc)) b =
      blockData s nd (rsSteps (nd + nc)) b ++ blockCheckWords s nd nc b := by
  have hlen := blockCheckWords_length s nd nc b
  generalize hstep : rsSteps (nd + nc) = step at hb hlen ⊢
  have hshare : blockShare (nd + nc) step b = blockShare nd step b + (blockCheckWords s nd nc b).length := by
    have := blockShare_mono (step := step) (b := b) (Nat.le_add_right nd nc)
    omega
  have hdata : ∀ i ∈ List.range (blockShare nd step b),
      toGF (workAt (rsBody nd nc s) (b + i * step)) = toGF (workAt s (b + i * step)) := fun i hi => by
    rw [workAt_rsBody_other hfit s (.inl ((lt_blockShare_iff hb).1 (List.mem_range.1 hi)))]
  have hcheck : ∀ j ∈ List.range (blockCheckWords s nd nc b).length,
      toGF (workAt (rsBody nd nc s) (b + (blockShare nd step b + j) * step)) = (blockCheckWords s nd nc b).getD j 0 :=
    fun j hj => by
    have habove : nd ≤ b + (blockShare nd step b + j) * step :=
      Nat.le_of_not_lt (mt (lt_blockShare_iff hb).2 (by omega))
    have hbelow : b + (blockShare nd step b + j) * step < nd + nc :=
      (lt_blockShare_iff hb).1 (by have := List.mem_range.1 hj; omega)
    rw [workAt_rsBody_check hfit s habove hbelow, toGF_ofGF, checkWord_position hstep hb]
  rw [blockData, hshare, List.range_add, List.map_append, List.map_map, List.map_congr_left hdata]
  refine congrArg (blockData s nd step b ++ ·) ((List.map_congr_left hcheck).trans ?_)
  exact List.ext_getElem (by simp) fun j h1 h2 => by simp [h2]

/-- The check words of a state whose data words are the sums of those of two states (R139). -/
theorem checkWord_add {nd nc q : Nat} {r s u : State} (hq : q < nd + nc) (hr : r.params = s.params)
    (hu : u.params = s.params)
    (hsum : ∀ i < nd, toGF (workAt u i) = toGF (workAt r i) + toGF (workAt s i)) :
    checkWord u nd nc q = checkWord r nd nc q + checkWord s nd nc q := by
  have hblock : q % rsSteps (nd + nc) < rsSteps (nd + nc) := Nat.mod_lt _ (rsSteps_pos (Nat.zero_lt_of_lt hq))
  unfold checkWord
  generalize q % rsSteps (nd + nc) = b at hblock ⊢
  have hdata : blockData u nd (rsSteps (nd + nc)) b = List.zipWith (· + ·)
      (blockData r nd (rsSteps (nd + nc)) b) (blockData s nd (rsSteps (nd + nc)) b) := by
    simp only [blockData, List.zipWith_map, List.zipWith_self]
    exact List.map_congr_left fun i hi => hsum _ ((lt_blockShare_iff hblock).1 (List.mem_range.1 hi))
  have hchecks : blockCheckWords u nd nc b =
      List.zipWith (· + ·) (blockCheckWords r nd nc b) (blockCheckWords s nd nc b) := by
    rw [blockCheckWords, hdata, hu, blockChecks_add _ _ (by simp [blockData]), blockCheckWords, blockCheckWords, hr]
  have hlen : (blockCheckWords r nd nc b).length = (blockCheckWords s nd nc b).length :=
    (blockCheckWords_length r nd nc b).trans (blockCheckWords_length s nd nc b).symm
  rw [hchecks]
  exact getD_zipWith_add hlen _

end Sys2Proof.Machine

/-! The laws of RS_ENCODE (R136–R139). -/

namespace Sys2Proof.Machine

/-- Settles O17: the words of a block are its data words followed by its check words, a multiple of the generator. -/
theorem rsBlocksVanishAtTheRoots : Obligations.RsBlocksVanishAtTheRoots := by
  rintro nd nc s _ b k hfit hdata rfl hb hk
  refine ⟨_, exec_rsEncode hfit hdata, ?_⟩
  have hroot := hornerAt_append_blockChecks s.params hk (blockData s nd.toNat (rsSteps (nd.toNat + nc.toNat)) b)
  exact (congrArg (hornerAt (genRoot s.params k)) (blockData_rsBody hfit s hb)).trans hroot

/-- The first clause of O18: a sum of data words, position by position, gives the sum of the check words (R139). -/
theorem workAt_rsBody_add {nd nc i : Nat} {r s u : State} (hfit : nd + nc ≤ 4096) (hr : r.params = s.params)
    (hu : u.params = s.params)
    (hsum : ∀ j < nd, (workAt u j).toNat = ((workAt r j).toNat + (workAt s j).toNat) % 113)
    (h1 : nd ≤ i) (h2 : i < nd + nc) :
    (workAt (rsBody nd nc u) i).toNat =
      ((workAt (rsBody nd nc r) i).toNat + (workAt (rsBody nd nc s) i).toNat) % 113 := by
  have hfield : ∀ j < nd, toGF (workAt u j) = toGF (workAt r j) + toGF (workAt s j) := fun j hj =>
    Fin.ext (by simp only [toGF, Fin.val_add, hsum j hj, Nat.mod_mod, Nat.add_mod])
  simp only [workAt_rsBody_check hfit _ h1 h2, ofGF_toNat, checkWord_add h2 hr hu hfield, Fin.val_add]

/-- All-zero data are their own double, so each of their check words is its own double modulo 113, which only 0 is (R139). -/
theorem workAt_rsBody_zero {nd nc i : Nat} {s : State} (hfit : nd + nc ≤ 4096) (hzero : ∀ j < nd, workAt s j = 0)
    (h1 : nd ≤ i) (h2 : i < nd + nc) : workAt (rsBody nd nc s) i = 0 := by
  have hdouble := workAt_rsBody_add (r := s) (s := s) (u := s) hfit rfl rfl (fun j hj => by rw [hzero j hj]; rfl) h1 h2
  have hle := workAt_rsBody_le hfit s h1 h2
  exact BitVec.eq_of_toNat_eq (show _ = 0 by omega)

/-- Settles O18: both clauses are laws of the commit phase, which each of the commands reaches. -/
theorem rsCheckWordsAreLinear : Obligations.RsCheckWordsAreLinear := by
  refine ⟨fun nd nc r s u hfit hr hu hdata => ?_, fun nd nc s hfit hzero => ?_⟩
  · simp only [forall_and] at hdata
    obtain ⟨hdataR, hdataS, hsum⟩ := hdata
    have hdataU : ∀ i < nd.toNat, (workAt u i).toNat ≤ 112 := fun i hi => by
      rw [hsum i hi]
      omega
    exact ⟨_, _, _, exec_rsEncode hfit hdataR, exec_rsEncode hfit hdataS, exec_rsEncode hfit hdataU,
      fun i => workAt_rsBody_add hfit hr hu hsum⟩
  · refine ⟨_, exec_rsEncode hfit fun i hi => ?_, fun i => workAt_rsBody_zero hfit hzero⟩
    rw [hzero i hi]
    decide

/-- Settles O16: the write range and the frame are the commit phase's; with no data word, all data words are 0. -/
theorem rsEncodeIsSystematic : Obligations.RsEncodeIsSystematic := by
  intro nd nc s hfit hdata
  refine ⟨_, exec_rsEncode hfit hdata, fun i hi => ?_, fun i hi => ?_, fun i => ?_, fun hnone i hi => ?_, ?_, ?_⟩
  · exact workAt_rsBody_other hfit s (.inl hi)
  · exact workAt_rsBody_other hfit s hi
  · exact workAt_rsBody_le hfit s
  · exact workAt_rsBody_zero hfit (by simp [hnone]) (by omega) (by omega)
  · exact rsBody_rsStep hfit s
  · rfl

end Sys2Proof.Machine

/-! The scorer (R160–R168) as facts about dots: which cells it samples, the value of an edge, and what a score is made of. -/

namespace Sys2Proof.Machine

/-- The dots of the grid GRID holds (R160, R161). -/
def gridDot (s : State) : Int → Int → Bool := dotAt (gridRows s) (gridCols s) (gridAt s)

theorem dotAt_iff {h w : Nat} {cell : Nat → CellCode} {x y : Int} : dotAt h w cell x y = true ↔
    0 ≤ x ∧ x < w ∧ 0 ≤ y ∧ y < h ∧ cell (y.toNat * w + x.toNat) = 1 := by
  simp only [dotAt, Bool.and_eq_true, decide_eq_true_eq, beq_iff_eq, and_assoc, cellSet]

theorem gridDot_iff {s : State} {x y : Int} : gridDot s x y = true ↔ IsDot s x y := dotAt_iff

/-- At a cell of the grid, a dot is the code 1. -/
theorem gridDot_cell {s : State} {x y : Nat} (hx : x < gridCols s) (hy : y < gridRows s) :
    gridDot s x y = true ↔ gridAt s (y * gridCols s + x) = 1 := by
  simp [gridDot, dotAt_iff, hx, hy]

theorem scoreOf_eq_gridScore (s : State) :
    scoreOf s = gridScore s.params (gridRows s) (gridCols s) (gridDot s) := rfl

/-- Two grids of one size agree on a position where they agree on its cell. -/
theorem gridDot_eq_of_cells {s r : State} (hrows : gridRows s = gridRows r) (hcols : gridCols s = gridCols r) {x y : Int}
    (hcell : ∀ i j : Nat, x = i → y = j → i < gridCols s → j < gridRows s →
      (gridAt s (j * gridCols s + i) = 1 ↔ gridAt r (j * gridCols s + i) = 1)) : gridDot s x y = gridDot r x y := by
  rw [Bool.eq_iff_iff, gridDot_iff, gridDot_iff, IsDot, IsDot, ← hrows, ← hcols]
  refine and_congr_right fun hx => and_congr_right fun hxw => and_congr_right fun hy => and_congr_right fun hyh => ?_
  exact hcell x.toNat y.toNat (by omega) (by omega) (by omega) (by omega)

/-! The edges (R162). -/

theorem mem_edgeSamples {n p q : Nat} : q ∈ edgeSamples n p ↔ q < n ∧ q % 2 = p := by
  simp [edgeSamples]

/-- The sampled positions of one parity, in order (R162). -/
theorem edgeSamples_eq_map {p : Nat} (hp : p < 2) (n : Nat) :
    edgeSamples n p = (List.range ((n + 1 - p) / 2)).map (2 * · + p) := by
  induction n with
  | zero => simp [edgeSamples, show (0 + 1 - p) / 2 = 0 by omega]
  | succ n ih =>
    rw [edgeSamples, List.range_succ, List.filter_append, ← edgeSamples, ih]
    by_cases hn : n % 2 = p
    · rw [show (n + 1 + 1 - p) / 2 = (n + 1 - p) / 2 + 1 by omega, List.range_succ]
      simp [hn]
      omega
    · rw [show (n + 1 + 1 - p) / 2 = (n + 1 - p) / 2 by omega]
      simp [hn]

theorem edgeSamples_length {p : Nat} (hp : p < 2) (n : Nat) : (edgeSamples n p).length = (n + 1 - p) / 2 := by
  simp [edgeSamples_eq_map hp]

/-- The dots of an edge depend on its sampled cells only. -/
theorem edgeDots_congr {n p : Nat} {f g : Nat → Bool} (h : ∀ q < n, q % 2 = p → f q = g q) :
    (edgeSamples n p).filter f = (edgeSamples n p).filter g :=
  List.filter_congr fun q hq => by
    obtain ⟨hn, hp⟩ := mem_edgeSamples.1 hq
    exact h q hn hp

theorem edgeDots_eq_nil {n p : Nat} {f : Nat → Bool} :
    (edgeSamples n p).filter f = [] ↔ ∀ q < n, q % 2 = p → ¬ f q = true := by
  simp only [List.filter_eq_nil_iff, mem_edgeSamples, and_imp]

/-- What an edge with the dots `ps` is worth (R162): their count and their span, scaled. -/
def dotsWorth (ps : List Nat) (k : Nat) : Nat := (ps.length + (ps.getLastD 0 - ps.headD 0)) * k

theorem edgeValue_nil (k : Nat) : edgeValue [] k = none := rfl

theorem edgeValue_of_ne_nil {ps : List Nat} (h : ps ≠ []) (k : Nat) : edgeValue ps k = some (dotsWorth ps k) := by
  cases ps with
  | nil => exact absurd rfl h
  | cons q ps => simp [edgeValue, dotsWorth, List.getLastD_eq_getLast?, List.getLast?_cons]

theorem edgeValue_eq_none {ps : List Nat} {k : Nat} : edgeValue ps k = none ↔ ps = [] := by
  by_cases h : ps = []
  · simp [h, edgeValue_nil]
  · simp [h, edgeValue_of_ne_nil h]

theorem edgeValue_eq_some {ps : List Nat} {k v : Nat} : edgeValue ps k = some v ↔ ps ≠ [] ∧ v = dotsWorth ps k := by
  by_cases h : ps = []
  · simp [h, edgeValue_nil]
  · simp [h, edgeValue_of_ne_nil h, eq_comm]

/-- All sampled cells of an edge are dots (R162): `c` dots with a span of `2 * (c - 1)`. -/
theorem dotsWorth_edgeSamples {n p : Nat} (hp : p < 2) (hn : 2 ≤ n) (k : Nat) :
    dotsWorth (edgeSamples n p) k = (3 * ((n + 1 - p) / 2) - 2) * k := by
  rw [edgeSamples_eq_map hp]
  generalize hc : (n + 1 - p) / 2 = c
  obtain ⟨c, rfl⟩ : ∃ d, c = d + 1 := ⟨c - 1, by omega⟩
  simp only [dotsWorth, List.length_map, List.length_range]
  have hfirst : ((List.range (c + 1)).map (2 * · + p)).headD 0 = p := by simp [List.range_succ_eq_map]
  have hlast : ((List.range (c + 1)).map (2 * · + p)).getLastD 0 = 2 * c + p := by simp [List.range_succ]
  rw [hfirst, hlast]
  congr 1
  omega

/-- The worth of an edge of `n` cells is at most that of all its cells being counted and spanned. -/
theorem dotsWorth_filter_le {n p : Nat} (hp : p < 2) (f : Nat → Bool) (k : Nat) :
    dotsWorth ((edgeSamples n p).filter f) k ≤ ((n + 1) / 2 + (n - 1)) * k := by
  refine Nat.mul_le_mul_right k (Nat.add_le_add ?_ ?_)
  · have hcount := List.length_filter_le f (edgeSamples n p)
    rw [edgeSamples_length hp] at hcount
    omega
  · have hlast : ((edgeSamples n p).filter f).getLastD 0 ≤ n - 1 := by
      rw [List.getLastD_eq_getLast?]
      cases h : ((edgeSamples n p).filter f).getLast? with
      | none => exact Nat.zero_le _
      | some q =>
        have hq := (mem_edgeSamples.1 (List.mem_filter.1 (List.mem_of_getLast? h)).1).1
        exact Nat.le_sub_one_of_lt hq
    exact (Nat.sub_le _ _).trans hlast

theorem worstEdge_eq_none {a b c d : Option Nat} :
    worstEdge [a, b, c, d] = none ↔ a = none ∨ b = none ∨ c = none ∨ d = none := by
  cases a <;> cases b <;> cases c <;> cases d <;> simp [worstEdge]

theorem worstEdge_eq_some {a b c d : Option Nat} {v : Nat} : worstEdge [a, b, c, d] = some v ↔
    ∃ t u l r, a = some t ∧ b = some u ∧ c = some l ∧ d = some r ∧ v = min (min t u) (min l r) := by
  cases a <;> cases b <;> cases c <;> cases d <;> simp [worstEdge, eq_comm]

/-- The dots at the sampled cells of the top edge (R162). -/
def topDots (w : Nat) (dot : Int → Int → Bool) : List Nat := (edgeSamples w 0).filter fun q => dot q 0

/-- The dots at the sampled cells of the bottom edge. -/
def bottomDots (h w : Nat) (dot : Int → Int → Bool) : List Nat :=
  (edgeSamples w (w % 2)).filter fun q => dot q (h - 1)

/-- The dots at the sampled cells of the left edge. -/
def leftDots (h : Nat) (dot : Int → Int → Bool) : List Nat := (edgeSamples h 0).filter fun q => dot 0 q

/-- The dots at the sampled cells of the right edge. -/
def rightDots (h w : Nat) (dot : Int → Int → Bool) : List Nat :=
  (edgeSamples h (h % 2)).filter fun q => dot (w - 1) q

theorem edgeValues_eq (h w : Nat) (dot : Int → Int → Bool) : edgeValues h w dot =
    [edgeValue (topDots w dot) h, edgeValue (bottomDots h w dot) h, edgeValue (leftDots h dot) w,
      edgeValue (rightDots h w dot) w] := rfl

theorem worstEdge_edgeValues_eq_none {h w : Nat} {dot : Int → Int → Bool} :
    worstEdge (edgeValues h w dot) = none ↔
      topDots w dot = [] ∨ bottomDots h w dot = [] ∨ leftDots h dot = [] ∨ rightDots h w dot = [] := by
  simp only [edgeValues_eq, worstEdge_eq_none, edgeValue_eq_none]

/-- The smallest edge value is that of what the edges are worth (R164). -/
theorem eq_of_worstEdge_edgeValues {h w v : Nat} {dot : Int → Int → Bool}
    (hv : worstEdge (edgeValues h w dot) = some v) :
    v = min (min (dotsWorth (topDots w dot) h) (dotsWorth (bottomDots h w dot) h))
      (min (dotsWorth (leftDots h dot) w) (dotsWorth (rightDots h w dot) w)) := by
  obtain ⟨t, u, l, r, ht, hu, hl, hr, rfl⟩ := worstEdge_eq_some.1 hv
  rw [(edgeValue_eq_some.1 ht).2, (edgeValue_eq_some.1 hu).2, (edgeValue_eq_some.1 hl).2, (edgeValue_eq_some.1 hr).2]
  rfl

/-! The score (R163, R168). -/

theorem gridScore_reject_iff {p : Config.Params} {h w : Nat} {dot : Int → Int → Bool} :
    (gridScore p h w dot).2 = true ↔ worstEdge (edgeValues h w dot) = none := by
  unfold gridScore
  split <;> simp [*]

theorem gridScore_rejected {p : Config.Params} {h w : Nat} {dot : Int → Int → Bool}
    (hr : worstEdge (edgeValues h w dot) = none) : gridScore p h w dot = (p.sentinel.toInt, true) := by
  simp [gridScore, hr]

theorem gridScore_accepted {p : Config.Params} {h w v : Nat} {dot : Int → Int → Bool}
    (hv : worstEdge (edgeValues h w dot) = some v) : gridScore p h w dot =
      ((v : Int) - (isoCount p h w dot : Int) * isoCount p h w dot - penalty p h w dot, false) := by
  simp [gridScore, hv]

/-- A grid that is not rejected has a smallest edge value. -/
theorem exists_worstEdge {p : Config.Params} {h w : Nat} {dot : Int → Int → Bool}
    (hr : (gridScore p h w dot).2 = false) : ∃ v, worstEdge (edgeValues h w dot) = some v := by
  rw [← Option.isSome_iff_exists, Option.isSome_iff_ne_none, ne_eq, ← gridScore_reject_iff (p := p), hr]
  exact Bool.false_ne_true

theorem badGeom_eq_false {s : State} (g : geomOk (gridRows s) (gridCols s) = true) : badGeom s = false := by
  simp [badGeom, g]

/-- With a legal geometry SCORE commits (R169). -/
theorem exec_score {s : State} (g : geomOk (gridRows s) (gridCols s) = true) :
    exec .score s = .next (complete (scoreBody s)) :=
  exec_eq_next.2 (.inl ⟨firstError_eq_none.2 (by simpa using badGeom_eq_false g), rfl⟩)

/-! Data cells alone matter (R161). -/

section
variable {h w : Nat} {dot dot' : Int → Int → Bool} (hdots : ∀ x y : Int, (x + y) % 2 = 0 → dot x y = dot' x y)
include hdots

theorem edgeValues_congr (hodd : (h + w) % 2 = 1) : edgeValues h w dot = edgeValues h w dot' := by
  have top : topDots w dot = topDots w dot' := edgeDots_congr fun q _ hq => hdots q 0 (by omega)
  have bottom : bottomDots h w dot = bottomDots h w dot' :=
    edgeDots_congr fun q _ hq => hdots q (h - 1) (by omega)
  have left : leftDots h dot = leftDots h dot' := edgeDots_congr fun q _ hq => hdots 0 q (by omega)
  have right : rightDots h w dot = rightDots h w dot' :=
    edgeDots_congr fun q _ hq => hdots (w - 1) q (by omega)
  rw [edgeValues_eq, edgeValues_eq, top, bottom, left, right]

theorem rowClear_congr : rowClear w dot = rowClear w dot' := by
  funext y
  refine List.all_congr rfl fun x => ?_
  rcases Nat.mod_two_eq_zero_or_one (x + y) with hxy | hxy
  · rw [hdots x y (by omega)]
  · simp [hxy]

theorem colClear_congr : colClear h dot = colClear h dot' := by
  funext x
  refine List.all_congr rfl fun y => ?_
  rcases Nat.mod_two_eq_zero_or_one (x + y) with hxy | hxy
  · rw [hdots x y (by omega)]
  · simp [hxy]

theorem isolated_congr {x y : Int} (hxy : (x + y) % 2 = 0) : isolated dot x y = isolated dot' x y := by
  unfold isolated
  rw [hdots (x - 1) (y - 1) (by omega), hdots (x + 1) (y - 1) (by omega), hdots (x - 1) (y + 1) (by omega),
    hdots (x + 1) (y + 1) (by omega), hdots x y hxy, hdots (x - 2) y (by omega), hdots (x + 2) y (by omega),
    hdots x (y - 2) (by omega), hdots x (y + 2) (by omega)]

theorem isoCount_congr (p : Config.Params) : isoCount p h w dot = isoCount p h w dot' := by
  refine List.countP_congr fun xy hmem => ?_
  have hdata := (List.mem_filter.1 hmem).2
  rw [Bool.and_eq_true, beq_iff_eq] at hdata
  rw [isolated_congr hdots (by omega)]

/-- The score of a grid of odd `h + w` depends on its data cells only (R161). -/
theorem gridScore_congr (p : Config.Params) (hodd : (h + w) % 2 = 1) : gridScore p h w dot = gridScore p h w dot' := by
  rw [gridScore, gridScore, edgeValues_congr hdots hodd, isoCount_congr hdots p, penalty, penalty, rowClear_congr hdots,
    colClear_congr hdots]

end

theorem geomOk_odd {h w : Nat} (g : geomOk h w = true) : (h + w) % 2 = 1 := by
  obtain ⟨-, -, -, -, hodd⟩ := geomOk_iff.1 g
  exact hodd

/-- Settles O29: the scores are those of dots that agree on the data cells. -/
theorem scoreReadsOnlyDataDots : Obligations.ScoreReadsOnlyDataDots := by
  intro s r hparams hH hW g hcells
  have hrows : gridRows s = gridRows r := congrArg BitVec.toNat hH
  have hcols : gridCols s = gridCols r := congrArg BitVec.toNat hW
  have hscore : scoreOf s = scoreOf r := by
    rw [scoreOf_eq_gridScore, scoreOf_eq_gridScore, ← hparams, ← hrows, ← hcols]
    refine gridScore_congr (fun x y hxy => gridDot_eq_of_cells hrows hcols fun i j hx hy hi hj => ?_) s.params (geomOk_odd g)
    exact hcells j hj i hi (by omega)
  refine ⟨_, _, exec_score g, exec_score (by rwa [← hrows, ← hcols]), ?_, congrArg Prod.snd hscore⟩
  exact congrArg (fun v => BitVec.ofInt 64 v.1) hscore

/-- Settles O26: a grid is rejected when one of its edges has no dot among its samples. -/
theorem scoreRejectsExactlyEmptyEdges : Obligations.ScoreRejectsExactlyEmptyEdges := by
  intro s g
  obtain ⟨hh, -, hw, -, -⟩ := geomOk_iff.1 g
  refine ⟨_, exec_score g, ?_, fun hr => ?_, rfl⟩
  · have hbottom : ((gridRows s : Int) - 1) = (gridRows s - 1 : Nat) := by omega
    have hright : ((gridCols s : Int) - 1) = (gridCols s - 1 : Nat) := by omega
    have hreject : (scoreOf s).2 = true ↔ _ := gridScore_reject_iff.trans worstEdge_edgeValues_eq_none
    refine hreject.trans ?_
    rw [← gridDot]
    refine or_congr (edgeDots_eq_nil.trans ?_) (or_congr (edgeDots_eq_nil.trans ?_)
      (or_congr (edgeDots_eq_nil.trans ?_) (edgeDots_eq_nil.trans ?_))) <;>
      refine forall_congr' fun q => forall_congr' fun hq => imp_congr_right fun _ => not_congr ?_
    · simpa using gridDot_cell (s := s) (y := 0) hq (by omega)
    · rw [hbottom]
      exact gridDot_cell hq (by omega)
    · simpa using gridDot_cell (s := s) (x := 0) (by omega) hq
    · rw [hright]
      exact gridDot_cell (by omega) hq
  · have hrej := gridScore_rejected (p := s.params) (gridScore_reject_iff.1 hr)
    exact (congrArg (fun v => BitVec.ofInt 64 v.1) hrej).trans (BitVec.ofInt_toInt)

end Sys2Proof.Machine

/-! The penalty of clear lines (R165): what runs of clear lines cost. -/

namespace Sys2Proof.Machine

/-- The penalty when the scan ends: the finished runs and the one in progress (R165). -/
def PenaltyScan.settled (sat : Nat) (t : PenaltyScan) : Nat := min (t.pen + t.loc) sat

/-- Whether each interior line is clear, in scan order (R165). -/
def interiorLines (n : Nat) (clear : Nat → Bool) : List Bool := (List.range (n - 2)).map fun i => clear (i + 1)

theorem linePenalty_eq_settled (base sat n : Nat) (clear : Nat → Bool) : linePenalty base sat n clear =
    ((interiorLines n clear).foldl (penaltyLine base sat) ⟨0, 0⟩).settled sat := rfl

/-- What a run of `k` clear lines costs (R165). -/
def runCost (base sat k : Nat) : Nat := if k = 0 then 0 else min (base ^ k) sat

/-- A line that is not clear ends the run in progress. -/
@[simp] theorem penaltyLine_false (base sat : Nat) (t : PenaltyScan) :
    penaltyLine base sat t false = ⟨0, t.settled sat⟩ := rfl

theorem foldl_penaltyLine_notClear (base sat b : Nat) :
    (List.replicate b false).foldl (penaltyLine base sat) ⟨0, 0⟩ = ⟨0, 0⟩ := by
  induction b with
  | zero => rfl
  | succ b ih => simp [List.replicate_succ, PenaltyScan.settled, ih]

/-- Lines that are not clear cost nothing. -/
theorem settled_foldl_notClear (base sat b : Nat) (t : PenaltyScan) :
    ((List.replicate b false).foldl (penaltyLine base sat) t).settled sat = t.settled sat := by
  induction b generalizing t with
  | zero => rfl
  | succ b ih =>
    rw [List.replicate_succ, List.foldl_cons, ih, penaltyLine_false]
    simp [PenaltyScan.settled]

/-- A factor may be cut at the bound before a multiplication. -/
theorem min_mul_min {base : Nat} (hb : 0 < base) (a sat : Nat) : min (min a sat * base) sat = min (a * base) sat := by
  rcases Nat.le_total a sat with h | h
  · rw [Nat.min_eq_left h]
  · rw [Nat.min_eq_right h, Nat.min_eq_right (Nat.le_mul_of_pos_right _ hb),
      Nat.min_eq_right (h.trans (Nat.le_mul_of_pos_right _ hb))]

/-- A run of `k` clear lines leaves its cost in the run's term, up to the bound, which cuts the term from the second line
on (R165). -/
theorem foldl_penaltyLine_clear {base sat : Nat} (hb : 0 < base) (hs : 0 < sat) (p k : Nat) :
    ∃ loc, (List.replicate k true).foldl (penaltyLine base sat) ⟨0, p⟩ = ⟨loc, p⟩ ∧ (loc = 0 ↔ k = 0) ∧
      min loc sat = runCost base sat k := by
  induction k with
  | zero => exact ⟨0, rfl, by simp, by simp [runCost]⟩
  | succ k ih =>
    obtain ⟨loc, hfold, hzero, hcost⟩ := ih
    rw [List.replicate_succ', List.foldl_append, hfold]
    by_cases hk : k = 0
    · obtain rfl : loc = 0 := hzero.2 hk
      exact ⟨base, by simp [penaltyLine], by simp [hb.ne'], by simp [runCost, hk]⟩
    · have hloc : loc ≠ 0 := mt hzero.1 hk
      have hpos : 0 < min (loc * base) sat := lt_min (Nat.mul_pos (Nat.pos_of_ne_zero hloc) hb) hs
      refine ⟨min (loc * base) sat, by simp [penaltyLine, hloc], by simp [hpos.ne'], ?_⟩
      rw [min_assoc, min_self, ← min_mul_min hb, hcost]
      simp only [runCost, hk, Nat.succ_ne_zero, if_false, min_mul_min hb, pow_succ]

/-- Adding a term that is cut at the bound, or not, settles to the same. -/
theorem settled_eq_of_min {sat loc cost : Nat} (p : Nat) (h : min loc sat = cost) :
    (PenaltyScan.mk loc p).settled sat = min (p + cost) sat := by
  simp only [PenaltyScan.settled]
  omega

/-- Runs of clear lines cost the sum of what each costs, cut at the bound (R165). -/
theorem settled_foldl_linesOfRuns {base sat : Nat} (hb : 0 < base) (hs : 0 < sat) (ks : List Nat) (k p : Nat) :
    ((linesOfRuns ks k).foldl (penaltyLine base sat) ⟨0, p⟩).settled sat =
      min (p + ((ks ++ [k]).map (runCost base sat)).sum) sat := by
  induction ks generalizing p with
  | nil =>
    obtain ⟨loc, hfold, -, hcost⟩ := foldl_penaltyLine_clear hb hs p k
    simp only [linesOfRuns, List.flatMap_nil, List.nil_append, hfold, List.map_cons, List.map_nil, List.sum_cons,
      List.sum_nil, Nat.add_zero]
    exact settled_eq_of_min p hcost
  | cons j ks ih =>
    obtain ⟨loc, hfold, -, hcost⟩ := foldl_penaltyLine_clear hb hs p j
    have hlines : linesOfRuns (j :: ks) k = List.replicate j true ++ false :: linesOfRuns ks k := by
      simp [linesOfRuns]
    rw [hlines, List.foldl_append, hfold, List.foldl_cons, penaltyLine_false, ih, settled_eq_of_min p hcost]
    simp only [List.cons_append, List.map_cons, List.sum_cons]
    omega

/-- The interior lines, given line by line. -/
theorem interiorLines_eq {n : Nat} {clear : Nat → Bool} {l : List Bool} (hlen : l.length + 2 = n)
    (h : ∀ i, (hi : i < l.length) → clear (i + 1) = l[i]) : interiorLines n clear = l :=
  List.ext_getElem (by simp [interiorLines]; omega) fun i _ hi => by simp [interiorLines, h i hi]

/-- Without a clear interior line there is no penalty (R165). -/
theorem linePenalty_eq_zero {base sat n : Nat} {clear : Nat → Bool}
    (h : ∀ y, 1 ≤ y → y + 2 ≤ n → clear y = false) : linePenalty base sat n clear = 0 := by
  have hlines : interiorLines n clear = List.replicate (n - 2) false := by
    refine List.eq_replicate_iff.2 ⟨by simp [interiorLines], fun b hb => ?_⟩
    obtain ⟨i, hi, rfl⟩ := List.mem_map.1 hb
    have := List.mem_range.1 hi
    exact h (i + 1) (by omega) (by omega)
  rw [linePenalty_eq_settled, hlines, foldl_penaltyLine_notClear]
  exact Nat.zero_min sat

/-- The first clause of O30: the lines are those before the run, the run, and those after it (R165). -/
theorem linePenalty_oneRun {base sat n a k : Nat} {clear : Nat → Bool} (hb : 0 < base) (hs : 0 < sat) (hk : 1 ≤ k)
    (ha : 1 ≤ a) (hn : a + k + 1 ≤ n) (hclear : ∀ y, 1 ≤ y → y + 2 ≤ n → (clear y = true ↔ a ≤ y ∧ y < a + k)) :
    linePenalty base sat n clear = min (base ^ k) sat := by
  have hlines : interiorLines n clear =
      List.replicate (a - 1) false ++ (List.replicate k true ++ List.replicate (n - 1 - a - k) false) := by
    refine interiorLines_eq (by simp; omega) fun i hi => ?_
    simp only [List.length_append, List.length_replicate] at hi
    rw [Bool.eq_iff_iff, hclear (i + 1) (by omega) (by omega)]
    simp only [List.getElem_append, List.length_replicate, List.getElem_replicate]
    split_ifs <;> simp <;> omega
  obtain ⟨loc, hfold, -, hcost⟩ := foldl_penaltyLine_clear hb hs 0 k
  rw [linePenalty_eq_settled, hlines, List.foldl_append, List.foldl_append, foldl_penaltyLine_notClear, hfold,
    settled_foldl_notClear, settled_eq_of_min 0 hcost]
  simp [runCost, Nat.one_le_iff_ne_zero.1 hk]

/-- The second clause of O30 (R165). -/
theorem linePenalty_runs {base sat k : Nat} {ks : List Nat} {clear : Nat → Bool} (hb : 0 < base) (hs : 0 < sat)
    (h : ∀ i, (hi : i < (linesOfRuns ks k).length) → clear (i + 1) = (linesOfRuns ks k)[i]) :
    linePenalty base sat ((linesOfRuns ks k).length + 2) clear =
      min ((ks ++ [k]).map (runCost base sat)).sum sat := by
  rw [linePenalty_eq_settled, interiorLines_eq rfl h, settled_foldl_linesOfRuns hb hs, Nat.zero_add]

theorem penalty_le (p : Config.Params) (h w : Nat) (dot : Int → Int → Bool) : penalty p h w dot ≤ p.penSat :=
  Nat.min_le_right _ _

/-! The isolation count (R167). -/

theorem mem_isoPositions {p : Config.Params} {h w : Nat} {xy : Nat × Nat} : xy ∈ isoPositions p h w ↔
    xy.1 < w ∧ xy.2 < h ∧ (xy.1 + xy.2) % 2 = 0 ∧
      (p.isoScan = .interior → 1 ≤ xy.1 ∧ xy.1 + 2 ≤ w ∧ 1 ≤ xy.2 ∧ xy.2 + 2 ≤ h) := by
  obtain ⟨x, y⟩ := xy
  have hgrid : (x, y) ∈ (List.range h).flatMap (fun y => (List.range w).map (fun x => (x, y))) ↔ x < w ∧ y < h := by
    simp [and_comm]
  rw [isoPositions, List.mem_filter, hgrid, and_assoc]
  cases p.isoScan <;> simp [and_assoc]

theorem isoPositions_nodup (p : Config.Params) (h w : Nat) : (isoPositions p h w).Nodup := by
  refine List.Nodup.filter _ (List.nodup_flatMap.2 ⟨fun y _ => ?_, ?_⟩)
  · exact List.nodup_range.map fun x x' hx => congrArg Prod.fst hx
  · refine List.nodup_range.imp fun {y y'} hy => ?_
    simp only [Function.onFun, List.disjoint_left, List.mem_map, List.mem_range]
    rintro _ ⟨x, _, rfl⟩ ⟨x', _, heq⟩
    exact hy (congrArg Prod.snd heq).symm

/-- At most every other cell of a row is scanned. -/
theorem isoPositions_length_le (p : Config.Params) (h w : Nat) :
    (isoPositions p h w).length ≤ h * ((w + 1) / 2) := by
  have hsub : isoPositions p h w ⊆
      (List.range h).flatMap fun y => (edgeSamples w (y % 2)).map fun x => (x, y) := fun xy hxy => by
    obtain ⟨hx, hy, heven, -⟩ := mem_isoPositions.1 hxy
    exact List.mem_flatMap.2 ⟨xy.2, List.mem_range.2 hy, List.mem_map.2 ⟨xy.1, mem_edgeSamples.2 ⟨hx, by omega⟩, rfl⟩⟩
  refine ((isoPositions_nodup p h w).subperm hsub).length_le.trans ?_
  rw [List.length_flatMap]
  refine (List.sum_le_card_nsmul _ ((w + 1) / 2) fun n hn => ?_).trans (by simp)
  obtain ⟨y, -, rfl⟩ := List.mem_map.1 hn
  rw [List.length_map, edgeSamples_length (Nat.mod_lt _ (by decide))]
  omega

theorem isoCount_le (p : Config.Params) (h w : Nat) (dot : Int → Int → Bool) :
    isoCount p h w dot ≤ h * ((w + 1) / 2) :=
  List.countP_le_length.trans (isoPositions_length_le p h w)

/-- A legal grid has at most 20000 isolated positions. -/
theorem isoCount_le_of_geomOk {h w : Nat} (g : geomOk h w = true) (p : Config.Params) (dot : Int → Int → Bool) :
    isoCount p h w dot ≤ 20000 := by
  obtain ⟨-, hh, -, hw, -⟩ := geomOk_iff.1 g
  calc isoCount p h w dot ≤ h * ((w + 1) / 2) := isoCount_le p h w dot
    _ ≤ 200 * 100 := Nat.mul_le_mul hh (by omega)

/-! The range of the scores (R168). -/

/-- The worst edge of a legal grid is worth at most 59600: the top edge is. -/
theorem worstEdge_le {h w v : Nat} {dot : Int → Int → Bool} (g : geomOk h w = true)
    (hv : worstEdge (edgeValues h w dot) = some v) : v ≤ 59600 := by
  obtain ⟨hh, hh', hw, hw', hodd⟩ := geomOk_iff.1 g
  have htop : v ≤ dotsWorth (topDots w dot) h :=
    (eq_of_worstEdge_edgeValues hv).le.trans ((Nat.min_le_left _ _).trans (Nat.min_le_left _ _))
  refine htop.trans ((dotsWorth_filter_le (by decide) _ h).trans ?_)
  by_cases hmax : w = 200
  · subst hmax
    omega
  · calc ((w + 1) / 2 + (w - 1)) * h ≤ 298 * 200 := Nat.mul_le_mul (by omega) hh'
      _ = 59600 := rfl

theorem gridScore_range {p : Config.Params} {h w : Nat} {dot : Int → Int → Bool} (g : geomOk h w = true)
    (hr : (gridScore p h w dot).2 = false) :
    (gridScore p h w dot).1 ≤ 59600 ∧ -(400000000 + (p.penSat : Int)) ≤ (gridScore p h w dot).1 := by
  obtain ⟨v, hv⟩ := exists_worstEdge hr
  have hle := worstEdge_le g hv
  have hpen := penalty_le p h w dot
  have hiso : isoCount p h w dot * isoCount p h w dot ≤ 20000 * 20000 :=
    Nat.mul_le_mul (isoCount_le_of_geomOk g p dot) (isoCount_le_of_geomOk g p dot)
  rw [gridScore_accepted hv, ← Int.natCast_mul]
  dsimp only
  omega

theorem toInt_ofInt_64 {v : Int} (hlow : -2 ^ 63 ≤ v) (hhigh : v < 2 ^ 63) : (BitVec.ofInt 64 v).toInt = v :=
  BitVec.toInt_ofInt_eq_self (by decide) hlow hhigh

/-- Settles O28. -/
theorem scoresAreBounded : Obligations.ScoresAreBounded := by
  intro s g hsat
  refine ⟨_, exec_score g, fun hr => ?_⟩
  obtain ⟨hhigh, hlow⟩ : (scoreOf s).1 ≤ 59600 ∧ -(400000000 + (s.params.penSat : Int)) ≤ (scoreOf s).1 :=
    gridScore_range g hr
  have hscore : (scoreBody s).score.toInt = (scoreOf s).1 := toInt_ofInt_64 (by omega) (by omega)
  exact ⟨hscore.le.trans hhigh, hlow.trans hscore.ge⟩

/-! The full grid. -/

theorem edgeSamples_ne_nil {n p : Nat} (hn : 2 ≤ n) (hp : p < 2) : edgeSamples n p ≠ [] := by
  rw [← List.length_pos_iff, edgeSamples_length hp]
  omega

/-- An isolated position has no dot at a diagonal neighbour (R167). -/
theorem isolated_diagonals {dot : Int → Int → Bool} {x y : Int} (h : isolated dot x y = true) :
    dot (x - 1) (y - 1) = false ∧ dot (x + 1) (y - 1) = false ∧ dot (x - 1) (y + 1) = false ∧
      dot (x + 1) (y + 1) = false := by
  simp only [isolated, Bool.and_eq_true, Bool.not_eq_true'] at h
  obtain ⟨⟨⟨⟨hul, hur⟩, hdl⟩, hdr⟩, -⟩ := h
  exact ⟨hul, hur, hdl, hdr⟩

section
variable {h w : Nat} {dot : Int → Int → Bool} (hh : 2 ≤ h) (hw : 2 ≤ w)
  (hfull : ∀ x y : Int, 0 ≤ x → x < w → 0 ≤ y → y < h → (x + y) % 2 = 0 → dot x y = true)
include hh hw hfull

/-- Every cell of a full grid has a dot at one of its diagonal neighbours. -/
theorem isoCount_full (p : Config.Params) : isoCount p h w dot = 0 := by
  refine List.countP_eq_zero.2 fun xy hxy hiso => ?_
  obtain ⟨hx, hy, heven, -⟩ := mem_isoPositions.1 hxy
  obtain ⟨hul, hur, hdl, hdr⟩ := isolated_diagonals hiso
  have hdot : ∀ x y : Int, dot x y = false → (x + y) % 2 = 0 → ¬ (0 ≤ x ∧ x < w ∧ 0 ≤ y ∧ y < h) :=
    fun x y hno heven hin => by
      obtain ⟨hx0, hxw, hy0, hyh⟩ := hin
      rw [hfull x y hx0 hxw hy0 hyh heven] at hno
      cases hno
  have hul := hdot _ _ hul (by omega)
  have hur := hdot _ _ hur (by omega)
  have hdl := hdot _ _ hdl (by omega)
  have hdr := hdot _ _ hdr (by omega)
  omega

/-- No line of a full grid is clear: it has a data cell among its first two. -/
theorem penalty_full (p : Config.Params) : penalty p h w dot = 0 := by
  have hrow : ∀ y, 1 ≤ y → y + 2 ≤ h → rowClear w dot y = false := fun y _ hy => by
    refine List.all_eq_false.2 ⟨y % 2, List.mem_range.2 (by omega), ?_⟩
    rw [hfull (y % 2 : Nat) y (by omega) (by omega) (by omega) (by omega) (by omega)]
    simp; omega
  have hcol : ∀ x, 1 ≤ x → x + 2 ≤ w → colClear h dot x = false := fun x _ hx => by
    refine List.all_eq_false.2 ⟨x % 2, List.mem_range.2 (by omega), ?_⟩
    rw [hfull x (x % 2 : Nat) (by omega) (by omega) (by omega) (by omega) (by omega)]
    simp; omega
  rw [penalty, linePenalty_eq_zero hrow, linePenalty_eq_zero hcol]
  exact Nat.zero_min _

/-- Every sampled cell of a full grid's edges is a dot. -/
theorem edgeDots_full (hodd : (h + w) % 2 = 1) :
    topDots w dot = edgeSamples w 0 ∧ bottomDots h w dot = edgeSamples w (w % 2) ∧
      leftDots h dot = edgeSamples h 0 ∧ rightDots h w dot = edgeSamples h (h % 2) := by
  refine ⟨?_, ?_, ?_, ?_⟩ <;> refine List.filter_eq_self.2 fun q hq => ?_ <;>
    obtain ⟨hlt, hpar⟩ := mem_edgeSamples.1 hq
  · exact hfull q 0 (by omega) (by omega) (by omega) (by omega) (by omega)
  · exact hfull q (h - 1) (by omega) (by omega) (by omega) (by omega) (by omega)
  · exact hfull 0 q (by omega) (by omega) (by omega) (by omega) (by omega)
  · exact hfull (w - 1) q (by omega) (by omega) (by omega) (by omega) (by omega)

/-- The bottom and the right edge have the fewest samples. -/
theorem worstEdge_full (hodd : (h + w) % 2 = 1) :
    worstEdge (edgeValues h w dot) = some (min ((3 * (w / 2) - 2) * h) ((3 * (h / 2) - 2) * w)) := by
  obtain ⟨htop, hbottom, hleft, hright⟩ := edgeDots_full hh hw hfull hodd
  have hpw := Nat.mod_lt w (show 2 > 0 by decide)
  have hph := Nat.mod_lt h (show 2 > 0 by decide)
  rw [edgeValues_eq, htop, hbottom, hleft, hright, edgeValue_of_ne_nil (edgeSamples_ne_nil hw (by decide)),
    edgeValue_of_ne_nil (edgeSamples_ne_nil hw hpw), edgeValue_of_ne_nil (edgeSamples_ne_nil hh (by decide)),
    edgeValue_of_ne_nil (edgeSamples_ne_nil hh hph), dotsWorth_edgeSamples (by decide) hw,
    dotsWorth_edgeSamples hpw hw, dotsWorth_edgeSamples (by decide) hh, dotsWorth_edgeSamples hph hh,
    show (w + 1 - w % 2) / 2 = w / 2 by omega, show (h + 1 - h % 2) / 2 = h / 2 by omega]
  refine worstEdge_eq_some.2 ⟨_, _, _, _, rfl, rfl, rfl, rfl, ?_⟩
  rw [Nat.min_eq_right (Nat.mul_le_mul_right h (by omega)), Nat.min_eq_right (Nat.mul_le_mul_right w (by omega))]

theorem gridScore_full (p : Config.Params) (hodd : (h + w) % 2 = 1) : gridScore p h w dot =
    (((min ((3 * (w / 2) - 2) * h) ((3 * (h / 2) - 2) * w) : Nat) : Int), false) := by
  rw [gridScore_accepted (worstEdge_full hh hw hfull hodd), isoCount_full hh hw hfull, penalty_full hh hw hfull]
  simp

end

/-- Settles O27: the score is the worst edge, which is small enough for SCORE's 64 bits. -/
theorem fullGridScoresItsWorstEdge : Obligations.FullGridScoresItsWorstEdge := by
  intro s g hcells
  obtain ⟨hh, hh', hw, hw', hodd⟩ := geomOk_iff.1 g
  have hfull : ∀ x y : Int, 0 ≤ x → x < gridCols s → 0 ≤ y → y < gridRows s → (x + y) % 2 = 0 → gridDot s x y = true :=
    fun x y hx hxw hy hyh heven =>
      gridDot_iff.2 ⟨hx, hxw, hy, hyh, hcells y.toNat (by omega) x.toNat (by omega) (by omega)⟩
  have hscore := (scoreOf_eq_gridScore s).trans (gridScore_full (by omega) (by omega) hfull s.params hodd)
  have hle := worstEdge_le g (worstEdge_full (by omega) (by omega) hfull hodd)
  refine ⟨_, exec_score g, congrArg Prod.snd hscore, ?_⟩
  exact (congrArg (fun v => (BitVec.ofInt 64 v.1).toInt) hscore).trans (toInt_ofInt_64 (by omega) (by omega))

/-! The score of a grid in the terms of R162 to R168. -/

/-- The worth of an edge, cell by cell, is that of the dots at its samples. -/
theorem edgeWorth_eq {s : State} {cell : Nat → Nat × Nat} {n p : Nat} {f : Nat → Bool}
    (hcell : ∀ q < n, ((cell q).1 + (cell q).2) % 2 = 0 ↔ q % 2 = p)
    (hf : ∀ q < n, f q = true ↔ IsDot s (cell q).1 (cell q).2) (k : Nat) :
    edgeWorth s cell n k = dotsWorth ((edgeSamples n p).filter f) k := by
  have hlist : (List.range n).filter
      (fun q => decide (((cell q).1 + (cell q).2) % 2 = 0 ∧ IsDot s (cell q).1 (cell q).2)) =
      (edgeSamples n p).filter f := by
    rw [edgeSamples, List.filter_filter]
    refine List.filter_congr fun q hq => ?_
    have hq := List.mem_range.1 hq
    rw [Bool.eq_iff_iff, decide_eq_true_eq, hcell q hq, ← hf q hq]
    simp [and_comm]
  rw [edgeWorth, hlist]
  rfl

theorem isIsolated_iff {s : State} {x y : Int} : IsIsolated s x y ↔
    (∀ dx ∈ [(-1 : Int), 1], ∀ dy ∈ [(-1 : Int), 1], gridDot s (x + dx) (y + dy) = false) ∧
      (gridDot s x y = true → ∀ d ∈ [(-2 : Int), 2], gridDot s (x + d) y = false ∧ gridDot s x (y + d) = false) := by
  simp only [IsIsolated, ← gridDot_iff, Bool.not_eq_true]

theorem isolated_iff {s : State} {x y : Int} : isolated (gridDot s) x y = true ↔ IsIsolated s x y := by
  rw [isIsolated_iff]
  simp only [List.forall_mem_cons, ← sub_eq_add_neg, isolated, Bool.and_eq_true, Bool.or_eq_true,
    Bool.not_eq_true']
  cases gridDot s x y
  · simp [and_assoc, and_left_comm]
  · simp [and_assoc, and_left_comm]
/-- The isolated positions are counted once each (R167). -/
theorem isolatedCells_card (s : State) :
    (isolatedCells s).card = isoCount s.params (gridRows s) (gridCols s) (gridDot s) := by
  have hcells : isolatedCells s = ((isoPositions s.params (gridRows s) (gridCols s)).filter
      fun xy => isolated (gridDot s) xy.1 xy.2).toFinset := by
    ext xy
    rw [List.mem_toFinset, List.mem_filter, mem_isoPositions, isolated_iff]
    simp only [isolatedCells, Finset.mem_filter, Finset.mem_product, Finset.mem_range, and_assoc]
  rw [hcells, List.toFinset_card_of_nodup ((isoPositions_nodup _ _ _).filter _), isoCount, List.countP_eq_length_filter]

theorem rowClear_eq (s : State) : rowClear (gridCols s) (gridDot s) =
    fun y => decide (∀ x < gridCols s, (x + y) % 2 = 0 → ¬ IsDot s x y) := by
  funext y
  rw [Bool.eq_iff_iff, decide_eq_true_eq, rowClear, List.all_eq_true]
  refine forall_congr' fun x => imp_congr List.mem_range ?_
  rw [← gridDot_iff]
  rcases Nat.mod_two_eq_zero_or_one (x + y) with hxy | hxy <;> simp [hxy]

theorem colClear_eq (s : State) : colClear (gridRows s) (gridDot s) =
    fun x => decide (∀ y < gridRows s, (x + y) % 2 = 0 → ¬ IsDot s x y) := by
  funext x
  rw [Bool.eq_iff_iff, decide_eq_true_eq, colClear, List.all_eq_true]
  refine forall_congr' fun y => imp_congr List.mem_range ?_
  rw [← gridDot_iff]
  rcases Nat.mod_two_eq_zero_or_one (x + y) with hxy | hxy <;> simp [hxy]

theorem lineBases_eq (p : Config.Params) (h w : Nat) : lineBases p h w =
    (if p.lineBase = .ortho then w else h, if p.lineBase = .ortho then h else w) := by
  unfold lineBases
  cases p.lineBase <;> rfl

theorem penalty_eq (s : State) : penalty s.params (gridRows s) (gridCols s) (gridDot s) =
    min
      (linePenalty (if s.params.lineBase = .ortho then gridCols s else gridRows s) s.params.penSat (gridRows s)
          (fun y => decide (∀ x < gridCols s, (x + y) % 2 = 0 → ¬ IsDot s x y)) +
        linePenalty (if s.params.lineBase = .ortho then gridRows s else gridCols s) s.params.penSat (gridCols s)
          (fun x => decide (∀ y < gridRows s, (x + y) % 2 = 0 → ¬ IsDot s x y)))
      s.params.penSat := by
  rw [penalty, lineBases_eq, rowClear_eq, colClear_eq]

/-- The worst edge of a legal grid in terms of its cells (R162, R164). -/
theorem worstEdge_eq_edgeWorth {s : State} (g : geomOk (gridRows s) (gridCols s) = true) {v : Nat}
    (hv : worstEdge (edgeValues (gridRows s) (gridCols s) (gridDot s)) = some v) :
    v = min (min (edgeWorth s (fun q => (q, 0)) (gridCols s) (gridRows s))
        (edgeWorth s (fun q => (q, gridRows s - 1)) (gridCols s) (gridRows s)))
      (min (edgeWorth s (fun q => (0, q)) (gridRows s) (gridCols s))
        (edgeWorth s (fun q => (gridCols s - 1, q)) (gridRows s) (gridCols s))) := by
  obtain ⟨hh, -, hw, -, hodd⟩ := geomOk_iff.1 g
  have hbottom : ((gridRows s - 1 : Nat) : Int) = gridRows s - 1 := by omega
  have hright : ((gridCols s - 1 : Nat) : Int) = gridCols s - 1 := by omega
  rw [eq_of_worstEdge_edgeValues hv,
    edgeWorth_eq (p := 0) (f := fun q => gridDot s q 0) (fun q _ => by rw [Nat.add_zero]) (fun q _ => gridDot_iff),
    edgeWorth_eq (p := gridCols s % 2) (f := fun q => gridDot s q (gridRows s - 1)) (fun q _ => by dsimp only; omega)
      (fun q _ => by rw [hbottom]; exact gridDot_iff),
    edgeWorth_eq (p := 0) (f := fun q => gridDot s 0 q) (fun q _ => by rw [Nat.zero_add]) (fun q _ => gridDot_iff),
    edgeWorth_eq (p := gridRows s % 2) (f := fun q => gridDot s (gridCols s - 1) q) (fun q _ => by dsimp only; omega)
      (fun q _ => by rw [hright]; exact gridDot_iff)]
  rfl

/-- Settles O30: the penalty's two clauses are the scan's, the third is the score in the terms of the cells. -/
theorem oneClearRunCostsItsPower : Obligations.OneClearRunCostsItsPower := by
  refine ⟨fun base sat n a k clear hb hs hk ha hn hclear => linePenalty_oneRun hb hs hk ha hn hclear,
    fun base sat k ks clear hb hs hlines => linePenalty_runs hb hs hlines, fun s g => ?_⟩
  refine ⟨_, exec_score g, fun hr => ?_⟩
  obtain ⟨v, hv⟩ := exists_worstEdge (p := s.params) hr
  have hscore := (scoreOf_eq_gridScore s).trans (gridScore_accepted hv)
  rw [← worstEdge_eq_edgeWorth g hv, ← penalty_eq, isolatedCells_card, pow_two]
  exact congrArg (fun v => BitVec.ofInt 64 v.1) hscore

end Sys2Proof.Machine

/-! The fold (R205–R208): the cells in fold order are the data cells, each once, and what each body of the folder stores. -/

namespace Sys2Proof.Machine

/-- The GRID index of a cell (R66). -/
def cellIndex (w : Nat) (rc : Nat × Nat) : Nat := rc.1 * w + rc.2

/-- The cell that takes the bit met at a scan position (R206, R207). -/
def foldCell (h : Nat) (rc : Nat × Nat) : Nat × Nat := if h % 2 = 1 then (h - 1 - rc.1, rc.2) else rc

/-- The cells in fold order (R206–R208). -/
def foldCells (h w : Nat) : List (Nat × Nat) :=
  ((scanOrder h w).filter (fun rc => isData rc && !(corners h w).contains rc)).map (foldCell h) ++ corners h w

theorem foldTarget_eq (h w : Nat) (rc : Nat × Nat) : foldTarget h w rc = cellIndex w (foldCell h rc) := by
  unfold foldTarget foldCell cellIndex
  split <;> rfl

theorem foldOrder_eq_map (h w : Nat) : foldOrder h w = (foldCells h w).map (cellIndex w) := by
  rw [foldOrder, foldCells, List.map_append, List.map_map]
  exact congrArg₂ _ (List.map_congr_left fun rc _ => foldTarget_eq h w rc) rfl

theorem cellIndex_div {w : Nat} {rc : Nat × Nat} (h : rc.2 < w) : cellIndex w rc / w = rc.1 := by
  rw [cellIndex, Nat.mul_comm, Nat.mul_add_div (Nat.zero_lt_of_lt h), Nat.div_eq_of_lt h, Nat.add_zero]

theorem cellIndex_mod {w : Nat} {rc : Nat × Nat} (h : rc.2 < w) : cellIndex w rc % w = rc.2 := by
  rw [cellIndex, Nat.mul_comm, Nat.mul_add_mod, Nat.mod_eq_of_lt h]

theorem cellIndex_lt {h w : Nat} {rc : Nat × Nat} (hr : rc.1 < h) (hc : rc.2 < w) : cellIndex w rc < h * w := by
  have := Nat.mul_le_mul_right w (Nat.succ_le_of_lt hr)
  rw [Nat.succ_mul] at this
  unfold cellIndex
  omega

theorem cellIndex_divMod (w i : Nat) : cellIndex w (i / w, i % w) = i := by
  rw [cellIndex, Nat.mul_comm]
  exact Nat.div_add_mod i w

theorem mem_scanOrder {h w : Nat} {rc : Nat × Nat} : rc ∈ scanOrder h w ↔ rc.1 < h ∧ rc.2 < w := by
  obtain ⟨r, c⟩ := rc
  unfold scanOrder
  split <;> simp [and_comm]

theorem nodup_grid (m n : Nat) (f : Nat → Nat → Nat × Nat) (hf : ∀ i j i' j', f i j = f i' j' → i = i' ∧ j = j') :
    ((List.range m).flatMap fun i => (List.range n).map (f i)).Nodup := by
  refine List.nodup_flatMap.2 ⟨fun i _ => List.nodup_range.map fun j j' hj => (hf i j i j' hj).2, ?_⟩
  refine List.nodup_range.imp fun {i i'} hi => ?_
  simp only [Function.onFun, List.disjoint_left, List.mem_map]
  rintro _ ⟨j, -, rfl⟩ ⟨j', -, heq⟩
  exact hi (hf i' j' i j heq).1.symm

theorem scanOrder_nodup (h w : Nat) : (scanOrder h w).Nodup := by
  unfold scanOrder
  split <;> refine nodup_grid _ _ _ fun i j i' j' heq => ?_ <;> obtain ⟨h1, h2⟩ := Prod.mk.inj heq
  · exact ⟨h1, h2⟩
  · exact ⟨h2, h1⟩

theorem isData_iff {rc : Nat × Nat} : isData rc = true ↔ (rc.1 + rc.2) % 2 = 0 := beq_iff_eq

/-- The fold's reflection of the rows is its own inverse and keeps the grid and the data cells. -/
theorem foldCell_foldCell {h : Nat} {rc : Nat × Nat} (hr : rc.1 < h) :
    foldCell h (foldCell h rc) = rc ∧ (foldCell h rc).1 < h ∧ (foldCell h rc).2 = rc.2 ∧
      isData (foldCell h rc) = isData rc := by
  unfold foldCell
  split
  · refine ⟨Prod.ext (by dsimp only; omega) rfl, by dsimp only; omega, rfl, ?_⟩
    rw [Bool.eq_iff_iff, isData_iff, isData_iff]
    omega
  · exact ⟨rfl, hr, rfl, rfl⟩

/-- Half the index of a data cell decides its parity: with an odd `w` every data cell has an even index, and with an even `w`
a row holds both `2 * k` and `2 * k + 1` or neither. -/
theorem data_index_parity {w i : Nat} (hi : isData (i / w, i % w) = true) :
    i % 2 = if w % 2 = 1 then 0 else i / 2 / (w / 2) % 2 := by
  rw [isData_iff] at hi
  dsimp only at hi
  have hdiv := Nat.div_add_mod i w
  obtain ⟨v, rfl | rfl⟩ := Nat.even_or_odd' w
  · have hrow : i / 2 / v = i / (2 * v) := Nat.div_div_eq_div_mul i 2 v
    rw [Nat.mul_assoc] at hdiv
    rw [if_neg (by omega), Nat.mul_div_cancel_left v (by decide), hrow]
    omega
  · rw [Nat.add_mul, Nat.mul_assoc, Nat.one_mul] at hdiv
    rw [if_pos (by omega)]
    omega

theorem data_index_inj {w i j : Nat} (hi : isData (i / w, i % w) = true) (hj : isData (j / w, j % w) = true)
    (hij : i / 2 = j / 2) : i = j := by
  have hpi := data_index_parity hi
  rw [hij, ← data_index_parity hj] at hpi
  omega

section
variable {h w : Nat} (g : geomOk h w = true)
include g

/-- The corners are the same set when the rows are reflected, which the fold does for an odd H only (R205). -/
theorem foldCell_mem_corners {rc : Nat × Nat} (hrc : rc ∈ corners h w) : foldCell h rc ∈ corners h w := by
  obtain ⟨hh, -⟩ := geomOk_iff.1 g
  unfold foldCell
  split
  · rename_i hodd
    simp only [corners, if_pos hodd, List.mem_cons, List.not_mem_nil, or_false] at hrc ⊢
    rcases hrc with rfl | rfl | rfl | rfl | rfl | rfl <;> simp <;> omega
  · exact hrc

theorem corners_nodup : (corners h w).Nodup := by
  obtain ⟨hh, -, hw, -⟩ := geomOk_iff.1 g
  unfold corners
  split <;> simp <;> omega

theorem mem_foldCells {rc : Nat × Nat} : rc ∈ foldCells h w ↔ rc.1 < h ∧ rc.2 < w ∧ isData rc = true := by
  simp only [foldCells, List.mem_append, List.mem_map, List.mem_filter, mem_scanOrder, Bool.and_eq_true,
    Bool.not_eq_true', List.contains_eq_mem, decide_eq_false_iff_not]
  constructor
  · rintro (⟨q, ⟨⟨hq, hqw⟩, hdata, -⟩, rfl⟩ | hcorner)
    · obtain ⟨-, hlt, hcol, hkeep⟩ := foldCell_foldCell hq
      exact ⟨hlt, hcol ▸ hqw, hkeep.trans hdata⟩
    · obtain ⟨hr, hc, heven⟩ := corners_in_grid g rc hcorner
      exact ⟨hr, hc, isData_iff.2 heven⟩
  · rintro ⟨hr, hc, hdata⟩
    by_cases hcorner : rc ∈ corners h w
    · exact .inr hcorner
    · obtain ⟨hback, hlt, hcol, hkeep⟩ := foldCell_foldCell hr
      refine .inl ⟨foldCell h rc, ⟨⟨hlt, hcol ▸ hc⟩, hkeep.trans hdata, fun hmem => hcorner ?_⟩, hback⟩
      exact hback ▸ foldCell_mem_corners g hmem

theorem foldCells_nodup : (foldCells h w).Nodup := by
  refine List.nodup_append'.2 ⟨?_, corners_nodup g, ?_⟩
  · refine ((scanOrder_nodup h w).filter _).map_on fun q hq q' hq' heq => ?_
    have hr := (mem_scanOrder.1 (List.mem_filter.1 hq).1).1
    have hr' := (mem_scanOrder.1 (List.mem_filter.1 hq').1).1
    rw [← (foldCell_foldCell hr).1, heq, (foldCell_foldCell hr').1]
  · refine List.disjoint_left.2 fun rc hmem hcorner => ?_
    obtain ⟨q, hq, rfl⟩ := List.mem_map.1 hmem
    simp only [List.mem_filter, mem_scanOrder, Bool.and_eq_true, Bool.not_eq_true', List.contains_eq_mem,
      decide_eq_false_iff_not] at hq
    obtain ⟨⟨hr, -⟩, -, hnot⟩ := hq
    exact hnot ((foldCell_foldCell hr).1 ▸ foldCell_mem_corners g hcorner)

/-- The fold order lists the indices of the data cells (R208). -/
theorem mem_foldOrder {i : Nat} : i ∈ foldOrder h w ↔ i < h * w ∧ isData (i / w, i % w) = true := by
  obtain ⟨-, -, hw, -⟩ := geomOk_iff.1 g
  rw [foldOrder_eq_map, List.mem_map]
  constructor
  · rintro ⟨rc, hrc, rfl⟩
    obtain ⟨hr, hc, hdata⟩ := (mem_foldCells g).1 hrc
    rw [cellIndex_div hc, cellIndex_mod hc]
    exact ⟨cellIndex_lt hr hc, hdata⟩
  · rintro ⟨hi, hdata⟩
    have hr : i / w < h := (Nat.div_lt_iff_lt_mul (by omega)).2 hi
    exact ⟨(i / w, i % w), (mem_foldCells g).2 ⟨hr, Nat.mod_lt _ (by omega), hdata⟩, cellIndex_divMod w i⟩

theorem foldOrder_nodup : (foldOrder h w).Nodup := by
  rw [foldOrder_eq_map]
  refine (foldCells_nodup g).map_on fun q hq q' hq' heq => ?_
  obtain ⟨-, hc, -⟩ := (mem_foldCells g).1 hq
  obtain ⟨-, hc', -⟩ := (mem_foldCells g).1 hq'
  refine Prod.ext ?_ ?_
  · rw [← cellIndex_div hc, heq, cellIndex_div hc']
  · rw [← cellIndex_mod hc, heq, cellIndex_mod hc']

/-- There are as many stream bits as dots: every data cell has its bit below NDOTS (R208, R202). -/
theorem foldOrder_length_le : (foldOrder h w).length ≤ ndots h w := by
  obtain ⟨-, -, heven⟩ := geom_area g
  have hhalf : ((foldOrder h w).map (· / 2)).Nodup := (foldOrder_nodup g).map_on fun i hi j hj hij =>
    data_index_inj ((mem_foldOrder g).1 hi).2 ((mem_foldOrder g).1 hj).2 hij
  have hsub : (foldOrder h w).map (· / 2) ⊆ List.range (ndots h w) := fun k hk => by
    obtain ⟨i, hi, rfl⟩ := List.mem_map.1 hk
    have := ((mem_foldOrder g).1 hi).1
    exact List.mem_range.2 (by omega)
  simpa using (hhalf.subperm hsub).length_le

theorem idxOf_foldOrder_lt {i : Nat} (hi : i < h * w) (hdata : isData (i / w, i % w) = true) :
    (foldOrder h w).idxOf i < ndots h w :=
  (List.idxOf_lt_length_iff.2 ((mem_foldOrder g).2 ⟨hi, hdata⟩)).trans_le (foldOrder_length_le g)

end
end Sys2Proof.Machine

/-! What each body of a candidate leaves in the buffers (R150–R153, R200, R209, R210). -/

namespace Sys2Proof.Machine

theorem anyAbove_eq_false {cs : List Codeword} (h : ∀ c ∈ cs, c.toNat ≤ 112) : anyAbove cs = false :=
  List.any_eq_false.2 fun c hc habove => absurd (of_decide_eq_true habove) (Nat.not_lt.2 (h c hc))

theorem badSource_eq_false {s : State} (h : SourceInRange s) : badSource s = false :=
  anyAbove_eq_false fun c hc => by
    obtain ⟨j, hj, rfl⟩ := List.mem_map.1 hc
    exact h j (List.mem_range.1 hj)

/-! MASK_APPLY -/

theorem dLen_lt (s : State) : dLen s < 4096 := s.dataLen.isLt

/-- WORK after the commit phase: the mask, the weighted data codewords, and every other entry as it was (R150). -/
theorem workAt_maskBody (m : Nat) (s : State) (i : Nat) : workAt (maskBody m s) i =
    if i < dLen s + 1 then (if i = 0 then BitVec.ofNat 9 m else maskedWord s m (i - 1)) else workAt s i := by
  have hlen : (BitVec.ofNat 9 m :: (List.range (dLen s)).map (maskedWord s m)).length = dLen s + 1 := by simp
  have hput := workAt_putWork s 0 (BitVec.ofNat 9 m :: (List.range (dLen s)).map (maskedWord s m)) i
    (by rw [hlen, Nat.zero_add]; exact dLen_lt s)
  rw [hlen, Nat.zero_add, Nat.sub_zero] at hput
  refine hput.trans ?_
  by_cases hi : i < dLen s + 1
  · cases i with
    | zero => simp
    | succ j => simp [hi]
  · simp [hi]

theorem workAt_maskBody_zero (m : Nat) (s : State) : workAt (maskBody m s) 0 = BitVec.ofNat 9 m := by
  simp [workAt_maskBody]

theorem workAt_maskBody_data (m : Nat) (s : State) {j : Nat} (hj : j < dLen s) :
    workAt (maskBody m s) (1 + j) = maskedWord s m j := by
  rw [workAt_maskBody, if_pos (by omega), if_neg (by omega), Nat.add_sub_cancel_left]

theorem maskedWord_toNat (s : State) (m j : Nat) :
    (maskedWord s m j).toNat = ((srcAt s j).toNat + maskStep m * j) % 113 :=
  Nat.mod_eq_of_lt ((Nat.mod_lt _ (by decide)).trans (by decide))

/-- The words MASK_APPLY leaves for RS_ENCODE are field elements (R151). -/
theorem workAt_maskBody_le {m : Nat} (hm : m < 4) (s : State) {i : Nat} (hi : i < dLen s + 1) :
    (workAt (maskBody m s) i).toNat ≤ 112 := by
  rw [workAt_maskBody, if_pos hi]
  split
  · rw [BitVec.toNat_ofNat]
    omega
  · rw [maskedWord_toNat]
    exact Nat.le_of_lt_succ (Nat.mod_lt _ (by decide))

theorem exec_maskApply {s : State} (h : SourceInRange s) (m : BitVec 2) :
    exec (.maskApply m) s = .next (complete (maskBody m.toNat s)) :=
  exec_eq_next.2 (.inl ⟨firstError_eq_none.2 (by simpa using badSource_eq_false h), rfl⟩)

/-- Settles O19: the weights are those of the commit phase. -/
theorem maskApplyWeightsTheData : Obligations.MaskApplyWeightsTheData := by
  intro m s hsrc
  refine ⟨_, exec_maskApply hsrc m, ?_, fun j hj => ?_, fun i hi => ?_, rfl⟩
  · have hzero : workAt (complete (maskBody m.toNat s)) 0 = BitVec.ofNat 9 m.toNat := workAt_maskBody_zero m.toNat s
    rw [hzero]
    exact Nat.mod_eq_of_lt (m.isLt.trans (by decide))
  · exact (congrArg BitVec.toNat (workAt_maskBody_data m.toNat s hj)).trans (maskedWord_toNat s m.toNat j)
  · exact (workAt_maskBody m.toNat s i).trans (if_neg (by omega))

/-! DOTSTREAM -/

theorem bitsMsbFirst_length (n : Nat) (v : BitVec 9) : (bitsMsbFirst n v).length = n := by simp [bitsMsbFirst]

theorem streamBits_length (s : State) : (streamBits s).length = minDots (dLen s) (eLen s) := by
  simp [streamBits, bitsMsbFirst_length, List.length_flatMap, minDots]
  omega

/-- The stream and its fill (R201, R202). -/
def filledStream (s : State) : List (BitVec 1) :=
  streamBits s ++ List.replicate (dotCapacity s - minDots (dLen s) (eLen s)) 1

section
variable {s : State} (g : geomOk (gridRows s) (gridCols s) = true)
include g

theorem dotCapacity_le : dotCapacity s ≤ 20000 := by
  obtain ⟨-, hcap, -⟩ := geom_area g
  exact hcap

/-- STREAM after the commit phase: filled up to NDOTS, and every other entry as it was (R200). -/
theorem streamAt_dotStreamBody (hfit : minDots (dLen s) (eLen s) ≤ dotCapacity s) (i : Nat) :
    streamAt (dotStreamBody s) i = if i < dotCapacity s then (filledStream s).getD i 0 else streamAt s i := by
  have hlen : (filledStream s).length = dotCapacity s := by
    rw [filledStream, List.length_append, streamBits_length, List.length_replicate]
    omega
  have hput := streamAt_putStream s 0 (filledStream s) i (by rw [hlen, Nat.zero_add]; exact dotCapacity_le g)
  rw [hlen, Nat.zero_add, Nat.sub_zero] at hput
  refine Eq.trans hput (if_congr ?_ rfl rfl)
  omega

theorem exec_dotStream (hfit : minDots (dLen s) (eLen s) ≤ dotCapacity s) (hmask : (workAt s 0).toNat ≤ 3)
    (hwords : ∀ i < dLen s + eLen s, (workAt s (1 + i)).toNat ≤ 112) :
    exec .dotStream s = .next (complete (dotStreamBody s)) := by
  have hlong : streamTooLong s = false := decide_eq_false (Nat.not_lt.2 hfit)
  have hwordsOk : anyAbove ((List.range (dLen s + eLen s)).map (fun i => workAt s (1 + i))) = false :=
    anyAbove_eq_false fun c hc => by
      obtain ⟨i, hi, rfl⟩ := List.mem_map.1 hc
      exact hwords i (List.mem_range.1 hi)
  have hbad : badStreamWord s = false := by
    rw [badStreamWord, hwordsOk, Bool.or_false]
    exact decide_eq_false (Nat.not_lt.2 hmask)
  exact exec_eq_next.2 (.inl ⟨firstError_eq_none.2 (by simp [badGeom_eq_false g, hlong, hbad]), rfl⟩)

/-! FOLD and FORCE_CORNERS -/

/-- GRID after FOLD: its cells, and every other entry as it was (R209). -/
theorem gridAt_foldBody (i : Nat) : gridAt (foldBody s) i =
    if i < gridRows s * gridCols s then foldedCell s (gridCols s) (foldOrder (gridRows s) (gridCols s)) i
    else gridAt s i := by
  obtain ⟨harea, -⟩ := geom_area g
  have hput := gridAt_putGrid s 0 ((List.range (gridRows s * gridCols s)).map
    (foldedCell s (gridCols s) (foldOrder (gridRows s) (gridCols s)))) i
    (by rw [List.length_map, List.length_range, Nat.zero_add]; exact harea)
  refine hput.trans ?_
  by_cases hi : i < gridRows s * gridCols s <;> simp [hi]

theorem exec_fold : exec .fold s = .next (complete (foldBody s)) :=
  exec_eq_next.2 (.inl ⟨firstError_eq_none.2 (by simpa using badGeom_eq_false g), rfl⟩)

theorem exec_forceCorners : exec .forceCorners s = .next (complete (forceCornersBody s)) :=
  exec_eq_next.2 (.inl ⟨firstError_eq_none.2 (by simpa using badGeom_eq_false g), rfl⟩)

omit g in
theorem gridAt_foldl_putGrid (l : List (Nat × Nat)) (f : Nat × Nat → Nat) (v : CellCode) (hl : ∀ rc ∈ l, f rc < 40000)
    (t : State) (i : Nat) :
    gridAt (l.foldl (fun t rc => putGrid t (f rc) [v]) t) i = if i ∈ l.map f then v else gridAt t i := by
  induction l generalizing t with
  | nil => simp
  | cons c l ih =>
    obtain ⟨hc, hl⟩ := List.forall_mem_cons.1 hl
    rw [List.foldl_cons, ih hl, gridAt_putGrid _ _ _ _ (by exact hc)]
    by_cases hmem : i ∈ l.map f
    · rw [if_pos hmem, if_pos (by simp [hmem])]
    · by_cases hi : i = f c
      · simp [hi]
      · rw [if_neg hmem, if_neg (by simp; omega), if_neg (by rw [List.map_cons, List.mem_cons]; tauto)]

/-- GRID after FORCE_CORNERS: the corners are SET, and every other entry is as it was (R210). -/
theorem gridAt_forceCornersBody (i : Nat) : gridAt (forceCornersBody s) i =
    if i ∈ (corners (gridRows s) (gridCols s)).map (cellIndex (gridCols s)) then cellSet else gridAt s i := by
  obtain ⟨harea, -⟩ := geom_area g
  refine gridAt_foldl_putGrid _ (cellIndex (gridCols s)) cellSet (fun rc hrc => ?_) s i
  obtain ⟨hr, hc, -⟩ := corners_in_grid g rc hrc
  exact (cellIndex_lt hr hc).trans_le harea

/-- The forced corners lie inside the grid (R205). -/
theorem gridAt_forceIfHigh_other (m : BitVec 3) {i : Nat} (hi : gridRows s * gridCols s ≤ i) :
    gridAt (forceIfHigh m s) i = gridAt s i := by
  unfold forceIfHigh
  split
  · rw [gridAt_forceCornersBody g]
    refine if_neg fun hmem => ?_
    obtain ⟨rc, hrc, rfl⟩ := List.mem_map.1 hmem
    obtain ⟨hr, hc, -⟩ := corners_in_grid g rc hrc
    exact absurd (cellIndex_lt hr hc) (Nat.not_lt.2 hi)
  · rfl

end

/-! A candidate -/

section
variable {s : State} (h : CandidateReady s)
include h

theorem CandidateReady.geom : geomOk (gridRows s) (gridCols s) = true := h.1

theorem CandidateReady.fits : minDots (dLen s) (eLen s) ≤ dotCapacity s := h.2.1

theorem CandidateReady.source : SourceInRange s := h.2.2

theorem CandidateReady.words_le : dLen s + 1 + eLen s ≤ 2223 := by
  have hfits := h.fits
  have hcap := dotCapacity_le h.geom
  unfold minDots at hfits
  omega

theorem CandidateReady.check : candidateCheck s = none := by
  have hlong : streamTooLong s = false := decide_eq_false (Nat.not_lt.2 h.fits)
  have hdepth : decide (depth .work < dLen s + 1 + eLen s) = false :=
    decide_eq_false (Nat.not_lt.2 (h.words_le.trans (by decide)))
  exact firstError_eq_none.2 (by simp [badGeom_eq_false h.geom, hlong, hdepth, badSource_eq_false h.source])

theorem exec_candidate (m : BitVec 3) : exec (.candidate m) s = .next (complete (candidateBody m s)) :=
  exec_eq_next.2 (.inl ⟨h.check, rfl⟩)

theorem exec_select : exec .select s = .next (complete (selectBody s)) :=
  exec_eq_next.2 (.inl ⟨h.check, rfl⟩)

end

section
variable {s t : State} (h : SameButCandidate s t)
include h

theorem SameButCandidate.dims : gridRows t = gridRows s ∧ gridCols t = gridCols s := by
  rw [h]
  exact ⟨rfl, rfl⟩

theorem SameButCandidate.dotCapacity : dotCapacity t = dotCapacity s := by
  rw [h]
  rfl

theorem SameButCandidate.srcAt : srcAt t = srcAt s := by
  rw [h]
  rfl

/-- No candidate changes what CANDIDATE checks (R153). -/
theorem SameButCandidate.ready (hs : CandidateReady s) : CandidateReady t := by
  obtain ⟨hd, he⟩ := h.lengths
  obtain ⟨hrows, hcols⟩ := h.dims
  rw [CandidateReady, SourceInRange, hd, he, hrows, hcols, h.srcAt]
  exact hs

end

/-- A candidate's codewords in WORK (R153). -/
def candidateWords (m : BitVec 3) (s : State) : State :=
  rsBody (dLen s + 1) (eLen s) (maskBody (m.toNat % 4) s)

theorem candidateWords_same (m : BitVec 3) (s : State) : SameButCandidate s (candidateWords m s) :=
  (maskBody_same (m.toNat % 4) s).trans (rsBody_same _ _ _)

theorem gridAt_dotStreamBody (s : State) : gridAt (dotStreamBody s) = gridAt s := rfl

theorem rsBody_reads (nd nc : Nat) (s : State) :
    streamAt (rsBody nd nc s) = streamAt s ∧ gridAt (rsBody nd nc s) = gridAt s := ⟨rfl, rfl⟩

theorem maskBody_reads (m : Nat) (s : State) :
    streamAt (maskBody m s) = streamAt s ∧ gridAt (maskBody m s) = gridAt s := ⟨rfl, rfl⟩

/-- The codewords go to WORK. -/
theorem candidateWords_reads (m : BitVec 3) (s : State) :
    streamAt (candidateWords m s) = streamAt s ∧ gridAt (candidateWords m s) = gridAt s := by
  obtain ⟨hstream, hgrid⟩ := rsBody_reads (dLen s + 1) (eLen s) (maskBody (m.toNat % 4) s)
  obtain ⟨hstream', hgrid'⟩ := maskBody_reads (m.toNat % 4) s
  exact ⟨hstream.trans hstream', hgrid.trans hgrid'⟩

/-- A candidate up to its grid (R153). -/
def candidateGrid (m : BitVec 3) (s : State) : State :=
  forceIfHigh m (foldBody (dotStreamBody (candidateWords m s)))

theorem candidateBody_eq (m : BitVec 3) (s : State) :
    candidateBody m s = recordScore m (scoreBody (candidateGrid m s)) := rfl

theorem candidateGrid_same (m : BitVec 3) (s : State) : SameButCandidate s (candidateGrid m s) :=
  (candidateWords_same m s).trans (((dotStreamBody_same _).trans (foldBody_same _)).trans (forceIfHigh_same m _))

/-- The forced corners change GRID only. -/
theorem forceIfHigh_reads (m : BitVec 3) (s : State) :
    workAt (forceIfHigh m s) = workAt s ∧ streamAt (forceIfHigh m s) = streamAt s := by
  rw [forceIfHigh_frame]
  exact ⟨rfl, rfl⟩

theorem foldBody_reads (s : State) : workAt (foldBody s) = workAt s ∧ streamAt (foldBody s) = streamAt s := ⟨rfl, rfl⟩

theorem workAt_dotStreamBody (s : State) : workAt (dotStreamBody s) = workAt s := rfl

theorem workAt_candidateGrid (m : BitVec 3) (s : State) :
    workAt (candidateGrid m s) = workAt (candidateWords m s) := by
  rw [candidateGrid, (forceIfHigh_reads m _).1, (foldBody_reads _).1, workAt_dotStreamBody]

theorem streamAt_candidateGrid (m : BitVec 3) (s : State) :
    streamAt (candidateGrid m s) = streamAt (dotStreamBody (candidateWords m s)) := by
  rw [candidateGrid, (forceIfHigh_reads m _).2, (foldBody_reads _).2]

/-- The score and its record change registers only. -/
theorem recordedScore_reads (m : BitVec 3) (s : State) : workAt (recordScore m (scoreBody s)) = workAt s ∧
    streamAt (recordScore m (scoreBody s)) = streamAt s ∧ gridAt (recordScore m (scoreBody s)) = gridAt s :=
  ⟨rfl, rfl, rfl⟩

theorem candidateBody_reads (m : BitVec 3) (s : State) : workAt (candidateBody m s) = workAt (candidateGrid m s) ∧
    streamAt (candidateBody m s) = streamAt (candidateGrid m s) ∧
    gridAt (candidateBody m s) = gridAt (candidateGrid m s) := by
  rw [candidateBody_eq]
  exact recordedScore_reads m _

theorem complete_reads (s : State) : workAt (complete s) = workAt s ∧ streamAt (complete s) = streamAt s ∧
    gridAt (complete s) = gridAt s := ⟨rfl, rfl, rfl⟩

section
variable {s : State} (h : CandidateReady s)
include h

theorem workAt_candidateWords_le (m : BitVec 3) {i : Nat} (hi : i < dLen s + 1 + eLen s) :
    (workAt (candidateWords m s) i).toNat ≤ 112 := by
  have hfit : dLen s + 1 + eLen s ≤ 4096 := h.words_le.trans (by decide)
  by_cases hdata : i < dLen s + 1
  · rw [candidateWords, workAt_rsBody_other hfit _ (.inl hdata)]
    exact workAt_maskBody_le (Nat.mod_lt _ (by decide)) s hdata
  · exact workAt_rsBody_le hfit _ (Nat.le_of_not_lt hdata) hi

theorem workAt_candidateWords_zero (m : BitVec 3) :
    workAt (candidateWords m s) 0 = BitVec.ofNat 9 (m.toNat % 4) := by
  rw [candidateWords, workAt_rsBody_other (h.words_le.trans (by decide)) _ (.inl (Nat.succ_pos _)), workAt_maskBody_zero]

theorem workAt_candidateWords_other (m : BitVec 3) {i : Nat} (hi : dLen s + 1 + eLen s ≤ i) :
    workAt (candidateWords m s) i = workAt s i := by
  rw [candidateWords, workAt_rsBody_other (h.words_le.trans (by decide)) _ (.inr hi), workAt_maskBody, if_neg (by omega)]

/-- A candidate writes WORK[0..d+e], STREAM[0..NDOTS-1] and GRID[0..H*W-1] (R153, R212). -/
theorem candidateGrid_untouched (m : BitVec 3) :
    Untouched (workAt s) (workAt (candidateGrid m s)) 0 (dLen s + 1 + eLen s) ∧
      Untouched (streamAt s) (streamAt (candidateGrid m s)) 0 (dotCapacity s) ∧
      Untouched (gridAt s) (gridAt (candidateGrid m s)) 0 (gridRows s * gridCols s) := by
  have hwords := candidateWords_same m s
  have hfold := hwords.trans ((dotStreamBody_same _).trans (foldBody_same _))
  refine ⟨fun i hi => ?_, fun i hi => ?_, fun i hi => ?_⟩
  · rw [workAt_candidateGrid]
    exact workAt_candidateWords_other h m (by omega)
  · rw [streamAt_candidateGrid, streamAt_dotStreamBody (hwords.ready h).geom (hwords.ready h).fits, hwords.dotCapacity,
      if_neg (by omega), (candidateWords_reads m s).1]
  · have hgeom := (hwords.trans (dotStreamBody_same _)).ready h
    obtain ⟨hrows, hcols⟩ := hfold.dims
    rw [candidateGrid, gridAt_forceIfHigh_other (hfold.ready h).geom m (by rw [hrows, hcols]; omega),
      gridAt_foldBody hgeom.geom, (hwords.trans (dotStreamBody_same _)).dims.1,
      (hwords.trans (dotStreamBody_same _)).dims.2, if_neg (by omega), gridAt_dotStreamBody,
      (candidateWords_reads m s).2]

theorem candidateBody_untouched (m : BitVec 3) :
    Untouched (workAt s) (workAt (candidateBody m s)) 0 (dLen s + 1 + eLen s) ∧
      Untouched (streamAt s) (streamAt (candidateBody m s)) 0 (dotCapacity s) ∧
      Untouched (gridAt s) (gridAt (candidateBody m s)) 0 (gridRows s * gridCols s) := by
  obtain ⟨hwork, hstream, hgrid⟩ := candidateBody_reads m s
  rw [hwork, hstream, hgrid]
  exact candidateGrid_untouched h m

end

/-! The record of the score (R38) -/

theorem setFlag_getLsbD (flags : BitVec 8) (m : BitVec 3) (b : Bool) {k : Nat} (hk : k < 8) :
    (setFlag flags m b).getLsbD k = if k = m.toNat then b else flags.getLsbD k := by
  have hone : (1#8 <<< m.toNat).getLsbD k = decide (k = m.toNat) := by
    rw [BitVec.getLsbD_shiftLeft, BitVec.getLsbD_one, Bool.eq_iff_iff]
    simp
    omega
  unfold setFlag
  split <;> rename_i hb
  · rw [BitVec.getLsbD_or, hone, hb]
    by_cases hm : k = m.toNat <;> simp [hm]
  · rw [BitVec.getLsbD_and, BitVec.getLsbD_not, hone, Bool.eq_false_of_not_eq_true hb]
    by_cases hm : k = m.toNat <;> simp [hm, hk]

/-- The scores on record are as in `s` (R38). -/
def SameRecord (s t : State) : Prop := t.maskScore = s.maskScore ∧ t.msValid = s.msValid ∧ t.msRej = s.msRej

theorem SameRecord.trans {s t u : State} (h : SameRecord s t) (k : SameRecord t u) : SameRecord s u :=
  ⟨k.1.trans h.1, k.2.1.trans h.2.1, k.2.2.trans h.2.2⟩

theorem maskBody_record (m : Nat) (s : State) : SameRecord s (maskBody m s) := ⟨rfl, rfl, rfl⟩

theorem rsBody_record (nd nc : Nat) (s : State) : SameRecord s (rsBody nd nc s) := ⟨rfl, rfl, rfl⟩

theorem dotStreamBody_record (s : State) : SameRecord s (dotStreamBody s) := ⟨rfl, rfl, rfl⟩

theorem foldBody_record (s : State) : SameRecord s (foldBody s) := ⟨rfl, rfl, rfl⟩

theorem forceIfHigh_record (m : BitVec 3) (s : State) : SameRecord s (forceIfHigh m s) := by
  rw [forceIfHigh_frame]
  exact ⟨rfl, rfl, rfl⟩

/-- Up to its grid a candidate leaves the scores on record (R153). -/
theorem candidateGrid_record (m : BitVec 3) (s : State) : SameRecord s (candidateGrid m s) :=
  ((((maskBody_record _ s).trans (rsBody_record _ _ _)).trans (dotStreamBody_record _)).trans (foldBody_record _)).trans
    (forceIfHigh_record m _)

theorem candidateBody_maskScore (m : BitVec 3) (s : State) : (candidateBody m s).maskScore =
    s.maskScore.set m.toNat (candidateBody m s).score m.isLt := by
  obtain ⟨hkeep, -, -⟩ := candidateGrid_record m s
  rw [candidateBody_eq, recordScore_maskScore, recordScore_score, scoreBody_maskScore, hkeep]

theorem candidateBody_msValid (m : BitVec 3) (s : State) :
    (candidateBody m s).msValid = setFlag s.msValid m true := by
  obtain ⟨-, hkeep, -⟩ := candidateGrid_record m s
  rw [candidateBody_eq, recordScore_msValid, scoreBody_msValid, hkeep]

theorem candidateBody_msRej (m : BitVec 3) (s : State) :
    (candidateBody m s).msRej = setFlag s.msRej m (candidateBody m s).reject := by
  obtain ⟨-, -, hkeep⟩ := candidateGrid_record m s
  rw [candidateBody_eq, recordScore_msRej, recordScore_reject, scoreBody_msRej, hkeep]

/-- Settles O21: the three write ranges, the registers' values, and the record of mask `m` alone. -/
theorem candidateWritesOnlyItsResults : Obligations.CandidateWritesOnlyItsResults := by
  intro m s h
  obtain ⟨hwork, hstream, hgrid⟩ := candidateBody_untouched h m
  obtain ⟨hw, hs, hg⟩ := complete_reads (candidateBody m s)
  rw [← hw] at hwork
  rw [← hs] at hstream
  rw [← hg] at hgrid
  have hwords := h.words_le
  refine ⟨_, exec_candidate h m, hwork, hstream, hgrid, ?_, ?_, ?_, ?_, ?_, fun k hk => ?_, ?_⟩
  · rw [complete_streamLen, candidateBody_streamLen, BitVec.toNat_ofNat]
    unfold minDots
    omega
  · rw [complete_rsStep, candidateBody_rsStep, BitVec.toNat_ofNat]
    unfold rsSteps blkMax
    omega
  · simp only [complete_maskScore, candidateBody_maskScore, complete_score, Vector.getElem_set_self]
  · rw [complete_msValid, candidateBody_msValid, setFlag_getLsbD _ _ _ m.isLt, if_pos rfl]
  · rw [complete_msRej, candidateBody_msRej, setFlag_getLsbD _ _ _ m.isLt, if_pos rfl, complete_reject]
  · refine ⟨?_, ?_, ?_⟩
    · simp only [complete_maskScore, candidateBody_maskScore, Fin.getElem_fin, Vector.getElem_set_ne _ _ hk.symm]
    · rw [complete_msValid, candidateBody_msValid, setFlag_getLsbD _ _ _ k.isLt, if_neg hk]
    · rw [complete_msRej, candidateBody_msRej, setFlag_getLsbD _ _ _ k.isLt, if_neg hk]
  · have hframe := candidateBody_same m s
    unfold SameButCandidate at hframe
    have hscValid := candidateBody_scValid m s
    generalize candidateBody m s = t at hframe hscValid
    rw [hframe, hscValid]
    rfl

/-! The commands of a candidate one by one (R153) -/

/-- The next of several commands. -/
theorem execAll_cons {i : Instr} {rest : List Instr} {s t : State} (h : exec i s = .next t) :
    execAll (i :: rest) s = execAll rest t := by
  rw [execAll, h]

theorem execAll_last {i : Instr} {s t : State} (h : exec i s = .next t) : execAll [i] s = .next t :=
  execAll_cons h

theorem foldl_putGrid_complete (l : List (Nat × Nat)) (f : Nat × Nat → Nat) (vs : List CellCode) (s : State) :
    l.foldl (fun t rc => putGrid t (f rc) vs) (complete s) = complete (l.foldl (fun t rc => putGrid t (f rc) vs) s) := by
  induction l generalizing s with
  | nil => rfl
  | cons c l ih => exact ih (putGrid s (f c) vs)

theorem forceCornersBody_complete (s : State) : forceCornersBody (complete s) = complete (forceCornersBody s) :=
  foldl_putGrid_complete _ (fun rc => rc.1 * gridCols s + rc.2) _ s

theorem scoreBody_complete (s : State) : scoreBody (complete s) = complete (scoreBody s) := rfl

theorem complete_complete (s : State) : complete (complete s) = complete s := rfl

/-- The last commands of a candidate, from the completion of FOLD: the corners of the high masks, and SCORE. -/
theorem execAll_forceAndScore {s : State} (g : geomOk (gridRows s) (gridCols s) = true) (m : BitVec 3) :
    execAll (if 4 ≤ m.toNat then [Instr.forceCorners, Instr.score] else [Instr.score]) (complete s) =
      .next (complete (scoreBody (forceIfHigh m s))) := by
  have hscore : ∀ t : State, geomOk (gridRows t) (gridCols t) = true →
      execAll [.score] (complete t) = .next (complete (scoreBody t)) := fun t ht => by
    rw [execAll_last (exec_score (s := complete t) ht), scoreBody_complete, complete_complete]
  unfold forceIfHigh
  split
  · have hgeom : geomOk (gridRows (forceCornersBody s)) (gridCols (forceCornersBody s)) = true := by
      rw [forceCornersBody_frame]
      exact g
    rw [execAll_cons (exec_forceCorners (s := complete s) g), forceCornersBody_complete, complete_complete]
    exact hscore _ hgeom
  · exact hscore s g

/-- Settles O20: every command finds what it checks in range, and each body is that of the candidate. -/
theorem candidateIsItsSteps : Obligations.CandidateIsItsSteps := by
  intro m s h
  have hwords := h.words_le
  have hmask : exec (.maskApply (BitVec.ofNat 2 (m.toNat % 4))) s = .next (complete (maskBody (m.toNat % 4) s)) := by
    have hm : (BitVec.ofNat 2 (m.toNat % 4)).toNat = m.toNat % 4 := Nat.mod_mod _ _
    rw [exec_maskApply h.source, hm]
  have hencode : exec (.rsEncode (BitVec.ofNat 12 (dLen s + 1)) s.eccLen) (complete (maskBody (m.toNat % 4) s)) =
      .next (complete (candidateWords m s)) := by
    have hd : (BitVec.ofNat 12 (dLen s + 1)).toNat = dLen s + 1 := Nat.mod_eq_of_lt (by omega)
    have hfit : dLen s + 1 + s.eccLen.toNat ≤ 4096 := hwords.trans (by decide)
    rw [exec_rsEncode (by rwa [hd]) (by rw [hd]; exact fun i => workAt_maskBody_le (Nat.mod_lt _ (by decide)) s), hd]
    rfl
  have hready := (candidateWords_same m s).ready h
  have hstream : exec .dotStream (complete (candidateWords m s)) =
      .next (complete (dotStreamBody (candidateWords m s))) := by
    refine exec_dotStream (s := complete (candidateWords m s)) hready.geom hready.fits ?_ fun i hi => ?_
    · refine (congrArg BitVec.toNat (workAt_candidateWords_zero h m)).trans_le ?_
      rw [BitVec.toNat_ofNat]
      omega
    · obtain ⟨hd, he⟩ := (candidateWords_same m s).lengths
      have hi : i < dLen (candidateWords m s) + eLen (candidateWords m s) := hi
      exact workAt_candidateWords_le h m (by omega)
  have hgeom := ((dotStreamBody_same _).ready hready).geom
  have hfold : exec .fold (complete (dotStreamBody (candidateWords m s))) =
      .next (complete (foldBody (dotStreamBody (candidateWords m s)))) :=
    exec_fold (s := complete (dotStreamBody (candidateWords m s))) hgeom
  refine ⟨complete (scoreBody (candidateGrid m s)), ?_, ?_⟩
  · rw [candidateSteps, execAll_cons hmask, execAll_cons hencode, execAll_cons hstream, execAll_cons hfold]
    exact execAll_forceAndScore (s := foldBody (dotStreamBody (candidateWords m s))) hgeom m
  · rw [exec_candidate h m, candidateBody_eq]
    rfl

end Sys2Proof.Machine

/-! What a candidate depends on (R180), and what it leaves of the buffers outside its ranges (R153). -/

namespace Sys2Proof.Machine

theorem SameButCandidate.sameInputs {s t : State} (h : SameButCandidate s t) : SameSelectInputs s t := by
  rw [h]
  exact ⟨rfl, rfl, rfl, rfl, rfl, rfl, rfl, fun _ _ => rfl⟩

namespace SameSelectInputs
variable {s t u : State}

theorem dLen_eq (h : SameSelectInputs s t) : dLen s = dLen t := by
  obtain ⟨-, hd, -⟩ := h
  exact congrArg BitVec.toNat hd

theorem symm (h : SameSelectInputs s t) : SameSelectInputs t s := by
  obtain ⟨hp, hd, he, hh, hw, hpin, hmask, hsrc⟩ := h
  exact ⟨hp.symm, hd.symm, he.symm, hh.symm, hw.symm, hpin.symm, hmask.symm,
    fun j hj => (hsrc j (by unfold dLen at hj ⊢; rwa [hd])).symm⟩

theorem trans (h : SameSelectInputs s t) (k : SameSelectInputs t u) : SameSelectInputs s u := by
  have hlen := h.dLen_eq
  obtain ⟨hp, hd, he, hh, hw, hpin, hmask, hsrc⟩ := h
  obtain ⟨hp', hd', he', hh', hw', hpin', hmask', hsrc'⟩ := k
  exact ⟨hp.trans hp', hd.trans hd', he.trans he', hh.trans hh', hw.trans hw', hpin.trans hpin', hmask.trans hmask',
    fun j hj => (hsrc j hj).trans (hsrc' j (hlen ▸ hj))⟩

variable (h : SameSelectInputs s t)
include h

theorem params_eq : s.params = t.params := h.1

theorem eLen_eq : eLen s = eLen t := by
  obtain ⟨-, -, he, -⟩ := h
  exact congrArg BitVec.toNat he

theorem rows_eq : gridRows s = gridRows t := by
  obtain ⟨-, -, -, hh, -⟩ := h
  exact congrArg BitVec.toNat hh

theorem cols_eq : gridCols s = gridCols t := by
  obtain ⟨-, -, -, -, hw, -⟩ := h
  exact congrArg BitVec.toNat hw

theorem dotCapacity_eq : dotCapacity s = dotCapacity t := by rw [dotCapacity, dotCapacity, h.rows_eq, h.cols_eq]

theorem pinEn_eq : s.pinEn = t.pinEn := by
  obtain ⟨-, -, -, -, -, hpin, -⟩ := h
  exact hpin

theorem pinMask_eq : s.pinMask = t.pinMask := by
  obtain ⟨-, -, -, -, -, -, hmask, -⟩ := h
  exact hmask

theorem srcAt_eq {j : Nat} (hj : j < dLen s) : srcAt s j = srcAt t j := by
  obtain ⟨-, -, -, -, -, -, -, hsrc⟩ := h
  exact hsrc j hj

/-- What CANDIDATE checks is among what it reads (R153, R180). -/
theorem ready (hs : CandidateReady s) : CandidateReady t := by
  obtain ⟨hgeom, hfits, hsrc⟩ := hs
  rw [h.rows_eq, h.cols_eq] at hgeom hfits
  rw [h.dLen_eq, h.eLen_eq] at hfits
  refine ⟨hgeom, hfits, fun j hj => ?_⟩
  rw [← h.dLen_eq] at hj
  rw [← h.srcAt_eq hj]
  exact hsrc j hj

end SameSelectInputs

/-- Check words depend on the parameters and the data words (R134, R135). -/
theorem checkWord_congr {nd nc q : Nat} {s t : State} (hp : s.params = t.params)
    (hwork : ∀ i < nd, workAt s i = workAt t i) (hq : q < nd + nc) : checkWord s nd nc q = checkWord t nd nc q := by
  have hblock : q % rsSteps (nd + nc) < rsSteps (nd + nc) := Nat.mod_lt _ (rsSteps_pos (Nat.zero_lt_of_lt hq))
  have hdata : blockData s nd (rsSteps (nd + nc)) (q % rsSteps (nd + nc)) =
      blockData t nd (rsSteps (nd + nc)) (q % rsSteps (nd + nc)) :=
    List.map_congr_left fun i hi => by rw [hwork _ ((lt_blockShare_iff hblock).1 (List.mem_range.1 hi))]
  rw [checkWord, checkWord, blockCheckWords, blockCheckWords, hp, hdata]

section
variable {s t : State} (h : SameSelectInputs s t)
include h

theorem workAt_maskBody_congr (m : Nat) {i : Nat} (hi : i < dLen s + 1) :
    workAt (maskBody m s) i = workAt (maskBody m t) i := by
  rw [workAt_maskBody, workAt_maskBody, ← h.dLen_eq, if_pos hi, if_pos hi]
  split
  · rfl
  · rw [maskedWord, maskedWord, h.srcAt_eq (by omega)]

theorem workAt_candidateWords_congr (hs : CandidateReady s) (m : BitVec 3) {i : Nat} (hi : i < dLen s + 1 + eLen s) :
    workAt (candidateWords m s) i = workAt (candidateWords m t) i := by
  have hfit : dLen s + 1 + eLen s ≤ 4096 := hs.words_le.trans (by decide)
  have hmask := fun i => workAt_maskBody_congr h (m.toNat % 4) (i := i)
  have hparams : (maskBody (m.toNat % 4) s).params = (maskBody (m.toNat % 4) t).params := h.params_eq
  rw [candidateWords, candidateWords, ← h.dLen_eq, ← h.eLen_eq, workAt_rsBody hfit, workAt_rsBody hfit]
  split
  · rw [checkWord_congr hparams hmask hi]
  · exact hmask i (by omega)

theorem filledStream_congr (hwork : ∀ i < dLen s + 1 + eLen s, workAt s i = workAt t i) :
    filledStream s = filledStream t := by
  have hpatterns : ∀ i ∈ List.range (dLen s + eLen s), bitsMsbFirst 9 (romAt s.params (workAt s (1 + i)).toNat) =
      bitsMsbFirst 9 (romAt t.params (workAt t (1 + i)).toNat) := fun i hi => by
    have := List.mem_range.1 hi
    rw [h.params_eq, hwork (1 + i) (by omega)]
  rw [filledStream, filledStream, streamBits, streamBits, hwork 0 (by omega), List.flatMap_congr hpatterns,
    h.dotCapacity_eq, h.dLen_eq, h.eLen_eq]

theorem streamAt_dotStreamBody_congr (hs : CandidateReady s)
    (hwork : ∀ i < dLen s + 1 + eLen s, workAt s i = workAt t i) {i : Nat} (hi : i < dotCapacity s) :
    streamAt (dotStreamBody s) i = streamAt (dotStreamBody t) i := by
  have ht := h.ready hs
  rw [streamAt_dotStreamBody hs.geom hs.fits, streamAt_dotStreamBody ht.geom ht.fits, filledStream_congr h hwork,
    ← h.dotCapacity_eq, if_pos hi, if_pos hi]

/-- A folded grid depends on the geometry and on STREAM[0..NDOTS-1] (R206–R208). -/
theorem gridAt_foldBody_congr (hs : CandidateReady s) (hstream : ∀ i < dotCapacity s, streamAt s i = streamAt t i)
    {i : Nat} (hi : i < gridRows s * gridCols s) : gridAt (foldBody s) i = gridAt (foldBody t) i := by
  rw [gridAt_foldBody hs.geom, gridAt_foldBody (h.ready hs).geom, ← h.rows_eq, ← h.cols_eq, if_pos hi, if_pos hi,
    foldedCell, foldedCell]
  split
  · rename_i hdata
    rw [hstream _ (idxOf_foldOrder_lt hs.geom hi hdata)]
  · rfl

theorem gridAt_forceIfHigh_congr (hs : CandidateReady s) (m : BitVec 3) {i : Nat} (hgrid : gridAt s i = gridAt t i) :
    gridAt (forceIfHigh m s) i = gridAt (forceIfHigh m t) i := by
  unfold forceIfHigh
  split
  · rw [gridAt_forceCornersBody hs.geom, gridAt_forceCornersBody (h.ready hs).geom, h.rows_eq, h.cols_eq, hgrid]
  · exact hgrid

/-- The score depends on the parameters, the geometry and GRID[0..H*W-1] (R160). -/
theorem scoreOf_congr (hgrid : ∀ i < gridRows s * gridCols s, gridAt s i = gridAt t i) : scoreOf s = scoreOf t := by
  have hdot : gridDot s = gridDot t := funext fun x => funext fun y =>
    gridDot_eq_of_cells h.rows_eq h.cols_eq fun i j _ _ hi hj => by
      have hcell : gridAt s (j * gridCols s + i) = _ := hgrid _ (cellIndex_lt (rc := (j, i)) hj hi)
      rw [hcell]
  rw [scoreOf_eq_gridScore, scoreOf_eq_gridScore, hdot, h.params_eq, h.rows_eq, h.cols_eq]

/-- Two states with the same inputs give the same candidate (R180). -/
theorem candidateGrid_congr (hs : CandidateReady s) (m : BitVec 3) :
    (∀ i < dLen s + 1 + eLen s, workAt (candidateGrid m s) i = workAt (candidateGrid m t) i) ∧
      (∀ i < dotCapacity s, streamAt (candidateGrid m s) i = streamAt (candidateGrid m t) i) ∧
      (∀ i < gridRows s * gridCols s, gridAt (candidateGrid m s) i = gridAt (candidateGrid m t) i) := by
  have hsW := candidateWords_same m s
  have htW := candidateWords_same m t
  have hW : SameSelectInputs (candidateWords m s) (candidateWords m t) :=
    hsW.sameInputs.symm.trans (h.trans htW.sameInputs)
  have hsS := dotStreamBody_same (candidateWords m s)
  have hS := hsS.sameInputs.symm.trans (hW.trans (dotStreamBody_same (candidateWords m t)).sameInputs)
  have hsF := foldBody_same (dotStreamBody (candidateWords m s))
  have hF := hsF.sameInputs.symm.trans (hS.trans (foldBody_same (dotStreamBody (candidateWords m t))).sameInputs)
  have hwork := fun i => workAt_candidateWords_congr h hs m (i := i)
  have hstream : ∀ i < dotCapacity s, streamAt (dotStreamBody (candidateWords m s)) i =
      streamAt (dotStreamBody (candidateWords m t)) i := fun i hi =>
    streamAt_dotStreamBody_congr hW (hsW.ready hs) (by rwa [hsW.lengths.1, hsW.lengths.2])
      (by rwa [hsW.dotCapacity])
  have hready := hsS.ready (hsW.ready hs)
  refine ⟨fun i hi => ?_, fun i hi => ?_, fun i hi => ?_⟩
  · rw [workAt_candidateGrid, workAt_candidateGrid, hwork i hi]
  · rw [streamAt_candidateGrid, streamAt_candidateGrid, hstream i hi]
  · refine gridAt_forceIfHigh_congr hF (hsF.ready hready) m (gridAt_foldBody_congr hS hready ?_ ?_)
    · rwa [hsS.dotCapacity, hsW.dotCapacity]
    · rwa [(hsW.trans hsS).dims.1, (hsW.trans hsS).dims.2]

theorem candidateBody_congr (hs : CandidateReady s) (m : BitVec 3) :
    (∀ i < dLen s + 1 + eLen s, workAt (candidateBody m s) i = workAt (candidateBody m t) i) ∧
      (∀ i < dotCapacity s, streamAt (candidateBody m s) i = streamAt (candidateBody m t) i) ∧
      (∀ i < gridRows s * gridCols s, gridAt (candidateBody m s) i = gridAt (candidateBody m t) i) := by
  obtain ⟨hw, hs', hg⟩ := candidateBody_reads m s
  obtain ⟨hw', hs'', hg'⟩ := candidateBody_reads m t
  rw [hw, hs', hg, hw', hs'', hg']
  exact candidateGrid_congr h hs m

/-- The score and the REJECT flag of a candidate depend on its inputs (R180). -/
theorem candidateBody_score_congr (hs : CandidateReady s) (m : BitVec 3) :
    (candidateBody m s).score = (candidateBody m t).score ∧ (candidateBody m s).reject = (candidateBody m t).reject := by
  obtain ⟨-, -, hgrid⟩ := candidateGrid_congr h hs m
  have hG := candidateGrid_same m s
  have hscore : scoreOf (candidateGrid m s) = scoreOf (candidateGrid m t) :=
    scoreOf_congr (hG.sameInputs.symm.trans (h.trans (candidateGrid_same m t).sameInputs))
      (by rwa [hG.dims.1, hG.dims.2])
  rw [candidateBody_eq, candidateBody_eq, recordScore_score, recordScore_score, recordScore_reject, recordScore_reject]
  exact ⟨congrArg (fun v : Int × Bool => BitVec.ofInt 64 v.1) hscore, congrArg Prod.snd hscore⟩

end

/-- What a run of candidates may have written: the result registers, and the buffers inside a candidate's ranges. -/
structure CandidateWrites (s t : State) : Prop where
  /-- Every other field is as it was. -/
  same : SameButCandidate s t
  /-- WORK above `d + e` is as it was. -/
  work : Untouched (workAt s) (workAt t) 0 (dLen s + 1 + eLen s)
  /-- STREAM from NDOTS on is as it was. -/
  stream : Untouched (streamAt s) (streamAt t) 0 (dotCapacity s)
  /-- GRID from `H * W` on is as it was. -/
  grid : Untouched (gridAt s) (gridAt t) 0 (gridRows s * gridCols s)

theorem Untouched.trans {α : Type} {f g k : Nat → α} {lo hi : Nat} (h : Untouched f g lo hi) (h' : Untouched g k lo hi) :
    Untouched f k lo hi := fun i hi => (h' i hi).trans (h i hi)

theorem CandidateWrites.candidate {s t : State} (h : CandidateWrites s t) (hs : CandidateReady s) (m : BitVec 3) :
    CandidateWrites s (candidateBody m t) := by
  obtain ⟨hwork, hstream, hgrid⟩ := candidateBody_untouched (h.same.ready hs) m
  rw [h.same.lengths.1, h.same.lengths.2] at hwork
  rw [h.same.dotCapacity] at hstream
  rw [h.same.dims.1, h.same.dims.2] at hgrid
  exact ⟨h.same.trans (candidateBody_same m t), h.work.trans hwork, h.stream.trans hstream, h.grid.trans hgrid⟩

/-- A function untouched outside `0 .. n - 1` in two ways that agree inside is the same function. -/
theorem Untouched.eq_of_below {α : Type} {f g k : Nat → α} {n : Nat} (hg : Untouched f g 0 n) (hk : Untouched f k 0 n)
    (h : ∀ i < n, g i = k i) : g = k := funext fun i => by
  by_cases hi : i < n
  · exact h i hi
  · rw [hg i (by omega), hk i (by omega)]

/-- Built from what other candidates left, a candidate's buffers are the same as built at once (R179). -/
theorem CandidateWrites.candidate_reads {s t : State} (h : CandidateWrites s t) (hs : CandidateReady s) (m : BitVec 3) :
    workAt (candidateBody m t) = workAt (candidateBody m s) ∧
      streamAt (candidateBody m t) = streamAt (candidateBody m s) ∧
      gridAt (candidateBody m t) = gridAt (candidateBody m s) := by
  have hafter := h.candidate hs m
  obtain ⟨hwork, hstream, hgrid⟩ := candidateBody_untouched hs m
  obtain ⟨hw, hst, hg⟩ := candidateBody_congr h.same.sameInputs hs m
  exact ⟨hafter.work.eq_of_below hwork fun i hi => (hw i hi).symm,
    hafter.stream.eq_of_below hstream fun i hi => (hst i hi).symm,
    hafter.grid.eq_of_below hgrid fun i hi => (hg i hi).symm⟩

end Sys2Proof.Machine

/-! SELECT (R175–R180): the search evaluates the masks one after another, and its winner is the best of those evaluated. -/

namespace Sys2Proof.Machine

/-- MS_VALID cleared, SELECT's first step (R175). -/
def clearRecord (s : State) : State := { s with msValid := 0, msRej := 0 }

theorem clearRecord_writes (s : State) : CandidateWrites s (clearRecord s) :=
  ⟨rfl, fun _ _ => rfl, fun _ _ => rfl, fun _ _ => rfl⟩

theorem clearRecord_ready {s : State} (h : CandidateReady s) : CandidateReady (clearRecord s) :=
  (clearRecord_writes s).same.ready h

/-- The scores on record in `t` are those of the candidates of `s` with the masks in `E`, and no others (R38, R153). -/
structure Recorded (E : Set (BitVec 3)) (s t : State) : Prop where
  /-- VALID. -/
  valid : ∀ m : BitVec 3, t.msValid.getLsbD m.toNat = true ↔ m ∈ E
  /-- MASK_SCORE. -/
  score : ∀ m ∈ E, t.maskScore[m.toNat] = (candidateBody m s).score
  /-- REJ. -/
  reject : ∀ m ∈ E, t.msRej.getLsbD m.toNat = (candidateBody m s).reject
  /-- The masks that are not evaluated. -/
  others : ∀ m ∉ E, t.maskScore[m.toNat] = s.maskScore[m.toNat] ∧ t.msRej.getLsbD m.toNat = false

theorem recorded_clearRecord (s : State) : Recorded ∅ s (clearRecord s) where
  valid m := by simp [clearRecord]
  score m hm := absurd hm (Set.notMem_empty m)
  reject m hm := absurd hm (Set.notMem_empty m)
  others m _ := ⟨rfl, by simp [clearRecord]⟩

/-- One more candidate puts its own score on record. -/
theorem Recorded.candidate {E : Set (BitVec 3)} {s t : State} (h : Recorded E s t) (hs : CandidateReady s)
    (ht : SameSelectInputs s t) (m : BitVec 3) : Recorded (insert m E) s (candidateBody m t) := by
  obtain ⟨hscore, hreject⟩ := candidateBody_score_congr ht hs m
  have hne : ∀ {q : BitVec 3}, q ≠ m → q.toNat ≠ m.toNat := fun hq => mt BitVec.eq_of_toNat_eq hq
  have hold : ∀ {q : BitVec 3}, q ≠ m →
      (candidateBody m t).maskScore[q.toNat] = t.maskScore[q.toNat] ∧
        (candidateBody m t).msRej.getLsbD q.toNat = t.msRej.getLsbD q.toNat := fun {q} hq => by
    simp only [candidateBody_maskScore, candidateBody_msRej, Vector.getElem_set_ne _ _ (hne hq).symm,
      setFlag_getLsbD _ _ _ q.isLt, if_neg (hne hq), and_self]
  have hmem : ∀ {q : BitVec 3}, q ≠ m → q ∈ insert m E → q ∈ E := fun hq h => h.resolve_left hq
  refine ⟨fun q => ?_, fun q hq => ?_, fun q hq => ?_, fun q hq => ?_⟩
  · rw [candidateBody_msValid, setFlag_getLsbD _ _ _ q.isLt]
    by_cases hqm : q = m
    · simp [hqm]
    · simp [if_neg (hne hqm), h.valid q, hqm]
  · by_cases hqm : q = m
    · simp only [hqm, candidateBody_maskScore, Vector.getElem_set_self, hscore]
    · rw [(hold hqm).1, h.score q (hmem hqm hq)]
  · by_cases hqm : q = m
    · rw [hqm, candidateBody_msRej, setFlag_getLsbD _ _ _ m.isLt, if_pos rfl, hreject]
    · rw [(hold hqm).2, h.reject q (hmem hqm hq)]
  · have hqm : q ≠ m := fun heq => hq (heq ▸ Set.mem_insert q E)
    rw [(hold hqm).1, (hold hqm).2]
    exact h.others q fun hqE => hq (Set.mem_insert_of_mem m hqE)

/-- The masks with an id below `k`. -/
def masksBelow (k : Nat) : Set (BitVec 3) := {m | m.toNat < k}

theorem mem_masksBelow {k : Nat} {m : BitVec 3} : m ∈ masksBelow k ↔ m.toNat < k := Iff.rfl

theorem masksBelow_zero : masksBelow 0 = ∅ := Set.eq_empty_of_forall_notMem fun _ hm => Nat.not_lt_zero _ hm

theorem insert_masksBelow (m : BitVec 3) : insert m (masksBelow m.toNat) = masksBelow (m.toNat + 1) := by
  ext q
  rw [Set.mem_insert_iff, mem_masksBelow, mem_masksBelow, ← BitVec.toNat_inj]
  omega

/-- Mask `w` is the best of the masks below `k` under TIE_RULE (R176). -/
structure Winner (p : Config.Params) (score : BitVec 3 → BitVec 64) (k : Nat) (w : BitVec 3) : Prop where
  /-- It is one of them. -/
  mem : w ∈ masksBelow k
  /-- None has a higher score. -/
  best : ∀ m ∈ masksBelow k, (score m).toInt ≤ (score w).toInt
  /-- Under LATER none of the same score has a higher id. -/
  later : p.tieRule = .later → ∀ m ∈ masksBelow k, (score m).toInt = (score w).toInt → m.toNat ≤ w.toNat
  /-- Under EARLIER none of the same score has a lower id. -/
  earlier : p.tieRule = .earlier → ∀ m ∈ masksBelow k, (score m).toInt = (score w).toInt → w.toNat ≤ m.toNat

theorem better_later {p : Config.Params} (hp : p.tieRule = .later) (a b : BitVec 64) :
    better p a b = true ↔ b.toInt ≤ a.toInt := by simp [better, hp]

theorem better_earlier {p : Config.Params} (hp : p.tieRule = .earlier) (a b : BitVec 64) :
    better p a b = true ↔ b.toInt < a.toInt := by simp [better, hp]

theorem winner_first (p : Config.Params) (score : BitVec 3 → BitVec 64) : Winner p score 1 0 := by
  have hzero : ∀ m ∈ masksBelow 1, m = 0 := fun m hm => BitVec.eq_of_toNat_eq (Nat.lt_one_iff.1 hm)
  exact ⟨Nat.zero_lt_one, fun m hm => by rw [hzero m hm], fun _ m hm _ => by rw [hzero m hm], fun _ m hm _ => Nat.zero_le _⟩

/-- Of the best so far and the next mask the better one is the best (R176). -/
theorem Winner.next {p : Config.Params} {score : BitVec 3 → BitVec 64} {m w : BitVec 3}
    (h : Winner p score m.toNat w) :
    Winner p score (m.toNat + 1) (if better p (score m) (score w) then m else w) := by
  have hw : w.toNat < m.toNat := h.mem
  have hcases : ∀ q ∈ masksBelow (m.toNat + 1), q = m ∨ q ∈ masksBelow m.toNat := fun q hq => by
    rwa [← insert_masksBelow] at hq
  cases hrule : p.tieRule with
  | later =>
    simp only [better_later hrule]
    split
    · rename_i hb
      refine ⟨Nat.lt_succ_self _, fun q hq => ?_, fun _ q hq _ => Nat.le_of_lt_succ hq, fun he => by simp [hrule] at he⟩
      rcases hcases q hq with rfl | hq
      · exact le_rfl
      · exact (h.best q hq).trans hb
    · rename_i hb
      refine ⟨Nat.lt_succ_of_lt hw, fun q hq => ?_, fun _ q hq heq => ?_, fun he => by simp [hrule] at he⟩
      all_goals rcases hcases q hq with rfl | hq
      · omega
      · exact h.best q hq
      · omega
      · exact h.later hrule q hq heq
  | earlier =>
    simp only [better_earlier hrule]
    split
    · rename_i hb
      refine ⟨Nat.lt_succ_self _, fun q hq => ?_, fun he => by simp [hrule] at he, fun _ q hq heq => ?_⟩
      all_goals rcases hcases q hq with rfl | hq
      · exact le_rfl
      · exact (h.best q hq).trans hb.le
      · exact le_rfl
      · exact absurd (h.best q hq) (by omega)
    · rename_i hb
      refine ⟨Nat.lt_succ_of_lt hw, fun q hq => ?_, fun he => by simp [hrule] at he, fun _ q hq heq => ?_⟩
      all_goals rcases hcases q hq with rfl | hq
      · omega
      · exact h.best q hq
      · exact hw.le
      · exact h.earlier hrule q hq heq

theorem Winner.unique {p : Config.Params} {score : BitVec 3 → BitVec 64} {k : Nat} {v w : BitVec 3}
    (hv : Winner p score k v) (hw : Winner p score k w) : v = w := by
  have heq : (score v).toInt = (score w).toInt := le_antisymm (hw.best v hv.mem) (hv.best w hw.mem)
  refine BitVec.eq_of_toNat_eq ?_
  cases hrule : p.tieRule with
  | later => exact le_antisymm (hw.later hrule v hv.mem heq) (hv.later hrule w hw.mem heq.symm)
  | earlier => exact le_antisymm (hv.earlier hrule w hw.mem heq.symm) (hw.earlier hrule v hv.mem heq)

/-! The search -/

/-- The score CANDIDATE m gives from `s`. -/
def candidateScore (s : State) (m : BitVec 3) : BitVec 64 := (candidateBody m s).score

/-- The search has evaluated the masks below `k` (R175). -/
structure Searched (s : State) (k : Nat) (r : Search) : Prop where
  /-- Only candidates have run. -/
  writes : CandidateWrites s r.state
  /-- Their scores are on record. -/
  record : Recorded (masksBelow k) s r.state
  /-- The best score is its mask's. -/
  best : r.best = candidateScore s r.mask
  /-- The mask is the best so far. -/
  winner : Winner s.params (candidateScore s) k r.mask

theorem tryMask_eq (r : Search) (m : BitVec 3) : tryMask r m =
    ⟨candidateBody m r.state,
      if better r.state.params (candidateBody m r.state).score r.best then (candidateBody m r.state).score else r.best,
      if better r.state.params (candidateBody m r.state).score r.best then m else r.mask⟩ := by
  have hscore : (candidateBody m r.state).maskScore[m.toNat] = (candidateBody m r.state).score := by
    simp only [candidateBody_maskScore, Vector.getElem_set_self]
  have hparams : (candidateBody m r.state).params = r.state.params := (candidateBody_same m r.state).sameInputs.1.symm
  unfold tryMask
  dsimp only
  rw [hscore, hparams]
  split <;> rfl

section
variable {s : State} (hs : CandidateReady s)
include hs

theorem searched_first : Searched s 1
    ⟨candidateBody 0 (clearRecord s), (candidateBody 0 (clearRecord s)).maskScore[0], 0⟩ := by
  have hwrites := clearRecord_writes s
  have hrecord := (recorded_clearRecord s).candidate hs hwrites.same.sameInputs 0
  have hone : insert 0 ∅ = masksBelow 1 := by
    rw [← masksBelow_zero]
    exact insert_masksBelow 0
  rw [hone] at hrecord
  exact ⟨hwrites.candidate hs 0, hrecord, hrecord.score 0 Nat.zero_lt_one, winner_first _ _⟩

/-- One more candidate of the search (R175, R176). -/
theorem Searched.tryMask {m : BitVec 3} {r : Search} (h : Searched s m.toNat r) :
    Searched s (m.toNat + 1) (tryMask r m) := by
  have hinputs := h.writes.same.sameInputs
  have hscore : (candidateBody m r.state).score = candidateScore s m :=
    (candidateBody_score_congr hinputs hs m).1.symm
  have hrecord := h.record.candidate hs hinputs m
  rw [insert_masksBelow] at hrecord
  rw [tryMask_eq, hscore, h.best, ← hinputs.params_eq]
  exact ⟨h.writes.candidate hs m, hrecord, (apply_ite (candidateScore s) _ _ _).symm, h.winner.next⟩

/-- The four plain masks (R175). -/
theorem searched_plain : Searched s 4 (searchPlain (clearRecord s)) := by
  have h := (((searched_first hs).tryMask hs (m := 1)).tryMask hs (m := 2)).tryMask hs (m := 3)
  rw [searchPlain]
  exact h

/-- All eight masks. -/
theorem Searched.corners {r : Search} (h : Searched s 4 r) : Searched s 8 ([4, 5, 6, 7].foldl Machine.tryMask r) := by
  have h8 : Searched s 8 (Machine.tryMask (Machine.tryMask (Machine.tryMask (Machine.tryMask r 4) 5) 6) 7) :=
    (((h.tryMask hs (m := 4)).tryMask hs (m := 5)).tryMask hs (m := 6)).tryMask hs (m := 7)
  simpa only [List.foldl_cons, List.foldl_nil] using h8

/-- The search evaluates all masks when no plain score is above the threshold, and the plain ones otherwise (R177). -/
theorem searched_all : ∃ k, (k = 4 ∨ k = 8) ∧
    (k = 8 ↔ ∀ m ∈ masksBelow 4, (candidateScore s m).toInt ≤ (dotCapacity s : Int)) ∧
    Searched s k (searchAll (clearRecord s)) := by
  have hplain := searched_plain hs
  have hthreshold : (searchPlain (clearRecord s)).best.toInt ≤ (dotCapacity s : Int) ↔
      ∀ m ∈ masksBelow 4, (candidateScore s m).toInt ≤ (dotCapacity s : Int) := by
    rw [hplain.best]
    exact ⟨fun h m hm => (hplain.winner.best m hm).trans h, fun h => h _ hplain.winner.mem⟩
  have hcapacity : dotCapacity (clearRecord s) = dotCapacity s := rfl
  by_cases h : (searchPlain (clearRecord s)).best.toInt ≤ (dotCapacity s : Int)
  · refine ⟨8, .inr rfl, iff_of_true rfl (hthreshold.1 h), ?_⟩
    rw [searchAll, hcapacity]
    rw [if_pos h]
    exact hplain.corners hs
  · refine ⟨4, .inl rfl, iff_of_false (by decide) (mt hthreshold.2 h), ?_⟩
    rw [searchAll, hcapacity]
    rwa [if_neg h]

end

/-! The commit phase of SELECT -/

/-- What SELECT does when all candidates but the last are built: the last one, and BEST_MASK (R175). -/
def finishSelect (m : BitVec 3) (s : State) : State := { candidateBody m s with bestMask := m, bmValid := true }

theorem selectBody_pinned {s : State} (hp : s.pinEn = true) :
    selectBody s = finishSelect s.pinMask (clearRecord s) := by
  have hchosen := chosen_pinned (s := clearRecord s) hp
  rw [selectBody, ← clearRecord, hchosen]
  rfl

theorem selectBody_searched {s : State} (hp : s.pinEn = false) :
    selectBody s = finishSelect (searchAll (clearRecord s)).mask (searchAll (clearRecord s)).state := by
  have hchosen := chosen_searched (s := clearRecord s) hp
  rw [selectBody, ← clearRecord, hchosen]
  rfl

theorem finishSelect_recorded {E : Set (BitVec 3)} {s t : State} (h : Recorded E s t) (hs : CandidateReady s)
    (ht : SameSelectInputs s t) (m : BitVec 3) : Recorded (insert m E) s (finishSelect m t) := by
  obtain ⟨hvalid, hscore, hreject, hothers⟩ := h.candidate hs ht m
  exact ⟨hvalid, hscore, hreject, hothers⟩

/-- Settles O22: the pinned mask is the only candidate. -/
theorem selectRunsThePinnedMask : Obligations.SelectRunsThePinnedMask := by
  intro s hs hp
  refine ⟨_, exec_candidate (clearRecord_ready hs) s.pinMask, ?_⟩
  rw [exec_select hs, selectBody_pinned hp]
  rfl

section
variable {s : State} (hs : CandidateReady s)
include hs

/-- Pinned or not, SELECT ends with the candidate of its mask, built from what other candidates left (R175, R179). -/
theorem selectBody_eq_finishSelect : ∃ t, CandidateWrites s t ∧ selectBody s = finishSelect (selectBody s).bestMask t := by
  cases hp : s.pinEn with
  | true =>
    rw [selectBody_pinned hp]
    exact ⟨clearRecord s, clearRecord_writes s, rfl⟩
  | false =>
    obtain ⟨k, -, -, hsearched⟩ := searched_all hs
    rw [selectBody_searched hp]
    exact ⟨_, hsearched.writes, rfl⟩

theorem selectBody_recorded_pinned (hp : s.pinEn = true) : Recorded {s.pinMask} s (selectBody s) := by
  rw [selectBody_pinned hp, ← insert_empty_eq]
  exact finishSelect_recorded (recorded_clearRecord s) hs (clearRecord_writes s).same.sameInputs s.pinMask

/-- Not pinned, SELECT has evaluated the masks below 4 or all, by the threshold, and its mask is their best (R175–R177). -/
theorem selectBody_recorded_searched (hp : s.pinEn = false) : ∃ k, (k = 4 ∨ k = 8) ∧
    (k = 8 ↔ ∀ m ∈ masksBelow 4, (candidateScore s m).toInt ≤ (dotCapacity s : Int)) ∧
    Recorded (masksBelow k) s (selectBody s) ∧ Winner s.params (candidateScore s) k (selectBody s).bestMask := by
  obtain ⟨k, hk, hthreshold, h⟩ := searched_all hs
  have hrecord := finishSelect_recorded h.record hs h.writes.same.sameInputs (searchAll (clearRecord s)).mask
  rw [Set.insert_eq_of_mem h.winner.mem] at hrecord
  rw [selectBody_searched hp]
  exact ⟨k, hk, hthreshold, hrecord, h.winner⟩

end

/-- Two flag registers with the same bit for every mask are equal. -/
theorem flags_ext {a b : BitVec 8} (h : ∀ m : BitVec 3, a.getLsbD m.toNat = b.getLsbD m.toNat) : a = b :=
  BitVec.eq_of_getLsbD_eq fun i hi => by
    have hm : (BitVec.ofNat 3 i).toNat = i := Nat.mod_eq_of_lt hi
    rw [← hm]
    exact h _

theorem Recorded.msValid_eq {E : Set (BitVec 3)} {s t : State} (h : Recorded E s t) {v : BitVec 8}
    (hv : ∀ m : BitVec 3, v.getLsbD m.toNat = true ↔ m ∈ E) : t.msValid = v :=
  flags_ext fun m => Bool.eq_iff_iff.2 ((h.valid m).trans (hv m).symm)

theorem masksBelow_four (m : BitVec 3) : (0x0F#8).getLsbD m.toNat = true ↔ m ∈ masksBelow 4 := by
  rw [mem_masksBelow]
  revert m
  decide

theorem masksBelow_eight (m : BitVec 3) : (0xFF#8).getLsbD m.toNat = true ↔ m ∈ masksBelow 8 := by
  rw [mem_masksBelow]
  revert m
  decide

/-- The threshold on the plain scores is one on those on record (R177). -/
theorem Recorded.plainScores_le {E : Set (BitVec 3)} {s t : State} (h : Recorded E s t) (hE : masksBelow 4 ⊆ E) (c : Int) :
    (∀ m ∈ masksBelow 4, (candidateScore s m).toInt ≤ c) ↔ ∀ m : Fin 4, (t.maskScore[m.val]).toInt ≤ c := by
  have hscore : ∀ m ∈ masksBelow 4, candidateScore s m = t.maskScore[m.toNat] := fun m hm => (h.score m (hE hm)).symm
  refine ⟨fun hle m => ?_, fun hle m hm => ?_⟩
  · have hm : (BitVec.ofNat 3 m.val).toNat = m.val := Nat.mod_eq_of_lt (m.isLt.trans (by decide))
    have hmem : BitVec.ofNat 3 m.val ∈ masksBelow 4 := mem_masksBelow.2 (hm.trans_lt m.isLt)
    have hbound := hle _ hmem
    rw [hscore _ hmem] at hbound
    simpa only [hm] using hbound
  · rw [hscore m hm]
    exact hle ⟨m.toNat, hm⟩

theorem selectBody_bmValid (s : State) : (selectBody s).bmValid = true := rfl

/-- Settles O23: the search's record and its winner. -/
theorem selectChoosesTheBestMask : Obligations.SelectChoosesTheBestMask := by
  intro s hs hp
  obtain ⟨k, hk, hthreshold, hrecord, hwinner⟩ := selectBody_recorded_searched hs hp
  refine ⟨_, exec_select hs, selectBody_bmValid s, ?_⟩
  simp only [complete_msValid, complete_maskScore, complete_msRej, complete_bestMask]
  generalize selectBody s = t at hrecord hwinner ⊢
  have hsub : masksBelow 4 ⊆ masksBelow k := fun m hm =>
    mem_masksBelow.2 (Nat.lt_of_lt_of_le hm (by omega))
  have hall : t.msValid = 0xFF#8 ↔ k = 8 := by
    rcases hk with rfl | rfl
    · rw [hrecord.msValid_eq masksBelow_four]
      decide
    · exact iff_of_true (hrecord.msValid_eq masksBelow_eight) rfl
  refine ⟨?_, ?_, fun m hm => ?_, fun m hm => ?_, (hrecord.valid _).2 hwinner.mem, fun m hm => ?_⟩
  · exact hk.imp (fun h4 => hrecord.msValid_eq (by rw [h4]; exact masksBelow_four)) hall.2
  · exact hall.trans (hthreshold.trans (hrecord.plainScores_le hsub _))
  · have hmem := (hrecord.valid m).1 hm
    exact ⟨_, exec_candidate hs m, hrecord.score m hmem, hrecord.reject m hmem⟩
  · exact hrecord.others m fun hmem => by simp [(hrecord.valid m).2 hmem] at hm
  · have hmem := (hrecord.valid m).1 hm
    rw [hrecord.score m hmem, hrecord.score _ hwinner.mem]
    exact ⟨hwinner.best m hmem, fun heq => ⟨fun h => hwinner.later h m hmem heq, fun h => hwinner.earlier h m hmem heq⟩⟩

/-- The result registers that SELECT leaves as its last candidate does hold the same (R179). -/
structure SameResults (t u : State) : Prop where
  /-- STREAM_LEN. -/
  streamLen : t.streamLen = u.streamLen
  /-- RS_STEP. -/
  rsStep : t.rsStep = u.rsStep
  /-- SCORE. -/
  score : t.score = u.score
  /-- REJECT. -/
  reject : t.reject = u.reject
  /-- SC_VALID. -/
  scValid : t.scValid = u.scValid

theorem SameResults.trans {t u v : State} (h : SameResults t u) (k : SameResults u v) : SameResults t v :=
  ⟨h.streamLen.trans k.streamLen, h.rsStep.trans k.rsStep, h.score.trans k.score, h.reject.trans k.reject,
    h.scValid.trans k.scValid⟩

theorem SameResults.symm {t u : State} (h : SameResults t u) : SameResults u t :=
  ⟨h.streamLen.symm, h.rsStep.symm, h.score.symm, h.reject.symm, h.scValid.symm⟩

theorem candidateBody_results {s t : State} (h : SameSelectInputs s t) (hs : CandidateReady s) (m : BitVec 3) :
    SameResults (candidateBody m s) (candidateBody m t) := by
  obtain ⟨hscore, hreject⟩ := candidateBody_score_congr h hs m
  refine ⟨?_, ?_, hscore, hreject, ?_⟩
  · rw [candidateBody_streamLen, candidateBody_streamLen, h.dLen_eq, h.eLen_eq]
  · rw [candidateBody_rsStep, candidateBody_rsStep, h.dLen_eq, h.eLen_eq]
  · rw [candidateBody_scValid, candidateBody_scValid]

/-! What SELECT's end holds of its last candidate. -/

section
variable {t x : State} {m : BitVec 3} (h : t = finishSelect m x)
include h

theorem finishSelect_reads : workAt t = workAt (candidateBody m x) ∧ streamAt t = streamAt (candidateBody m x) ∧
    gridAt t = gridAt (candidateBody m x) := by
  rw [h, finishSelect]
  exact ⟨rfl, rfl, rfl⟩

theorem finishSelect_results : SameResults t (candidateBody m x) := by
  rw [h, finishSelect]
  exact ⟨rfl, rfl, rfl, rfl, rfl⟩

theorem finishSelect_score : t.score = t.maskScore[m.toNat] := by
  have hscore : (candidateBody m x).score = (candidateBody m x).maskScore[m.toNat] := by
    simp only [candidateBody_maskScore, Vector.getElem_set_self]
  rw [h, finishSelect]
  exact hscore

end

/-- Settles O24: the last candidate is the winner's, and the frame is that of the commit phase. -/
theorem selectLeavesTheWinner : Obligations.SelectLeavesTheWinner := by
  intro s hs
  have hframe := selectBody_frame s
  obtain ⟨x, hx, hselect⟩ := selectBody_eq_finishSelect hs
  refine ⟨complete (selectBody s), _, exec_select hs, exec_candidate hs _, ?_⟩
  simp only [complete_bestMask]
  generalize selectBody s = t at hselect hframe ⊢
  have hresults : SameResults t (candidateBody t.bestMask s) :=
    (finishSelect_results hselect).trans (candidateBody_results hx.same.sameInputs hs _).symm
  have hscore : t.score = t.maskScore[t.bestMask.toNat] := finishSelect_score hselect
  have hvalid : t.scValid = true := hresults.scValid.trans (candidateBody_scValid _ s)
  obtain ⟨hwork, hstream, hgrid⟩ := finishSelect_reads hselect
  obtain ⟨hwork', hstream', hgrid'⟩ := hx.candidate_reads hs t.bestMask
  refine ⟨congrFun (hwork.trans hwork'), congrFun (hstream.trans hstream'), congrFun (hgrid.trans hgrid'),
    hresults.streamLen, hresults.rsStep, hresults.score, hresults.reject, hresults.scValid, hscore, ?_⟩
  rw [hvalid] at hframe
  rw [hframe]
  rfl

/-- SELECT evaluates the same masks from the same inputs and chooses the same one (R180). -/
theorem selectBody_sameRecord {s r : State} (h : SameSelectInputs s r) (hs : CandidateReady s) :
    ∃ E, Recorded E s (selectBody s) ∧ Recorded E r (selectBody r) ∧ (selectBody s).bestMask = (selectBody r).bestMask := by
  have hr := h.ready hs
  have hscore : candidateScore s = candidateScore r := funext fun m => (candidateBody_score_congr h hs m).1
  cases hp : s.pinEn with
  | true =>
    have hp' : r.pinEn = true := h.pinEn_eq ▸ hp
    refine ⟨{s.pinMask}, selectBody_recorded_pinned hs hp, ?_, ?_⟩
    · rw [h.pinMask_eq]
      exact selectBody_recorded_pinned hr hp'
    · rw [selectBody_pinned hp, selectBody_pinned hp']
      exact h.pinMask_eq
  | false =>
    have hp' : r.pinEn = false := h.pinEn_eq ▸ hp
    obtain ⟨k, hk, hthreshold, hrecord, hwinner⟩ := selectBody_recorded_searched hs hp
    obtain ⟨k', hk', hthreshold', hrecord', hwinner'⟩ := selectBody_recorded_searched hr hp'
    rw [← hscore, ← h.dotCapacity_eq, ← hthreshold] at hthreshold'
    obtain rfl : k = k' := by omega
    rw [← hscore, ← h.params_eq] at hwinner'
    exact ⟨_, hrecord, hrecord', hwinner.unique hwinner'⟩

/-- The same masks with the same scores make the same record. -/
theorem Recorded.congr {E : Set (BitVec 3)} {s r t u : State} (h : Recorded E s t) (k : Recorded E r u)
    (hinputs : SameSelectInputs s r) (hs : CandidateReady s) :
    t.msValid = u.msValid ∧ t.msRej = u.msRej ∧
      ∀ m : BitVec 3, t.msValid.getLsbD m.toNat = true → t.maskScore[m.toNat] = u.maskScore[m.toNat] := by
  have hsame := candidateBody_score_congr hinputs hs
  refine ⟨h.msValid_eq k.valid, flags_ext fun m => ?_, fun m hm => ?_⟩
  · by_cases hmem : m ∈ E
    · rw [h.reject m hmem, k.reject m hmem, (hsame m).2]
    · rw [(h.others m hmem).2, (k.others m hmem).2]
  · have hmem := (h.valid m).1 hm
    rw [h.score m hmem, k.score m hmem, (hsame m).1]

/-- Settles O25: the records are of the same scores, and the last candidates are of the same mask and inputs. -/
theorem selectDependsOnlyOnItsInputs : Obligations.SelectDependsOnlyOnItsInputs := by
  intro s r h hs
  obtain ⟨E, hrecord, hrecord', hmask⟩ := selectBody_sameRecord h hs
  obtain ⟨hvalid, hrej, hscores⟩ := hrecord.congr hrecord' h hs
  obtain ⟨x, hx, hselect⟩ := selectBody_eq_finishSelect hs
  obtain ⟨y, hy, hselect'⟩ := selectBody_eq_finishSelect (h.ready hs)
  refine ⟨_, _, exec_select hs, exec_select (h.ready hs), hmask, ?_⟩
  generalize selectBody s = t at *
  generalize selectBody r = u at *
  rw [← hmask] at hselect'
  have hinputs : SameSelectInputs x y := hx.same.sameInputs.symm.trans (h.trans hy.same.sameInputs)
  have hxs := hx.same.ready hs
  have hresults : SameResults t u := (finishSelect_results hselect).trans
    ((candidateBody_results hinputs hxs _).trans (finishSelect_results hselect').symm)
  obtain ⟨hwork, hstream, hgrid⟩ := candidateBody_congr hinputs hxs t.bestMask
  obtain ⟨htw, hts, htg⟩ := finishSelect_reads hselect
  obtain ⟨huw, hus, hug⟩ := finishSelect_reads hselect'
  rw [← htw, ← huw, hx.same.lengths.1, hx.same.lengths.2] at hwork
  rw [← hts, ← hus, hx.same.dotCapacity] at hstream
  rw [← htg, ← hug, hx.same.dims.1, hx.same.dims.2] at hgrid
  refine ⟨hresults.score, hresults.reject, hvalid, hrej, hresults.streamLen, hresults.rsStep, fun m hm => ?_, hwork,
    hstream, hgrid⟩
  have hid : (BitVec.ofNat 3 m.val).toNat = m.val := Nat.mod_eq_of_lt m.isLt
  have hm := hscores (BitVec.ofNat 3 m.val) (by rw [hid]; exact hm)
  simp only [hid] at hm
  exact hm

end Sys2Proof.Machine

/-! The check phases of the grid commands, SIZE and RUN (R190, R193, R195, R233): which code they find. -/

namespace Sys2Proof.Machine

/-- A check phase of two parts finds the code of the first part, else that of the second (R251). -/
theorem firstError_append (l m : List (Bool × ErrCode)) : firstError (l ++ m) = (firstError l).or (firstError m) := by
  induction l with
  | nil => rfl
  | cons c l ih =>
    obtain ⟨b, e⟩ := c
    cases b
    · exact ih
    · rfl

/-- A command whose check phase found a code ends in that error. -/
theorem exec_of_checkPhase {i : Instr} {s : State} {c : ErrCode} (h : checkPhase i s = some c) :
    exec i s = .next (raiseError c s) :=
  exec_eq_next.2 (.inr ⟨c, h, rfl⟩)

/-- A command whose check phase found nothing completes its commit phase. -/
theorem exec_of_checkPhase_none {i : Instr} {s : State} (h : checkPhase i s = none) :
    exec i s = .next (complete (commitPhase i s)) :=
  exec_eq_next.2 (.inl ⟨h, rfl⟩)

/-- Settles O31: a value of ECC_FN fits the twelve bits of ECC_LEN. -/
theorem eccLenAppliesEccFn : Obligations.EccLenAppliesEccFn := by
  intro s hecc
  have hlen : eLen (complete (eccLenBody s)) = eccAt s.params.eccFn (dLen s) :=
    Nat.mod_eq_of_lt (Nat.lt_succ_of_le (eccAt_le hecc (Nat.le_of_lt_succ (dLen_lt s))))
  refine ⟨_, exec_of_checkPhase_none rfl, hlen, fun haffine => ?_, rfl⟩
  exact hlen.trans (congrArg (eccAt · (dLen s)) haffine)

/-! The geometry (R195). -/

theorem badGeom_eq_true {s : State}
    (h : ¬(5 ≤ gridRows s ∧ gridRows s ≤ 200 ∧ 5 ≤ gridCols s ∧ gridCols s ≤ 200 ∧ (gridRows s + gridCols s) % 2 = 1)) :
    badGeom s = true := by
  rw [badGeom, Bool.not_eq_true']
  exact Bool.eq_false_iff.2 fun g => h (geomOk_iff.1 g)

/-- The geometry is the first condition that a grid command checks (R195). -/
theorem checkPhase_of_badGeom {s : State} (h : badGeom s = true) {i : Instr} {m : BitVec 3}
    (hi : i ∈ [Instr.pad, .dotStream, .fold, .forceCorners, .score, .candidate m, .select]) :
    checkPhase i s = some .cfgGeom := by
  have hfirst (rest : List (Bool × ErrCode)) : firstError ((badGeom s, .cfgGeom) :: rest) = some .cfgGeom := by
    rw [h]
    rfl
  simp only [List.mem_cons, List.not_mem_nil, or_false] at hi
  rcases hi with rfl | rfl | rfl | rfl | rfl | rfl | rfl <;> exact hfirst _

/-- Settles O41: the geometry is checked first, and a legal one has an even area. -/
theorem badGeometryRaisesCfgGeom : Obligations.BadGeometryRaisesCfgGeom := by
  refine ⟨fun s m hgeom i hi => exec_of_checkPhase (checkPhase_of_badGeom (badGeom_eq_true hgeom) hi),
    fun h w hh hh' hw hw' hodd => ?_⟩
  obtain ⟨-, -, hdouble⟩ := geom_area (geomOk_iff.2 ⟨hh, hh', hw, hw', hodd⟩)
  exact ⟨by omega, hdouble⟩

/-! The width and the computed size (R190, R193), checked by SIZE with ECC_LEN and by RUN with `ECC_FN(DATA_LEN)` check
codewords. -/

/-- The capacity code of a computed size, if it has one (R193). -/
def capacityCode (h w : Nat) : Option ErrCode :=
  if 200 < h ∧ 200 < w then some .capBothLarge
  else if 200 < h then some .capHLarge
  else if 200 < w then some .capWLarge
  else if h < 5 ∨ w < 5 then some .capSmall
  else none

/-- With a legal width, the checks of SIZE are those of the computed size (R190). -/
theorem firstError_sizeErrors {wr : Nat} (hwr : wr = 0 ∨ (5 ≤ wr ∧ wr ≤ 200)) (p : Config.Params) (d e : Nat) :
    firstError (sizeErrors p d e wr) = capacityCode (sizeFor p d e wr).1 (sizeFor p d e wr).2 := by
  have hwidth : (wr != 0 && (decide (wr < minDim) || decide (maxDim < wr))) = false := by
    rcases hwr with rfl | ⟨hlow, hhigh⟩
    · rfl
    · simpa using fun _ => ⟨hlow, hhigh⟩
  simp only [sizeErrors, hwidth, firstError, Bool.and_eq_true, Bool.or_eq_true, decide_eq_true_eq, Bool.false_eq_true,
    if_false]
  rfl

/-- With an illegal width, the first check finds CFG_WIDTH (R190). -/
theorem firstError_sizeErrors_width {wr : Nat} (h0 : wr ≠ 0) (hwr : wr < 5 ∨ 200 < wr) (p : Config.Params) (d e : Nat) :
    firstError (sizeErrors p d e wr) = some .cfgWidth := by
  have hwidth : (wr != 0 && (decide (wr < minDim) || decide (maxDim < wr))) = true := by
    simpa using ⟨h0, hwr⟩
  rw [sizeErrors, hwidth]
  rfl

theorem capacityCode_eq_none {h w : Nat} :
    capacityCode h w = none ↔ 5 ≤ h ∧ h ≤ 200 ∧ 5 ≤ w ∧ w ≤ 200 := by
  unfold capacityCode
  split_ifs <;> simp <;> omega

/-- The commands that compute a size, each with its check length (R190, R238). -/
def SizesWith (s : State) (e : Nat) (i : Instr) : Prop :=
  (i = .size ∧ e = eLen s) ∨ (i = .run ∧ e = eccAt s.params.eccFn (dLen s))

/-- RUN makes SIZE's checks before its own (R233). -/
theorem exec_of_sizeErrors {s : State} {e : Nat} {i : Instr} (hi : SizesWith s e i) {c : ErrCode}
    (hc : firstError (sizeErrors s.params (dLen s) e s.widthReq.toNat) = some c) :
    exec i s = .next (raiseError c s) := by
  refine exec_of_checkPhase ?_
  obtain ⟨rfl, rfl⟩ | ⟨rfl, rfl⟩ := hi
  · exact hc
  · refine (firstError_append _ _).trans ?_
    rw [runEcc, hc]
    rfl

/-- Settles O35: the width is the first condition that SIZE and RUN check. -/
theorem illegalWidthRaisesCfgWidth : Obligations.IllegalWidthRaisesCfgWidth := fun _ h0 hwr =>
  ⟨exec_of_sizeErrors (.inl ⟨rfl, rfl⟩) (firstError_sizeErrors_width h0 hwr _ _ _),
    exec_of_sizeErrors (.inr ⟨rfl, rfl⟩) (firstError_sizeErrors_width h0 hwr _ _ _)⟩

theorem exec_size_fits {s : State}
    (h : firstError (sizeErrors s.params (dLen s) (eLen s) s.widthReq.toNat) = none) :
    exec .size s = .next (complete (setSize (sizeFor s.params (dLen s) (eLen s) s.widthReq.toNat) s)) :=
  exec_of_checkPhase_none h

/-- With data codewords in range, RUN's checks are SIZE's (R233). -/
theorem exec_run_fits {s : State}
    (h : firstError (sizeErrors s.params (dLen s) (eccAt s.params.eccFn (dLen s)) s.widthReq.toNat) = none)
    (hsrc : SourceInRange s) : exec .run s = .next (complete (runBody s)) := by
  refine exec_of_checkPhase_none ((firstError_append _ _).trans ?_)
  rw [runEcc, h, badSource_eq_false hsrc]
  rfl

/-- RUN leaves the size it computed: PAD and SELECT write no grid dimension (R233). -/
theorem runBody_dims (s : State) :
    (runBody s).gridH = BitVec.ofNat 8 (sizeFor s.params (dLen s) (runEcc s) s.widthReq.toNat).1 ∧
      (runBody s).gridW = BitVec.ofNat 8 (sizeFor s.params (dLen s) (runEcc s) s.widthReq.toNat).2 := by
  rw [runBody, selectBody_frame, padBody_frame]
  exact ⟨rfl, rfl⟩

end Sys2Proof.Machine

/-! The size itself: automatic (R191) and pinned (R192). -/

namespace Sys2Proof.Machine

/-- The product of the roots is below an area that 3 does not divide, as every area `18 * (d + e) + 4` is (R191). -/
theorem mul_roots_lt {area h w : Nat} (h3 : area % 3 ≠ 0) (hh : h * h ≤ 2 * area / 3) (hw : w * w ≤ 3 * area / 2) :
    h * w < area := by
  have hrows : 3 * (h * h) < 2 * area := by omega
  have hcols : 2 * (w * w) ≤ 3 * area := by omega
  have hsquare : 6 * ((h * w) * (h * w)) < 6 * (area * area) :=
    calc 6 * ((h * w) * (h * w)) = 3 * (h * h) * (2 * (w * w)) := by ring
      _ ≤ 3 * (h * h) * (3 * area) := Nat.mul_le_mul_left _ hcols
      _ < 2 * area * (3 * area) := Nat.mul_lt_mul_of_pos_right hrows (by omega)
      _ = 6 * (area * area) := by ring
  exact Nat.mul_self_lt_mul_self_iff.1 (Nat.lt_of_mul_lt_mul_left hsquare)

/-- Automatic sizing with the default SIZE_TIE: with an odd sum the roots are too small, and with an even sum the candidates
are tried in order (R191). -/
theorem autoSize_of_roots {p : Config.Params} {d e h w : Nat} (htie : p.sizeTie = [(0, 1), (1, 0), (1, 2)])
    (hh : h * h ≤ 2 * minArea d e / 3) (hh' : 2 * minArea d e / 3 < (h + 1) * (h + 1))
    (hw : w * w ≤ 3 * minArea d e / 2) (hw' : 3 * minArea d e / 2 < (w + 1) * (w + 1)) :
    autoSize p d e = if (h + w) % 2 = 1 then (h + 1, w + 1)
      else if minArea d e ≤ h * (w + 1) then (h, w + 1)
      else if minArea d e ≤ (h + 1) * w then (h + 1, w)
      else (h + 1, w + 2) := by
  have hsmall : h * w < minArea d e := mul_roots_lt (by unfold minArea minDots; omega) hh hw
  have hfirst : tieSize h w (0, 1) = (h, w + 1) := rfl
  have hsecond : tieSize h w (1, 0) = (h + 1, w) := rfl
  have hlast : tieSize h w (1, 2) = (h + 1, w + 2) := rfl
  simp only [autoSize, isqrt_unique hh hh', isqrt_unique hw hw', htie, tieBreak, hfirst, hsecond, hlast, if_pos hsmall]

/-- A size that passes the checks is what the geometry registers hold (R30, R31). -/
theorem ofNat_toNat_of_le {n : Nat} (h : n ≤ 200) : (BitVec.ofNat 8 n).toNat = n :=
  Nat.mod_eq_of_lt (by omega)

/-- Settles O32: the roots fix the size, and the size the capacity code. -/
theorem automaticSizeFollowsTheRoots : Obligations.AutomaticSizeFollowsTheRoots := by
  intro s e area h0 w0 h w hwr htie harea hh hh' hw hw' hhw
  obtain rfl : area = minArea (dLen s) e := harea
  have hsize : sizeFor s.params (dLen s) e s.widthReq.toNat = (h, w) := by
    rw [sizeFor, if_pos hwr, hhw]
    exact autoSize_of_roots htie hh hh' hw hw'
  have hcode : firstError (sizeErrors s.params (dLen s) e s.widthReq.toNat) = capacityCode h w := by
    rw [firstError_sizeErrors (.inl hwr), hsize]
  refine ⟨?_, ?_, fun i hi => ⟨fun hh hw => ?_, fun hh hw => ?_, fun hh hw hlow => ?_⟩⟩
  · rintro rfl hh hh' hw hw'
    rw [exec_size_fits (hcode.trans (capacityCode_eq_none.2 ⟨hh, hh', hw, hw'⟩)), hsize]
    rfl
  · rintro rfl hh hh' hw hw' hsrc
    obtain ⟨hrows, hcols⟩ := runBody_dims s
    rw [runEcc, hsize] at hrows hcols
    refine ⟨_, exec_run_fits (hcode.trans (capacityCode_eq_none.2 ⟨hh, hh', hw, hw'⟩)) hsrc, ?_, ?_⟩
    · exact (congrArg BitVec.toNat hrows).trans (ofNat_toNat_of_le hh')
    · exact (congrArg BitVec.toNat hcols).trans (ofNat_toNat_of_le hw')
  · exact exec_of_sizeErrors hi (hcode.trans (if_pos ⟨hh, hw⟩))
  · refine exec_of_sizeErrors hi (hcode.trans ?_)
    simp [capacityCode, Nat.not_lt.2 hh, hw]
  · refine exec_of_sizeErrors hi (hcode.trans ?_)
    simp [capacityCode, Nat.not_lt.2 hh, Nat.not_lt.2 hw, hlow]

/-- A pinned size is at least the smallest, and it has the pinned width (R192). -/
theorem pinnedSize_bounds (d e w : Nat) : 5 ≤ (pinnedSize d e w).1 ∧ (pinnedSize d e w).2 = w := by
  have hmin : 5 ≤ max ((minArea d e + w - 1) / w) minDim := Nat.le_max_right _ _
  unfold pinnedSize
  dsimp only
  split
  · exact ⟨Nat.le_succ_of_le hmin, rfl⟩
  · exact ⟨hmin, rfl⟩

/-- Settles O33: with a legal width only the height can fail a check. -/
theorem pinnedSizeFollowsTheWidth : Obligations.PinnedSizeFollowsTheWidth := by
  intro s e area h0 h hlow hhigh harea hh0 hh
  have hsize : sizeFor s.params (dLen s) e s.widthReq.toNat = (h, s.widthReq.toNat) := by
    rw [sizeFor, if_neg (by omega), hh, hh0, harea]
    exact (apply_ite (·, s.widthReq.toNat) _ _ _).symm
  have hmin : 5 ≤ h := by
    rw [hh, hh0]
    split <;> omega
  have hcode : firstError (sizeErrors s.params (dLen s) e s.widthReq.toNat) = capacityCode h s.widthReq.toNat := by
    rw [firstError_sizeErrors (.inr ⟨hlow, hhigh⟩), hsize]
  have hfits (hle : h ≤ 200) : firstError (sizeErrors s.params (dLen s) e s.widthReq.toNat) = none :=
    hcode.trans (capacityCode_eq_none.2 ⟨hmin, hle, hlow, hhigh⟩)
  have hlarge (hgt : ¬ h ≤ 200) {i : Instr} (hi : SizesWith s e i) : exec i s = .next (raiseError .capHLarge s) := by
    refine exec_of_sizeErrors hi (hcode.trans ?_)
    simp [capacityCode, Nat.lt_of_not_le hgt, Nat.not_lt.2 hhigh]
  have hwidth : BitVec.ofNat 8 s.widthReq.toNat = s.widthReq :=
    (BitVec.ofNat_toNat 8 s.widthReq).trans (BitVec.setWidth_eq s.widthReq)
  refine ⟨?_, ?_⟩
  · rintro rfl
    split
    · rename_i hle
      rw [exec_size_fits (hfits hle), hsize, setSize, hwidth]
      rfl
    · rename_i hgt
      exact hlarge hgt (.inl ⟨rfl, rfl⟩)
  · rintro rfl
    split
    · rename_i hle
      intro hsrc
      obtain ⟨hrows, hcols⟩ := runBody_dims s
      rw [runEcc, hsize] at hrows hcols
      exact ⟨_, exec_run_fits (hfits hle) hsrc, (congrArg BitVec.toNat hrows).trans (ofNat_toNat_of_le hle),
        hcols.trans hwidth⟩
    · rename_i hgt
      exact hlarge hgt (.inr ⟨rfl, rfl⟩)

/-! The geometry SIZE leaves is legal (R190, R195). -/

/-- A candidate of SIZE_TIE that lowers no dimension to 0 makes an even sum odd (log 13). -/
theorem tieSize_odd {h w : Nat} {c : Int × Int} (hc : (c.1 + c.2) % 2 = 1) (heven : (h + w) % 2 = 0)
    (hrows : 0 < (tieSize h w c).1) (hcols : 0 < (tieSize h w c).2) :
    ((tieSize h w c).1 + (tieSize h w c).2) % 2 = 1 := by
  unfold tieSize adjust at *
  dsimp only at *
  omega

theorem sizeTieWf_odd {l : List (Int × Int)} (hl : sizeTieWf l = true) : ∀ c ∈ l, (c.1 + c.2) % 2 = 1 := by
  rw [sizeTieWf, Bool.and_eq_true] at hl
  obtain ⟨hall, -⟩ := hl
  exact fun c hc => of_decide_eq_true (List.all_eq_true.1 hall c hc)

/-- Automatic sizing makes the sum odd (R191). -/
theorem autoSize_odd {p : Config.Params} (hp : sizeTieWf p.sizeTie = true) {d e : Nat}
    (hrows : 0 < (autoSize p d e).1) (hcols : 0 < (autoSize p d e).2) :
    ((autoSize p d e).1 + (autoSize p d e).2) % 2 = 1 := by
  unfold autoSize at *
  dsimp only at *
  generalize isqrt (2 * minArea d e / 3) = h at *
  generalize isqrt (3 * minArea d e / 2) = w at *
  by_cases hodd : (h + w) % 2 = 1
  · rw [if_pos hodd]
    split <;> dsimp only <;> omega
  · obtain ⟨last, hlast, -⟩ := sizeTieWf_last hp
    obtain ⟨c, hc, hsize, -⟩ := tieBreak_spec (minArea d e) h w p.sizeTie
      (by rintro hnil; rw [hnil] at hlast; cases hlast)
    rw [if_neg hodd, hsize] at hrows hcols ⊢
    exact tieSize_odd (sizeTieWf_odd hp c hc) (by omega) hrows hcols

/-- A pinned width makes the sum odd (R192). -/
theorem pinnedSize_odd (d e w : Nat) : ((pinnedSize d e w).1 + (pinnedSize d e w).2) % 2 = 1 := by
  unfold pinnedSize
  dsimp only
  split <;> dsimp only <;> omega

/-- A computed size that passes the checks is a legal geometry (R190). -/
theorem geomOk_sizeFor {p : Config.Params} (hp : sizeTieWf p.sizeTie = true) {d e wr : Nat}
    (h : ∀ c ∈ sizeErrors p d e wr, c.1 = false) : geomOk (sizeFor p d e wr).1 (sizeFor p d e wr).2 = true := by
  obtain ⟨hrows, hrows', hcols, hcols'⟩ := sizeFor_in_range h
  refine geomOk_iff.2 ⟨hrows, hrows', hcols, hcols', ?_⟩
  unfold sizeFor at *
  split
  · rename_i hwr
    rw [if_pos hwr] at hrows hcols
    exact autoSize_odd hp (by omega) (by omega)
  · exact pinnedSize_odd d e wr

/-- The size SIZE computes holds the stream, for every SIZE_TIE that meets R8 (R190). -/
theorem minArea_le_sizeFor {p : Config.Params} (hp : sizeTieWf p.sizeTie = true) (d e wr : Nat) :
    minArea d e ≤ (sizeFor p d e wr).1 * (sizeFor p d e wr).2 := by
  unfold sizeFor
  split
  · exact autoSize_area hp d e
  · exact pinnedSize_area d e (Nat.pos_of_ne_zero ‹_›)

theorem setSize_dims {h w : Nat} (hh : h ≤ 200) (hw : w ≤ 200) (s : State) :
    gridRows (setSize (h, w) s) = h ∧ gridCols (setSize (h, w) s) = w :=
  ⟨ofNat_toNat_of_le hh, ofNat_toNat_of_le hw⟩

/-- Settles O34: the checks leave a size that is in range, and the sizing makes its sum odd and its area enough. -/
theorem sizeLeavesALegalGeometry : Obligations.SizeLeavesALegalGeometry := by
  intro s hp
  cases hcheck : checkPhase .size s with
  | some c => exact .inl ⟨c, checkPhase_mem_errorsOf hcheck, exec_of_checkPhase hcheck⟩
  | none =>
    right
    have hsize := firstError_eq_none.1 hcheck
    obtain ⟨-, hh, -, hw⟩ := sizeFor_in_range hsize
    obtain ⟨hrows, hcols⟩ := setSize_dims hh hw s
    refine ⟨_, exec_of_checkPhase_none hcheck, ?_, ?_, rfl⟩
    · have hgeom := geomOk_sizeFor hp hsize
      rwa [← hrows, ← hcols] at hgeom
    · have harea := minArea_le_sizeFor hp (dLen s) (eLen s) s.widthReq.toNat
      rw [← hrows, ← hcols] at harea
      exact (Nat.le_div_iff_mul_le (by decide)).2 ((Nat.mul_comm _ 2).trans_le harea)

end Sys2Proof.Machine

/-! PAD (R196, R197): the lengths grow by ECC_FN's increments, and the pads are appended to SRC. -/

namespace Sys2Proof.Machine

/-- The check length follows ECC_FN through PAD's loop, as long as the slots cannot carry the data length beyond what ECC_FN
is defined for (R196). -/
theorem padLoop_ecc {f : Config.EccFn} (hf : eccFnWf f = true) : ∀ fuel free d e, 9 * d + free ≤ 9 * 4095 →
    (padLoop f fuel free d e).2 + eccAt f d = e + eccAt f (padLoop f fuel free d e).1
  | 0, _, _, _, _ => rfl
  | fuel + 1, free, d, e, hbound => by
    unfold padLoop
    split
    · rfl
    · rename_i hcost
      have hnine : padCost f d = 9 * (1 + padIncrement f d) := rfl
      have hmono := eccAt_mono hf (Nat.le_succ d) (by omega)
      have hinc : padIncrement f d + eccAt f d = eccAt f (d + 1) := Nat.sub_add_cancel hmono
      have ih := padLoop_ecc hf fuel (free - padCost f d) (d + 1) (e + padIncrement f d) (by omega)
      omega

/-- What PAD computes (R196, R197), for a stream that fits the grid. -/
structure PadsTo (s : State) (d e : Nat) : Prop where
  /-- No data codeword is dropped. -/
  grows : dLen s ≤ d
  /-- The check length follows ECC_FN. -/
  ecc : e + eccAt s.params.eccFn (dLen s) = eLen s + eccAt s.params.eccFn d
  /-- The padded stream fits the grid. -/
  fits : minDots d e ≤ dotCapacity s
  /-- One more pad does not. -/
  full : dotCapacity s - minDots d e < padCost s.params.eccFn d

theorem padWords_length (p : Config.Params) (b : Bool) (n : Nat) : (padWords p b n).length = n := by
  simp [padWords]

/-- The pad at a place: PAD_CW, but PAD_CW_BIN first after binary mode (R196). -/
theorem padWords_getD (p : Config.Params) (b : Bool) {n k : Nat} (hk : k < n) :
    ((padWords p b n).getD k 0).toNat = if k = 0 ∧ b = true then p.padCwBin.val else p.padCw.val := by
  have hlt (a : GF) : a.val % 2 ^ 9 = a.val := Nat.mod_eq_of_lt (by omega)
  simp only [padWords, List.getD_eq_getElem?_getD, List.getElem?_map, List.getElem?_range hk, Option.map_some,
    Option.getD_some, BitVec.toNat_ofNat, Bool.and_eq_true, decide_eq_true_eq]
  split <;> exact hlt _

/-- SRC after PAD: the pads from the old length up to the new one, and every other entry as it was (R196). -/
theorem srcAt_padBody {s : State} (hgrows : dLen s ≤ (paddedLengths s).1) (hdepth : (paddedLengths s).1 ≤ 4096)
    (j : Nat) : srcAt (padBody s) j =
      if dLen s ≤ j ∧ j < (paddedLengths s).1 then
        (padWords s.params s.binFinish ((paddedLengths s).1 - dLen s)).getD (j - dLen s) 0
      else srcAt s j := by
  have hlen := padWords_length s.params s.binFinish ((paddedLengths s).1 - dLen s)
  have hput := srcAt_putSrc s (dLen s) (padWords s.params s.binFinish ((paddedLengths s).1 - dLen s)) j
    (by rw [hlen, Nat.add_sub_cancel' hgrows]; exact hdepth)
  rwa [hlen, Nat.add_sub_cancel' hgrows] at hput

section
variable {s : State} (g : geomOk (gridRows s) (gridCols s) = true)
  (hfit : minDots (dLen s) (eLen s) ≤ dotCapacity s)
include g hfit

theorem paddedLengths_spec (hecc : eccFnWf s.params.eccFn = true) :
    PadsTo s (paddedLengths s).1 (paddedLengths s).2 := by
  have hcap := dotCapacity_le g
  obtain ⟨left, hleft, hgrows, -, hspent⟩ :=
    padLoop_spec s.params.eccFn (freeSlots s + 1) (freeSlots s) (dLen s) (eLen s) (Nat.lt_succ_self _)
  have hlens := padLoop_ecc hecc (freeSlots s + 1) (freeSlots s) (dLen s) (eLen s)
    (by unfold freeSlots minDots at *; omega)
  change _ + left = _ + freeSlots s at hspent
  unfold freeSlots minDots at hspent
  refine ⟨hgrows, hlens, ?_, lt_of_le_of_lt ?_ hleft⟩ <;>
    · unfold paddedLengths freeSlots minDots at *
      omega

theorem exec_pad : exec .pad s = .next (complete (padBody s)) := by
  have hlong : streamTooLong s = false := decide_eq_false (Nat.not_lt.2 hfit)
  exact exec_of_checkPhase_none (firstError_eq_none.2 (by simp [badGeom_eq_false g, hlong]))

end

/-- Settles O36: PAD's loop computes the lengths, and they fit their registers because the padded stream fits the grid. -/
theorem padFillsTheFreeSlots : Obligations.PadFillsTheFreeSlots := by
  intro s hecc g hfit
  obtain ⟨hgrows, hlens, hfits, hfull⟩ := paddedLengths_spec g hfit hecc
  have hcap := dotCapacity_le g
  have hsmall : 9 * ((paddedLengths s).1 + (paddedLengths s).2) + 2 ≤ 20000 := hfits.trans hcap
  have hd : dLen (complete (padBody s)) = (paddedLengths s).1 := Nat.mod_eq_of_lt (by omega)
  have he : eLen (complete (padBody s)) = (paddedLengths s).2 := Nat.mod_eq_of_lt (by omega)
  refine ⟨_, exec_pad g hfit, ?_⟩
  rw [hd, he]
  refine ⟨hgrows, hlens, hfits, hfull, fun j hj hj' => ?_, fun i hi => ?_, rfl⟩
  · change (srcAt (padBody s) j).toNat = _
    rw [srcAt_padBody hgrows (by omega), if_pos ⟨hj, hj'⟩, padWords_getD _ _ (by omega)]
    exact if_congr (and_congr_left' (by omega)) rfl rfl
  · change srcAt (padBody s) i = _
    rw [srcAt_padBody hgrows (by omega), if_neg (by omega)]

end Sys2Proof.Machine

/-! DOTSTREAM bit by bit (R201, R202). -/

namespace Sys2Proof.Machine

/-- In a list of blocks of one length, the `i`-th block starts after `i` block lengths. -/
theorem getElem?_flatMap_blocks {α β : Type} {f : α → List β} {n b : Nat} (hb : b < n) (hf : ∀ x, (f x).length = n) :
    ∀ (l : List α) (i : Nat), (l.flatMap f)[n * i + b]? = l[i]?.bind fun x => (f x)[b]?
  | [], i => by simp
  | x :: l, 0 => by
    rw [List.flatMap_cons, Nat.mul_zero, Nat.zero_add, List.getElem?_append_left (by rw [hf]; exact hb)]
    rfl
  | x :: l, i + 1 => by
    rw [List.flatMap_cons, List.getElem?_append_right (by rw [hf, Nat.mul_succ]; omega), hf,
      show n * (i + 1) + b - n = n * i + b by rw [Nat.mul_succ]; omega, getElem?_flatMap_blocks hb hf l i]
    rfl

theorem getElem?_bitsMsbFirst {n b : Nat} (hb : b < n) (v : BitVec 9) :
    (bitsMsbFirst n v)[b]? = some (BitVec.ofBool (v.getLsbD (n - 1 - b))) := by
  rw [bitsMsbFirst, List.getElem?_map, List.getElem?_range hb]
  rfl

/-- The first two bits of the stream are those of the mask codeword (R201). -/
theorem getElem?_streamBits_mask (s : State) {b : Nat} (hb : b < 2) :
    (streamBits s)[b]? = some (BitVec.ofBool ((workAt s 0).getLsbD (1 - b))) := by
  rw [streamBits, List.getElem?_append_left (by rw [bitsMsbFirst_length]; exact hb), getElem?_bitsMsbFirst hb]

/-- Codeword `i + 1` of WORK takes the nine bits after those of the codewords before it (R201). -/
theorem getElem?_streamBits_word (s : State) {i b : Nat} (hi : i < dLen s + eLen s) (hb : b < 9) :
    (streamBits s)[2 + 9 * i + b]? =
      some (BitVec.ofBool ((romAt s.params (workAt s (1 + i)).toNat).getLsbD (8 - b))) := by
  rw [streamBits, List.getElem?_append_right (by rw [bitsMsbFirst_length]; omega), bitsMsbFirst_length,
    show 2 + 9 * i + b - 2 = 9 * i + b by omega,
    getElem?_flatMap_blocks hb (fun i => bitsMsbFirst_length 9 _), List.getElem?_range hi, Option.bind_some,
    getElem?_bitsMsbFirst hb]

section
variable {s : State} (g : geomOk (gridRows s) (gridCols s) = true)
  (hfit : minDots (dLen s) (eLen s) ≤ dotCapacity s)
include g hfit

/-- A bit of the stream is where it is in STREAM (R200). -/
theorem streamAt_dotStreamBody_bit {k : Nat} {v : BitVec 1} (hk : (streamBits s)[k]? = some v) :
    streamAt (dotStreamBody s) k = v := by
  obtain ⟨hlt, -⟩ := List.getElem?_eq_some_iff.1 hk
  rw [streamBits_length] at hlt
  rw [streamAt_dotStreamBody g hfit, if_pos (hlt.trans_le hfit), filledStream, List.getD_eq_getElem?_getD,
    List.getElem?_append_left (by rwa [streamBits_length]), hk]
  rfl

/-- From the end of the stream to NDOTS every bit is set (R202). -/
theorem streamAt_dotStreamBody_fill {k : Nat} (hk : minDots (dLen s) (eLen s) ≤ k) (hk' : k < dotCapacity s) :
    streamAt (dotStreamBody s) k = 1 := by
  rw [streamAt_dotStreamBody g hfit, if_pos hk', filledStream, List.getD_eq_getElem?_getD,
    List.getElem?_append_right (by rwa [streamBits_length]), streamBits_length,
    List.getElem?_replicate_of_lt (by omega)]
  rfl

end

/-- Settles O37: each bit of STREAM is that of the list of the stream's bits and its fill. -/
theorem dotStreamExpandsWork : Obligations.DotStreamExpandsWork := by
  intro s g hfit hmask hwords
  have hcap := dotCapacity_le g
  refine ⟨_, exec_dotStream g hfit hmask fun i hi => hwords (1 + i) (by omega) (by omega), ?_, ?_, ?_, ?_, ?_, ?_, rfl⟩
  · exact streamAt_dotStreamBody_bit g hfit (getElem?_streamBits_mask s (b := 0) (by decide))
  · exact streamAt_dotStreamBody_bit g hfit (getElem?_streamBits_mask s (b := 1) (by decide))
  · intro i b hi hi' hb hrom
    obtain ⟨j, rfl⟩ := Nat.exists_eq_add_of_le hi
    rw [Nat.add_sub_cancel_left, ← romAt_of_lt s.params hrom]
    exact streamAt_dotStreamBody_bit g hfit (getElem?_streamBits_word s (by omega) (by omega))
  · exact fun p hp hp' => streamAt_dotStreamBody_fill g hfit hp hp'
  · exact Nat.mod_eq_of_lt ((hfit.trans hcap).trans_lt (by decide))
  · intro i hi
    exact (streamAt_dotStreamBody g hfit i).trans (if_neg (by unfold dotCapacity ndots; omega))

end Sys2Proof.Machine

/-! FOLD (R206–R209): which place of the fold order each cell has. -/

namespace Sys2Proof.Machine

/-- An element that a filter keeps comes after the kept ones before it. -/
theorem getElem?_filter_countP {α : Type} {p : α → Bool} {l : List α} {n : Nat} {x : α} (hx : l[n]? = some x)
    (hp : p x = true) : (l.filter p)[(l.take n).countP p]? = some x := by
  obtain ⟨hn, rfl⟩ := List.getElem?_eq_some_iff.1 hx
  have hsplit : l = l.take n ++ l[n] :: l.drop (n + 1) := by
    rw [List.cons_getElem_drop_succ, List.take_append_drop]
  have hfilter : l.filter p = (l.take n).filter p ++ l[n] :: (l.drop (n + 1)).filter p := by
    conv_lhs => rw [hsplit]
    rw [List.filter_append, List.filter_cons_of_pos hp]
  rw [hfilter, List.countP_eq_length_filter, List.getElem?_append_right le_rfl, Nat.sub_self, List.getElem?_cons_zero]

/-- A grid listed line by line is the list of its positions, each taken apart by its line length. -/
theorem flatMap_range_eq_map {α : Type} (f : Nat → Nat → α) {n : Nat} (hn : 0 < n) (m : Nat) :
    ((List.range m).flatMap fun i => (List.range n).map (f i)) =
      (List.range (m * n)).map fun k => f (k / n) (k % n) := by
  induction m with
  | zero => simp
  | succ m ih =>
    rw [List.range_succ, List.flatMap_append, ih, Nat.succ_mul, List.range_add, List.map_append, List.flatMap_singleton,
      List.map_map]
    refine congrArg _ (List.map_congr_left fun j hj => ?_)
    have hj : j < n := List.mem_range.1 hj
    have hdiv : (m * n + j) / n = m := by rw [Nat.mul_comm, Nat.mul_add_div hn, Nat.div_eq_of_lt hj, Nat.add_zero]
    have hmod : (m * n + j) % n = j := by rw [Nat.mul_comm, Nat.mul_add_mod, Nat.mod_eq_of_lt hj]
    rw [Function.comp_apply, hdiv, hmod]

/-- With an odd H the scan goes by rows (R206). -/
theorem scanOrder_of_odd {h w : Nat} (hh : h % 2 = 1) (hw : 0 < w) :
    scanOrder h w = (List.range (h * w)).map fun i => (i / w, i % w) := by
  rw [scanOrder, if_pos hh, flatMap_range_eq_map (fun r c => (r, c)) hw]

/-- With an even H the scan goes by columns (R207). -/
theorem scanOrder_of_even {h w : Nat} (hh : ¬ h % 2 = 1) (hpos : 0 < h) :
    scanOrder h w = (List.range (w * h)).map fun i => (i % h, i / h) := by
  rw [scanOrder, if_neg hh, flatMap_range_eq_map (fun c r => (r, c)) hpos]

/-- A cell that takes its bit during the scan: a data cell that is no corner (R206). -/
def isScanned (h w : Nat) (rc : Nat × Nat) : Bool := isData rc && !(corners h w).contains rc

theorem isScanned_iff {h w : Nat} {rc : Nat × Nat} :
    isScanned h w rc = true ↔ (rc.1 + rc.2) % 2 = 0 ∧ rc ∉ corners h w := by
  rw [isScanned, Bool.and_eq_true, isData_iff, Bool.not_eq_true', List.contains_eq_mem, decide_eq_false_iff_not]

theorem foldOrder_eq_append (h w : Nat) : foldOrder h w =
    ((scanOrder h w).filter (isScanned h w)).map (foldTarget h w) ++ (corners h w).map (cellIndex w) := rfl

/-- In a scan that meets cell `f i` at position `i`, a scanned cell's place is the number of scanned cells before it. -/
theorem getElem?_foldOrder_scanned {h w N n : Nat} {f : Nat → Nat × Nat} (hscan : scanOrder h w = (List.range N).map f)
    (hn : n < N) {rc : Nat × Nat} (hcell : f n = rc) (hdata : (rc.1 + rc.2) % 2 = 0) (hcorner : rc ∉ corners h w) :
    (foldOrder h w)[(List.range n).countP fun i => decide (((f i).1 + (f i).2) % 2 = 0 ∧ f i ∉ corners h w)]? =
      some (foldTarget h w rc) := by
  have hmeets : (scanOrder h w)[n]? = some rc := by
    rw [hscan, List.getElem?_map, List.getElem?_range hn, Option.map_some, hcell]
  have hbefore : ((scanOrder h w).take n).countP (isScanned h w) =
      (List.range n).countP fun i => decide (((f i).1 + (f i).2) % 2 = 0 ∧ f i ∉ corners h w) := by
    rw [hscan, ← List.map_take, List.take_range, Nat.min_eq_left hn.le, List.countP_map]
    exact List.countP_congr fun i _ => isScanned_iff.trans decide_eq_true_iff.symm
  have hplace := getElem?_filter_countP hmeets (isScanned_iff.2 ⟨hdata, hcorner⟩)
  rw [hbefore] at hplace
  obtain ⟨hlt, -⟩ := List.getElem?_eq_some_iff.1 hplace
  rw [foldOrder_eq_append, List.getElem?_append_left (by rwa [List.length_map]), List.getElem?_map, hplace,
    Option.map_some]

theorem corners_length (h w : Nat) : (corners h w).length = 6 := by
  unfold corners
  split <;> rfl

/-- Every number below NDOTS is half the index of a data cell. -/
theorem exists_data_index {h w k : Nat} (g : geomOk h w = true) (hk : k < ndots h w) :
    ∃ i, i < h * w ∧ isData (i / w, i % w) = true ∧ i / 2 = k := by
  obtain ⟨-, -, hdouble⟩ := geom_area g
  obtain ⟨-, -, hw, -⟩ := geomOk_iff.1 g
  simp only [isData_iff]
  obtain ⟨v, rfl | rfl⟩ := Nat.even_or_odd' w
  · refine ⟨2 * k + k / v % 2, by omega, ?_, by omega⟩
    have hrow : (2 * k + k / v % 2) / (2 * v) = k / v := by
      rw [← Nat.div_div_eq_div_mul]
      exact congrArg (· / v) (by omega)
    have hdiv := Nat.div_add_mod (2 * k + k / v % 2) (2 * v)
    rw [hrow, Nat.mul_assoc] at hdiv
    rw [hrow]
    omega
  · refine ⟨2 * k, by omega, ?_, by omega⟩
    have hdiv := Nat.div_add_mod (2 * k) (2 * v + 1)
    rw [Nat.add_mul, Nat.mul_assoc, Nat.one_mul] at hdiv
    omega

section
variable {h w : Nat} (g : geomOk h w = true)
include g

/-- The fold has one cell for each of the NDOTS stream bits (R208). -/
theorem foldOrder_length : (foldOrder h w).length = ndots h w := by
  refine Nat.le_antisymm (foldOrder_length_le g) ?_
  have hsub : List.range (ndots h w) ⊆ (foldOrder h w).map (· / 2) := fun k hk => by
    obtain ⟨i, hi, hdata, hhalf⟩ := exists_data_index g (List.mem_range.1 hk)
    exact List.mem_map.2 ⟨i, (mem_foldOrder g).2 ⟨hi, hdata⟩, hhalf⟩
  simpa using (List.nodup_range.subperm hsub).length_le

/-- The corners have the last six places (R208). -/
theorem getElem?_foldOrder_corner {k : Nat} {rc : Nat × Nat} (hk : (corners h w)[k]? = some rc) :
    (foldOrder h w)[ndots h w - 6 + k]? = some (cellIndex w rc) := by
  have hlen := foldOrder_length g
  rw [foldOrder_eq_append, List.length_append, List.length_map (as := corners h w), corners_length] at hlen
  rw [foldOrder_eq_append, List.getElem?_append_right (by omega),
    show ndots h w - 6 + k - _ = k from by rw [← hlen]; omega, List.getElem?_map, hk, Option.map_some]

end

section
variable {s : State} (g : geomOk (gridRows s) (gridCols s) = true)
include g

/-- The cell in place `k` of the fold order takes stream bit `k` (R206–R208). -/
theorem gridAt_foldBody_place {k i : Nat} (hk : (foldOrder (gridRows s) (gridCols s))[k]? = some i) :
    gridAt (foldBody s) i = (streamAt s k).setWidth 2 := by
  obtain ⟨hi, hdata⟩ := (mem_foldOrder g).1 (List.mem_of_getElem? hk)
  obtain ⟨hlt, rfl⟩ := List.getElem?_eq_some_iff.1 hk
  rw [gridAt_foldBody g, if_pos hi, foldedCell, if_pos hdata, (foldOrder_nodup g).idxOf_getElem]

/-- A cell that is no data cell holds NONDATA (R206). -/
theorem gridAt_foldBody_nonData {rc : Nat × Nat} (hr : rc.1 < gridRows s) (hc : rc.2 < gridCols s)
    (hodd : (rc.1 + rc.2) % 2 = 1) : gridAt (foldBody s) (cellIndex (gridCols s) rc) = cellNonData := by
  have hdata : ¬ isData rc = true := by
    rw [isData_iff]
    omega
  rw [gridAt_foldBody g, if_pos (cellIndex_lt hr hc), foldedCell, cellIndex_div hc, cellIndex_mod hc, if_neg hdata]

end

/-- Settles O39: the fold order is the order of the data cells. -/
theorem foldIsABijection : Obligations.FoldIsABijection := by
  intro h w g
  refine ⟨foldOrder h w, foldOrder_length g, foldOrder_nodup g, fun i => ?_, ?_⟩
  · rw [mem_foldOrder g, isData_iff]
  · rintro s rfl rfl
    exact ⟨_, exec_fold g, fun k i hk => gridAt_foldBody_place g hk⟩

/-- Settles O38: each kind of cell has its place in the fold order. -/
theorem foldPlacesEachBit : Obligations.FoldPlacesEachBit := by
  intro s g
  obtain ⟨hh, -, hw, -⟩ := geomOk_iff.1 g
  refine ⟨_, exec_fold g, ?_, ?_, ?_, ?_, rfl⟩
  · exact fun r hr c hc hodd => gridAt_foldBody_nonData g (rc := (r, c)) hr hc hodd
  · intro r hr c hc hdata hcorner
    split
    · rename_i hodd
      have hcell : ((r * gridCols s + c) / gridCols s, (r * gridCols s + c) % gridCols s) = (r, c) :=
        Prod.ext (cellIndex_div (rc := (r, c)) hc) (cellIndex_mod (rc := (r, c)) hc)
      have hplace := getElem?_foldOrder_scanned (scanOrder_of_odd hodd (by omega))
        (cellIndex_lt (rc := (r, c)) hr hc) hcell hdata hcorner
      rw [foldTarget, if_pos hodd] at hplace
      exact gridAt_foldBody_place g hplace
    · rename_i heven
      have hcell : ((c * gridRows s + r) % gridRows s, (c * gridRows s + r) / gridRows s) = (r, c) :=
        Prod.ext (cellIndex_mod (rc := (c, r)) hr) (cellIndex_div (rc := (c, r)) hr)
      have hplace := getElem?_foldOrder_scanned (scanOrder_of_even heven (by omega))
        (cellIndex_lt (rc := (c, r)) hc hr) hcell hdata hcorner
      rw [foldTarget, if_neg heven] at hplace
      exact gridAt_foldBody_place g hplace
  · rintro k r c hk
    exact gridAt_foldBody_place g (getElem?_foldOrder_corner g hk)
  · intro i hi
    exact (gridAt_foldBody g i).trans (if_neg (by omega))

/-- Settles O40: FORCE_CORNERS writes at the six corners. -/
theorem forceCornersSetsSixCells : Obligations.ForceCornersSetsSixCells := by
  intro s g
  refine ⟨_, exec_forceCorners g, fun rc hrc => ?_, fun i hi => ?_, ?_⟩
  · exact (gridAt_forceCornersBody g _).trans (if_pos (List.mem_map.2 ⟨rc, hrc, rfl⟩))
  · refine (gridAt_forceCornersBody g i).trans (if_neg fun hmem => ?_)
    obtain ⟨rc, hrc, rfl⟩ := List.mem_map.1 hmem
    exact hi rc hrc rfl
  · exact congrArg complete (forceCornersBody_frame s)

end Sys2Proof.Machine

/-! The host's side of the state (R230, R235): the flags, the pending command and the model's own fields of the host. Every
commit phase but SRESET's commutes with replacing them, so what a command computes does not depend on them. -/

namespace Sys2Proof.Machine

/-- The state with STATUS's flags, IRQ_EN, the pending command and the model's fields of the host as in `h`. -/
def withHostSide (h s : State) : State :=
  { s with
    irqEn := h.irqEn
    done := h.done
    err := h.err
    errCode := h.errCode
    ovr := h.ovr
    berr := h.berr
    pending := h.pending
    response := h.response
    draws := h.draws }

/-- An operation that neither reads nor writes the host's side. -/
def HostBlind (f : State → State) : Prop := ∀ h, Function.Commute f (withHostSide h)

theorem HostBlind.comp {f g : State → State} (hg : HostBlind g) (hf : HostBlind f) : HostBlind (g ∘ f) :=
  fun h => (hg h).comp_left (hf h)

theorem forceCornersBody_hostBlind : HostBlind forceCornersBody := fun h _ =>
  List.foldl_hom (withHostSide h) fun _ _ => rfl

theorem forceIfHigh_hostBlind (m : BitVec 3) : HostBlind (forceIfHigh m) := fun h s => by
  unfold forceIfHigh
  split
  · exact forceCornersBody_hostBlind h s
  · rfl

theorem candidateBody_hostBlind (m : BitVec 3) : HostBlind (candidateBody m) :=
  have hrecord : HostBlind (recordScore m ∘ scoreBody) := fun _ _ => rfl
  have hgrid : HostBlind fun s => foldBody (dotStreamBody (candidateWords m s)) := fun _ _ => rfl
  hrecord.comp ((forceIfHigh_hostBlind m).comp hgrid)

/-- A search whose state has another host's side. -/
def Search.withHostSide (h : State) (r : Search) : Search := { r with state := Machine.withHostSide h r.state }

theorem tryMask_withHostSide (h : State) (r : Search) (m : BitVec 3) :
    tryMask (r.withHostSide h) m = (tryMask r m).withHostSide h := by
  have hcandidate : candidateBody m (r.withHostSide h).state = withHostSide h (candidateBody m r.state) :=
    candidateBody_hostBlind m h r.state
  rw [tryMask_eq, tryMask_eq, hcandidate]
  rfl

theorem searchAll_withHostSide (h s : State) : searchAll (withHostSide h s) = (searchAll s).withHostSide h := by
  have hmore (l : List (BitVec 3)) (r : Search) :
      l.foldl tryMask (r.withHostSide h) = (l.foldl tryMask r).withHostSide h :=
    List.foldl_hom (Search.withHostSide h) (tryMask_withHostSide h)
  have hplain : searchPlain (withHostSide h s) = (searchPlain s).withHostSide h := by
    rw [searchPlain, candidateBody_hostBlind 0 h s]
    exact hmore _ ⟨candidateBody 0 s, _, 0⟩
  rw [searchAll, hplain, hmore]
  exact (apply_ite (Search.withHostSide h) _ _ _).symm

theorem finishSelect_hostBlind (m : BitVec 3) : HostBlind (finishSelect m) :=
  HostBlind.comp (g := fun s => { s with bestMask := m, bmValid := true }) (fun _ _ => rfl) (candidateBody_hostBlind m)

theorem selectBody_hostBlind : HostBlind selectBody := fun h s => by
  have hclear : clearRecord (withHostSide h s) = withHostSide h (clearRecord s) := rfl
  cases hp : s.pinEn with
  | true =>
    rw [selectBody_pinned hp, selectBody_pinned (s := withHostSide h s) hp, hclear]
    exact finishSelect_hostBlind _ h _
  | false =>
    rw [selectBody_searched hp, selectBody_searched (s := withHostSide h s) hp, hclear, searchAll_withHostSide]
    exact finishSelect_hostBlind _ h _

theorem runBody_hostBlind : HostBlind runBody :=
  selectBody_hostBlind.comp
    (f := fun s => padBody (setSize (sizeFor s.params (dLen s) (runEcc s) s.widthReq.toNat) (eccLenBody s)))
    fun _ _ => rfl

theorem pushBody_hostBlind (v : BitVec 9) : HostBlind (pushBody v) := fun h s =>
  (apply_ite (withHostSide h) ((accumulate v s).cnt.toNat = pkGroup) (emit (accumulate v s)) (accumulate v s)).symm

theorem flushBody_hostBlind : HostBlind flushBody := fun h s =>
  (apply_ite (withHostSide h) (s.cnt = 0) { s with pkOutN := 0 } (emit s)).symm

/-- Only SRESET's commit phase writes the host's side, and none reads it (R230, R235). -/
theorem commitPhase_hostBlind {i : Instr} (hi : i ≠ .sreset) : HostBlind (commitPhase i) := by
  cases i with
  | sreset => exact absurd rfl hi
  | pkPush v => exact pushBody_hostBlind v
  | pkFlush => exact flushBody_hostBlind
  | candidate m => exact candidateBody_hostBlind m
  | select => exact selectBody_hostBlind
  | forceCorners => exact forceCornersBody_hostBlind
  | run => exact runBody_hostBlind
  | _ => exact fun _ _ => rfl

theorem checkPhase_withHostSide (i : Instr) (h s : State) : checkPhase i (withHostSide h s) = checkPhase i s := by
  cases i <;> rfl

/-- The completion of a command leaves no trace in what the next one commits (R230). -/
theorem complete_commitPhase_complete {i : Instr} (hi : i ≠ .sreset) (s : State) :
    complete (commitPhase i (complete s)) = complete (commitPhase i s) := by
  have hblind : commitPhase i (complete s) = withHostSide (complete s) (commitPhase i s) :=
    commitPhase_hostBlind hi (complete s) s
  rw [hblind, commitPhase_frame hi s]
  rfl

/-- A command that follows another's completion commits what it would from the state before the completion. -/
theorem exec_complete {i : Instr} (hi : i ≠ .sreset) {s : State} (hcheck : checkPhase i s = none) :
    exec i (complete s) = .next (complete (commitPhase i s)) := by
  have hsame : checkPhase i (complete s) = checkPhase i s := checkPhase_withHostSide i (complete s) s
  rw [exec_of_checkPhase_none (hsame.trans hcheck), complete_commitPhase_complete hi]

/-- While a command is pending a transaction reaches the host's side only (R74, R75, R77). -/
theorem busTransaction_pending {s : State} {w : Word} (hr : s.inReset = false) (hp : s.pending = some w) (x : Txn) :
    busTransaction x s = withHostSide (busTransaction x s) s := by
  obtain ⟨hr', -⟩ | ⟨-, -, hx⟩ | ⟨p, -, -, -, hx⟩ | ⟨p, v, -, -, -, hx⟩ := busTransaction_cases x s
  · rw [hr] at hr'
    cases hr'
  · rw [hx]
    rfl
  · rw [hx, busRead]
    split <;> rfl
  · rw [hx]
    by_cases hctrl : p = .reg .ctrl
    · rw [hctrl, busWrite_exempt rfl]
      rfl
    · by_cases hstatus : p = .reg .status
      · rw [hstatus, busWrite_exempt rfl]
        rfl
      · rw [busWrite_busy hp (writesWhileBusy_eq_false hctrl hstatus)]
        rfl

/-- Settles O56: the transaction replaces the host's side, which the command's two phases do not see. -/
theorem busyHostDoesNotDisturbTheCommand : Obligations.BusyHostDoesNotDisturbTheCommand := by
  intro s x w i hr hp hi
  rw [busTransaction_pending hr hp x]
  have hsame := checkPhase_withHostSide i (busTransaction x s) s
  cases hcheck : checkPhase i s with
  | none =>
    refine ⟨_, _, exec_of_checkPhase_none hcheck, exec_of_checkPhase_none (hsame.trans hcheck), ?_⟩
    rw [commitPhase_hostBlind hi _ s]
    rfl
  | some c => exact ⟨_, _, exec_of_checkPhase hcheck, exec_of_checkPhase (hsame.trans hcheck), rfl⟩

/-- Settles O45: the commit phases keep these registers, and an error writes ERR and ERRCODE only. -/
theorem commandsKeepTheHostsRegisters : Obligations.CommandsKeepTheHostsRegisters := by
  intro i s hi
  obtain ⟨t, ht⟩ := exec_next i s
  refine ⟨t, ht, ?_⟩
  obtain ⟨-, rfl⟩ | ⟨c, -, rfl⟩ := exec_eq_next.1 ht
  · rw [commitPhase_frame hi s]
    exact ⟨rfl, rfl, rfl, rfl, rfl, rfl, rfl, rfl, rfl, rfl, rfl⟩
  · exact ⟨rfl, rfl, rfl, rfl, rfl, rfl, rfl, rfl, rfl, rfl, rfl⟩

end Sys2Proof.Machine

/-! The engine's step (R230), NOP (R231) and RUN (R233, R238). -/

namespace Sys2Proof.Machine

/-- The word that stands for a host's CMD write is the command's (R80). -/
theorem withFetchWord_encode (s : State) (i : Instr) : s.withFetchWord 32 (encode i).toNat =
    { s with pending := some (encode i), inReset := false, turns := .engine :: s.turns } := by
  have hword : BitVec.ofNat 32 ((encode i).toNat % 2 ^ 32) = encode i := by
    rw [Nat.mod_eq_of_lt (encode i).isLt, BitVec.ofNat_toNat, BitVec.setWidth_eq]
  rw [State.withFetchWord, hword]

/-- Settles O6: each turn by the definition of a step; the word fetched decodes to its command. -/
theorem stepRunsThePendingCommand : Obligations.StepRunsThePendingCommand := by
  refine ⟨fun s rest w i ht hr hp hd => ?_, fun s w i ht hr hp hd => ?_, fun s x rest ht => ?_, fun s i => ?_⟩
  · rw [step, ht]
    exact engineTurn_decoded (s := { s with turns := rest }) hr hp hd
  · rw [step, ht]
    exact engineTurn_decoded hr hp hd
  · rw [step, ht]
  · rw [withFetchWord_encode]
    exact engineTurn_decoded (s := { s with pending := some (encode i), inReset := false }) rfl rfl
      (decodeInvertsEncode i)

/-- Settles O7: NOP checks nothing and commits the state itself. -/
theorem nopOnlyCompletes : Obligations.NopOnlyCompletes := fun s => runCommand_none s s

/-- What R8 asks of ECC_FN and SIZE_TIE. -/
theorem paramsWf_ecc_tie {p : Config.Params} (hp : paramsWf p = true) :
    eccFnWf p.eccFn = true ∧ sizeTieWf p.sizeTie = true := by
  simp only [paramsWf, Bool.and_eq_true] at hp
  obtain ⟨⟨⟨-, hecc⟩, -⟩, htie⟩ := hp
  exact ⟨hecc, htie⟩

/-- After ECCLEN the check length is the one RUN uses (R194, R238). -/
theorem eLen_eccLenBody {s : State} (hecc : eccFnWf s.params.eccFn = true) : eLen (eccLenBody s) = runEcc s :=
  Nat.mod_eq_of_lt (Nat.lt_succ_of_le (eccAt_le hecc (Nat.le_of_lt_succ (dLen_lt s))))

/-- RUN's commit phase is that of its four commands, one after another (R233). -/
theorem runBody_eq {s : State} (hecc : eccFnWf s.params.eccFn = true) :
    runBody s = selectBody (padBody (commitPhase .size (eccLenBody s))) := by
  have hsize : commitPhase .size (eccLenBody s) =
      setSize (sizeFor s.params (dLen s) (eLen (eccLenBody s)) s.widthReq.toNat) (eccLenBody s) := rfl
  rw [hsize, eLen_eccLenBody hecc]
  rfl

/-- SIZE leaves a grid for the candidates of data codewords in range (R190, R153). -/
theorem commitPhase_size_ready {s : State} (hp : paramsWf s.params = true) (hcheck : checkPhase .size s = none)
    (hsrc : SourceInRange s) : CandidateReady (commitPhase .size s) := by
  have hsize := firstError_eq_none.1 hcheck
  obtain ⟨-, hh, -, hw⟩ := sizeFor_in_range hsize
  obtain ⟨hrows, hcols⟩ := setSize_dims hh hw s
  obtain ⟨-, htie⟩ := paramsWf_ecc_tie hp
  have hgeom := geomOk_sizeFor htie hsize
  rw [← hrows, ← hcols] at hgeom
  obtain ⟨hfits, -⟩ := dotCapacity_setSize hp hsize
  exact ⟨hgeom, hfits, hsrc⟩

/-- PAD checks the first two of CANDIDATE's conditions (R153, R196). -/
theorem CandidateReady.padCheck {s : State} (h : CandidateReady s) : checkPhase .pad s = none := by
  have hlong : streamTooLong s = false := decide_eq_false (Nat.not_lt.2 h.fits)
  exact firstError_eq_none.2 (by simp [badGeom_eq_false h.geom, hlong])

/-- PAD keeps what CANDIDATE checks: the padded stream fits, and the pads are codewords (R153, R197). -/
theorem CandidateReady.padBody {s : State} (h : CandidateReady s) (hecc : eccFnWf s.params.eccFn = true) :
    CandidateReady (Machine.padBody s) := by
  obtain ⟨hgrows, -, hfits, -⟩ := paddedLengths_spec h.geom h.fits hecc
  have hcap := dotCapacity_le h.geom
  have hdepth : (paddedLengths s).1 ≤ 4096 := by
    unfold minDots at hfits
    omega
  refine ⟨h.geom, minDots_padBody_le h.fits, fun j hj => ?_⟩
  have hj : j < (paddedLengths s).1 := hj.trans_le (Nat.mod_le _ _)
  rw [srcAt_padBody hgrows hdepth]
  by_cases hpad : dLen s ≤ j
  · rw [if_pos ⟨hpad, hj⟩, padWords_getD _ _ (by omega)]
    split <;> exact Nat.le_of_lt_succ (Fin.isLt _)
  · rw [if_neg fun hin => hpad hin.1]
    exact h.source j (Nat.lt_of_not_le hpad)

/-- SELECT writes neither the geometry nor the lengths, so the stream still fits (R175). -/
theorem CandidateReady.selectBody_fits {s : State} (h : CandidateReady s) :
    geomOk (gridRows (selectBody s)) (gridCols (selectBody s)) = true ∧
      minDots (dLen (selectBody s)) (eLen (selectBody s)) ≤ dotCapacity (selectBody s) := by
  rw [selectBody_frame]
  exact ⟨h.geom, h.fits⟩

/-- From a state ready for a candidate, PAD and SELECT commit one after another (R233). -/
theorem execAll_padSelect {s : State} (h : CandidateReady s) (hecc : eccFnWf s.params.eccFn = true) :
    execAll [.pad, .select] (complete s) = .next (complete (selectBody (padBody s))) := by
  have hpad : exec .pad (complete s) = .next (complete (padBody s)) := exec_complete (by decide) h.padCheck
  have hselect : exec .select (complete (padBody s)) = .next (complete (selectBody (padBody s))) :=
    exec_complete (by decide) (h.padBody hecc).check
  rw [execAll_cons hpad, execAll_last hselect]

/-- Settles O9: with ECCLEN's check length SIZE makes RUN's checks, SIZE leaves a state ready for a candidate, and PAD
keeps it so for SELECT. -/
theorem runIsItsFourSteps : Obligations.RunIsItsFourSteps := by
  intro s hp hwidth hrows hrows' hcols hcols' hsrc
  obtain ⟨hecc, -⟩ := paramsWf_ecc_tie hp
  have hcheck : firstError (sizeErrors s.params (dLen s) (runEcc s) s.widthReq.toNat) = none :=
    (firstError_sizeErrors hwidth _ _ _).trans (capacityCode_eq_none.2 ⟨hrows, hrows', hcols, hcols'⟩)
  have hsize : checkPhase .size (eccLenBody s) = none := by
    rw [← eLen_eccLenBody hecc] at hcheck
    exact hcheck
  have hready : CandidateReady (commitPhase .size (eccLenBody s)) := commitPhase_size_ready hp hsize hsrc
  have heccLen : exec .eccLen s = .next (complete (eccLenBody s)) := exec_of_checkPhase_none rfl
  obtain ⟨herr, hcode⟩ := commitPhase_errors (i := .run) (by decide) s
  refine ⟨complete (runBody s), ?_, exec_run_fits hcheck hsrc, herr, hcode, rfl, ?_⟩
  · rw [execAll_cons heccLen, execAll_cons (exec_complete (by decide) hsize), execAll_padSelect hready hecc,
      runBody_eq hecc]
  · rw [runBody_eq hecc]
    exact (hready.padBody hecc).selectBody_fits

end Sys2Proof.Machine

/-! The error conditions beyond the geometry and the size (R136, R150, R153, R200, R233, R252, R254): a stream or an
RS_ENCODE that is too long, and a codeword out of range. -/

namespace Sys2Proof.Machine

/-- A check phase stops at its first condition when that one holds (R251). -/
theorem firstError_of_holds {b : Bool} (h : b = true) (c : ErrCode) (rest : List (Bool × ErrCode)) :
    firstError ((b, c) :: rest) = some c :=
  if_pos h

/-- A check phase goes on from a condition that does not hold (R251). -/
theorem firstError_of_not_holds {b : Bool} (h : b = false) (c : ErrCode) (rest : List (Bool × ErrCode)) :
    firstError ((b, c) :: rest) = firstError rest :=
  if_neg (Bool.eq_false_iff.1 h)

/-! Arrays that are too long (R254). -/

/-- After the geometry, every command that makes a stream checks that it fits the grid (R153, R196, R200). -/
theorem checkPhase_of_streamTooLong {s : State} (g : geomOk (gridRows s) (gridCols s) = true)
    (hlong : streamTooLong s = true) {i : Instr} {m : BitVec 3}
    (hi : i ∈ [Instr.pad, .dotStream, .candidate m, .select]) : checkPhase i s = some .len := by
  have hsecond {b : Bool} (hb : b = true) (rest : List (Bool × ErrCode)) :
      firstError ((badGeom s, .cfgGeom) :: (b, .len) :: rest) = some .len :=
    (firstError_of_not_holds (badGeom_eq_false g) _ _).trans (firstError_of_holds hb _ _)
  simp only [List.mem_cons, List.not_mem_nil, or_false] at hi
  obtain rfl | rfl | rfl | rfl := hi
  case inl | inr.inl => exact hsecond hlong _
  -- CANDIDATE and SELECT join the depth of WORK to the same condition.
  case inr.inr.inl | inr.inr.inr => exact hsecond (Bool.or_eq_true_iff.2 (.inl hlong)) _

/-- Settles O42: LEN is the condition after the geometry, and RS_ENCODE's first. -/
theorem overlongArraysRaiseLen : Obligations.OverlongArraysRaiseLen :=
  ⟨fun _ _ g hlong _ hi => exec_of_checkPhase (checkPhase_of_streamTooLong g (decide_eq_true hlong) hi),
    fun _ _ _ hlong => exec_of_checkPhase (firstError_of_holds (decide_eq_true hlong) _ _)⟩

/-! Codewords out of range (C1). -/

theorem anyAbove_eq_true {cs : List Codeword} {c : Codeword} (hc : c ∈ cs) (habove : 112 < c.toNat) :
    anyAbove cs = true :=
  List.any_eq_true.2 ⟨c, hc, decide_eq_true habove⟩

theorem badSource_eq_true {s : State} {j : Nat} (hj : j < dLen s) (habove : 112 < (srcAt s j).toNat) :
    badSource s = true :=
  anyAbove_eq_true (List.mem_map_of_mem (List.mem_range.2 hj)) habove

/-- The mask codeword's bound is 3, that of every other codeword of the stream 112 (R200). -/
theorem badStreamWord_eq_true {s : State} {i : Nat} (hi : i ≤ dLen s + eLen s)
    (habove : (if i = 0 then 3 else 112) < (workAt s i).toNat) : badStreamWord s = true := by
  rw [badStreamWord, Bool.or_eq_true]
  cases i with
  | zero => exact .inl (decide_eq_true habove)
  | succ k =>
    have hword : workAt s (k + 1) ∈ (List.range (dLen s + eLen s)).map fun i => workAt s (1 + i) :=
      List.mem_map.2 ⟨k, List.mem_range.2 hi, by rw [Nat.add_comm]⟩
    exact .inr (anyAbove_eq_true hword habove)

/-- A stream that fits a legal grid leaves room for a candidate's codewords in WORK (R7, R64). -/
theorem candidate_words_le {s : State} (g : geomOk (gridRows s) (gridCols s) = true)
    (hfit : minDots (dLen s) (eLen s) ≤ dotCapacity s) : dLen s + 1 + eLen s ≤ depth .work := by
  have hcap := dotCapacity_le g
  have hdepth : depth .work = 4096 := rfl
  unfold minDots at hfit
  omega

/-- With a legal geometry and a stream that fits, CANDIDATE and SELECT find a bad data codeword (R153). -/
theorem candidateCheck_of_badSource {s : State} (g : geomOk (gridRows s) (gridCols s) = true)
    (hfit : minDots (dLen s) (eLen s) ≤ dotCapacity s) (hsrc : badSource s = true) :
    candidateCheck s = some .rangeCw := by
  have hlen : (streamTooLong s || decide (depth .work < dLen s + 1 + eLen s)) = false :=
    Bool.or_eq_false_iff.2
      ⟨decide_eq_false (Nat.not_lt.2 hfit), decide_eq_false (Nat.not_lt.2 (candidate_words_le g hfit))⟩
  calc candidateCheck s
    _ = firstError [(_, .len), (badSource s, .rangeCw)] := firstError_of_not_holds (badGeom_eq_false g) _ _
    _ = firstError [(badSource s, .rangeCw)] := firstError_of_not_holds hlen _ _
    _ = some .rangeCw := firstError_of_holds hsrc _ _

/-- With operands that fit WORK, RS_ENCODE finds a data word out of range (R136). -/
theorem checkPhase_rsEncode_of_above {s : State} {i : Nat} {nd nc : BitVec 12} (hfit : nd.toNat + nc.toNat ≤ 4096)
    (hi : i < nd.toNat) (habove : 112 < (workAt s i).toNat) :
    checkPhase (.rsEncode nd nc) s = some .rangeCw :=
  (firstError_of_not_holds (decide_eq_false (Nat.not_lt.2 hfit)) _ _).trans
    (firstError_of_holds (anyAbove_eq_true (List.mem_map_of_mem (List.mem_range.2 hi)) habove) _ _)

/-- With a legal geometry and a stream that fits, DOTSTREAM finds a codeword it cannot expand (R200). -/
theorem checkPhase_dotStream_of_badStreamWord {s : State} (g : geomOk (gridRows s) (gridCols s) = true)
    (hfit : minDots (dLen s) (eLen s) ≤ dotCapacity s) (hword : badStreamWord s = true) :
    checkPhase .dotStream s = some .rangeCw :=
  calc checkPhase .dotStream s
    _ = firstError [(streamTooLong s, .len), (badStreamWord s, .rangeCw)] :=
      firstError_of_not_holds (badGeom_eq_false g) _ _
    _ = firstError [(badStreamWord s, .rangeCw)] :=
      firstError_of_not_holds (decide_eq_false (Nat.not_lt.2 hfit)) _ _
    _ = some .rangeCw := firstError_of_holds hword _ _

/-- When the checks RUN shares with SIZE pass, it finds a bad data codeword (R233). -/
theorem runCheck_of_badSource {s : State}
    (hsize : firstError (sizeErrors s.params (dLen s) (runEcc s) s.widthReq.toNat) = none)
    (hsrc : badSource s = true) : runCheck s = some .rangeCw := by
  rw [runCheck, firstError_append, hsize, Option.none_or]
  exact firstError_of_holds hsrc _ _

/-- Settles O43: the range of the codewords is the last condition of each check phase. -/
theorem largeCodewordsRaiseRangeCw : Obligations.LargeCodewordsRaiseRangeCw := by
  refine ⟨fun s j m hj habove => ?_, fun s j m hj habove g hfit i hi => ?_,
    fun s i nd nc hfit hi habove => exec_of_checkPhase (checkPhase_rsEncode_of_above hfit hi habove),
    fun s i g hfit hi habove =>
      exec_of_checkPhase (checkPhase_dotStream_of_badStreamWord g hfit (badStreamWord_eq_true hi habove)),
    fun s j h w hwidth hsize hh hh' hw hw' hj habove => ?_⟩
  · exact exec_of_checkPhase (firstError_of_holds (badSource_eq_true hj habove) _ _)
  · have hcheck := candidateCheck_of_badSource g hfit (badSource_eq_true hj habove)
    simp only [List.mem_cons, List.not_mem_nil, or_false] at hi
    obtain rfl | rfl := hi <;> exact exec_of_checkPhase hcheck
  · have hfits : firstError (sizeErrors s.params (dLen s) (runEcc s) s.widthReq.toNat) = none := by
      rw [firstError_sizeErrors hwidth, runEcc, ← hsize]
      exact capacityCode_eq_none.2 ⟨hh, hh', hw, hw'⟩
    exact exec_of_checkPhase (runCheck_of_badSource hfits (badSource_eq_true hj habove))

/-! Every error (R253, R256, R261). -/

/-- Settles O44: a command ends with a code of its check phase, or completes a commit phase, which leaves ERR alone. -/
theorem errorsChangeOnlyStatus : Obligations.ErrorsChangeOnlyStatus := by
  intro i s
  cases hcheck : checkPhase i s with
  | some c => exact .inl ⟨c, checkPhase_mem_errorsOf hcheck, exec_of_checkPhase hcheck⟩
  | none => exact .inr ⟨_, exec_of_checkPhase_none hcheck, rfl, rfl, fun hi => commitPhase_errors hi s⟩

end Sys2Proof.Machine

/-! The interrupt output (R259) in the bits of CTRL and STATUS that a host reads. -/

namespace Sys2Proof.Machine

/-- Bit 0 of CTRL is IRQ_EN (R24). -/
theorem ctrlWord_irqEn (s : State) : (ctrlWord s).getLsbD 0 = s.irqEn := by
  simp only [ctrlWord, BitVec.getLsbD_append, bit]
  simp

/-- The bits 1, 3 and 4 of STATUS are DONE, OVR and BERR (R25). -/
theorem statusWord_irqFlags (s : State) :
    (statusWord s).getLsbD 1 = s.done ∧ (statusWord s).getLsbD 3 = s.ovr ∧ (statusWord s).getLsbD 4 = s.berr := by
  simp only [statusWord, BitVec.getLsbD_append, bit]
  simp

/-- Outside reset, the interrupt output is IRQ_EN with one of DONE, OVR and BERR (R259). -/
theorem irq_eq_true {s : State} (hr : s.inReset = false) :
    irq s = true ↔ s.irqEn = true ∧ (s.done = true ∨ s.ovr = true ∨ s.berr = true) := by
  simp only [irq, hr, Bool.not_false, Bool.true_and, Bool.and_eq_true, Bool.or_eq_true, or_assoc]

/-- Settles O55: the four flags of the formula are the bits the host reads. -/
theorem irqFollowsStatus : Obligations.IrqFollowsStatus := by
  intro s hr
  have hctrl : (readReg s .ctrl).getLsbD 0 = s.irqEn := ctrlWord_irqEn s
  obtain ⟨hdone, hovr, hberr⟩ := statusWord_irqFlags s
  rw [hctrl, hdone, hovr, hberr]
  exact irq_eq_true hr

end Sys2Proof.Machine

/-! Reset: SRESET (R232, R283), the reset input (R280–R282), and the state it leaves (R281). -/

namespace Sys2Proof.Machine

/-- After SRESET's completion the flag DONE alone is set (R283). -/
theorem statusWord_sreset (s : State) : statusWord (complete (resetRegisters s)) = 0x00000002#32 := by
  apply BitVec.eq_of_toNat_eq
  rw [statusWord_toNat]
  rfl

/-- Settles O8: SRESET checks nothing, commits the reset values of the registers and completes. -/
theorem sresetRestoresTheRegisters : Obligations.SresetRestoresTheRegisters :=
  fun s => ⟨complete (resetRegisters s), exec_of_checkPhase_none (i := .sreset) rfl, statusWord_sreset s, rfl⟩

/-! The registers right after reset. -/

/-- Every register but ID and MIN_DOTS reads 0 after reset (R23, R281). -/
theorem readReg_reset {r : Reg} (hid : r ≠ .id) (hmin : r ≠ .minDots) : readReg State.reset r = 0 := by
  cases r with
  | id => exact absurd rfl hid
  | minDots => exact absurd rfl hmin
  | pkOut | mscoreLo | mscoreHi => simp [readReg, State.reset]
  | _ => rfl

/-- GRID_H = GRID_W = 0 is no legal geometry (R281). -/
theorem badGeom_reset : badGeom State.reset = true := rfl

/-- Settles O57: the registers one by one, and the geometry, which is what every grid command checks first. -/
theorem resetValuesOfTheRegisters : Obligations.ResetValuesOfTheRegisters :=
  ⟨rfl, rfl, fun _ => readReg_reset, rfl, rfl, rfl,
    fun _ _ hi => exec_of_checkPhase (checkPhase_of_badGeom badGeom_reset hi)⟩

/-! The reset input. -/

theorem step_resetAssert {s : State} {rest : List Turn} (h : s.turns = .resetAssert :: rest) :
    step s = .next (assertReset { s with turns := rest }) := by
  rw [step, h]

theorem step_resetRelease {s : State} {rest : List Turn} (h : s.turns = .resetRelease :: rest) :
    step s = .next (releaseReset { s with turns := rest }) := by
  rw [step, h]

/-- While reset is asserted the engine stands still (R280). -/
theorem engineTurn_inReset {s : State} (h : s.inReset = true) : engineTurn s = .next s := if_pos h

/-- While reset is asserted a transaction only draws a free answer (R280; log 8). -/
theorem busTransaction_inReset {s : State} (h : s.inReset = true) (x : Txn) :
    busTransaction x s = { s with response := Config.inResetAnswer s.draws, draws := s.draws + 1 } := if_pos h

/-- The interrupt output is 0 while reset is asserted (R259, R280). -/
theorem irq_inReset {s : State} (h : s.inReset = true) : irq s = false := by
  simp [irq, h]

/-- Both edges of the reset input leave the reset state, but for the parameters and the model's own fields (R280–R282). -/
theorem releaseReset_assertReset (s : State) (rest : List Turn) :
    releaseReset { assertReset s with turns := rest } =
      { State.reset with
        params := s.params, epoch := s.epoch + 1, draws := s.draws, response := s.response, turns := rest } := rfl

/-- Settles O58: the two edges one after the other, and the engine and the bus between them. -/
theorem hardwareResetStartsAfresh : Obligations.HardwareResetStartsAfresh :=
  ⟨fun s rest hturns => ⟨_, _, step_resetAssert hturns, irq_inReset rfl, step_resetRelease rfl,
      releaseReset_assertReset { s with turns := .resetRelease :: rest } rest⟩,
    fun _ x hreset => ⟨engineTurn_inReset hreset, _, busTransaction_inReset hreset x⟩⟩

/-- R8's defaults meet R8 (log 3). -/
theorem defaultParams_wf : paramsWf defaultParams = true := by decide

/-- Settles O59: the default parameters are well-formed, the buffers and the packer are empty, no error is recorded and
nothing is pending. -/
theorem resetMeetsTheInvariant : Obligations.ResetMeetsTheInvariant where
  params := defaultParams_wf
  memory := reset_memory_wf
  packer := packerInv_of_empty rfl rfl
  outCount := .inl rfl
  digits := by simp [State.reset]
  errors := by simp [State.reset]
  steps := Nat.zero_le 37
  streamLen := Nat.zero_le 20000
  idleInReset := fun _ => rfl

end Sys2Proof.Machine
